-- ==== Sys2Proof/Word.lean ====
section
/-! DEFINITION. The fixed-width words of the tile engine: every value is an unsigned integer of a stated
width, there are no signed and no floating-point values (spec/00_scope.md R12). -/

namespace Sys2Proof

/-- A byte: an element of the TILE and MAP views, an indexed colour, a channel of a framebuffer pixel. -/
abbrev Byte := BitVec 8

/-- A palette word, format P (spec/30_encoding.md R82). -/
abbrev Half := BitVec 16

/-- A sprite attribute word, format S (spec/30_encoding.md R83); also the width of `STATUS` (R32). -/
abbrev Word := BitVec 32

end Sys2Proof
end

