-- ==== Sys2Proof/Machine/Formats.lean ====
section
/-! DEFINITION. The instruction formats of spec/30_encoding.md: the unit operand bundle (R88), and an instruction's bits
by the place they are fetched from (R80). -/

namespace Sys2Proof

/-- A unit operand bundle, format U (R88): the operands concatenated in the order of opcode_table.json. The bundles
have no selecting bits; which unit a bundle goes to is the constructor. -/
inductive UnitBundle where
  /-- `ttttttttyyyxxx`, to the tile decoder. -/
  | decodePixel (w : BitVec 14)
  /-- `pppppb`, to the palette resolver. -/
  | resolveColor (w : BitVec 6)
  /-- `rrrgggbb`, format C, to the colour expander. -/
  | expandToChannels (w : BitVec 8)
  /-- `xxxxxxxxxxxyyyyyyyyyyyrrrrrrrrggggggggbbbbbbbba`, to the framebuffer writer. -/
  | fbWrite (w : BitVec 47)
  deriving DecidableEq, Repr

/-- The bits of an instruction, by the place it comes from: "Which format an entry has is decided by the view it is
fetched from, never by its bits" (R80). -/
inductive Encoded where
  /-- Format M: a byte of the MAP view. -/
  | cell (b : Byte)
  /-- Format S: a word of the SPR view. -/
  | sprite (w : Word)
  /-- Format U: an operand bundle at a unit. -/
  | unit (u : UnitBundle)
  /-- Format H: a command record on the host port, its code byte first, then its operands (log entry 7). -/
  | command (bytes : List Byte)
  deriving DecidableEq, Repr

end Sys2Proof
end

