-- ==== Sys2Proof/Config.lean ====
section
/-! DEFINITION. The configuration record `CFG` (spec/00_scope.md R6, R8, R9): the parameters the spec leaves OPEN
(spec/92_eei_decisions.md), as plain data; the two named configurations of R10; and the model's one free value. -/

namespace Sys2Proof

/-- The layout parameters of R8: the least significant bit of each field of the sprite word and of the map cell.
The field widths (8, 5, 2, 8, 8 and 6, 2) are stated by the spec and are no parameters. -/
structure Layout where
  sprTile : Nat
  sprPal : Nat
  sprMode : Nat
  sprX : Nat
  sprY : Nat
  mapTile : Nat
  mapPal : Nat
  deriving DecidableEq, Repr

/-- The default values of R8, which every rule, vector and table of the spec uses. -/
def Layout.default : Layout :=
  { sprTile := 24, sprPal := 19, sprMode := 17, sprX := 9, sprY := 0, mapTile := 2, mapPal := 0 }

/-- The configuration `CFG`: the element counts of R6, the layout parameters of R8 and the initial content `SEED`
of the packed memory (R9). It is fixed for the life of the machine (R231). -/
structure Config where
  tileCount : Nat
  spriteCount : Nat
  paletteCount : Nat
  rows : Nat
  cols : Nat
  layout : Layout
  seed : List Byte
  deriving DecidableEq, Repr

/-- `CFG_REF` of R10, with a given `SEED` (960 bytes). -/
def Config.ref (seed : List Byte) : Config :=
  { tileCount := 64, spriteCount := 32, paletteCount := 32, rows := 16, cols := 16
    layout := Layout.default, seed := seed }

/-- `CFG_SMALL` of R10, with a given `SEED` (60 bytes). -/
def Config.small (seed : List Byte) : Config :=
  { tileCount := 4, spriteCount := 4, paletteCount := 4, rows := 2, cols := 2
    layout := Layout.default, seed := seed }

/-- FREE VALUE (log entry 3). The colour byte of the framebuffer at byte address `a` that the reset event number
`epoch` leaves: "unspecified; the model treats each as a draw: any byte, fixed until overwritten"
(spec/10_state.md R37, spec/93_implementation_defined.md I12). It has no body: nothing constrains it. -/
opaque Config.fbDraw (epoch a : Nat) : Byte

end Sys2Proof
end

