-- ==== Sys2Proof/Machine/Geometry.lean ====
section
/-! DEFINITION. What the configuration determines: the size of the surface (spec/00_scope.md R7), the segment bases
of the packed memory (spec/20_memory.md R51), the flat address of a view element (R52) and the byte address of a
framebuffer channel (R62). -/

namespace Sys2Proof

/-- The number of map cells, `ROWS * COLS` (R25). -/
def Config.cellCount (c : Config) : Nat := c.rows * c.cols

/-- `W`, the surface's width in pixels (R7). -/
def Config.width (c : Config) : Nat := 8 * c.cols

/-- `H`, the surface's height in pixels (R7). -/
def Config.height (c : Config) : Nat := 8 * c.rows

/-- The number of bytes of the framebuffer, `W * H * 4` (R26). -/
def Config.fbSize (c : Config) : Nat := c.width * c.height * 4

/-- The number of elements of the TILE view (R22). -/
def Config.tileBytes (c : Config) : Nat := 8 * c.tileCount

/-- `TILE_BASE` (R51). -/
def Config.tileBase (_ : Config) : Nat := 0

/-- `SPR_BASE` (R51). -/
def Config.sprBase (c : Config) : Nat := 8 * c.tileCount

/-- `PAL_BASE` (R51). -/
def Config.palBase (c : Config) : Nat := c.sprBase + 4 * c.spriteCount

/-- `MAP_BASE` (R51). -/
def Config.mapBase (c : Config) : Nat := c.palBase + 2 * c.paletteCount

/-- `MEM_SIZE` (R51). -/
def Config.memSize (c : Config) : Nat := c.mapBase + c.rows * c.cols

/-- Flat byte address of TILE element `i` (R52). -/
def Config.tileAddr (c : Config) (i : Nat) : Nat := c.tileBase + i

/-- Flat byte address of the first byte of SPR element `i` (R52). -/
def Config.sprAddr (c : Config) (i : Nat) : Nat := c.sprBase + 4 * i

/-- Flat byte address of the first byte of PAL element `i` (R52). -/
def Config.palAddr (c : Config) (i : Nat) : Nat := c.palBase + 2 * i

/-- Flat byte address of MAP element `i` (R52). -/
def Config.mapAddr (c : Config) (i : Nat) : Nat := c.mapBase + i

/-- The element index of the map cell `(row, col)`: row-major (R25, R52). -/
def Config.cellIndex (c : Config) (row col : Nat) : Nat := row * c.cols + col

/-- The byte address of the red channel of pixel `(px, py)` (R26, R62). -/
def Config.pixelAddr (c : Config) (px py : Nat) : Nat := (py * c.width + px) * 4

/-- `SEED[a]`, the reset content of the packed memory (R9, R37). -/
def Config.seedByte (c : Config) (a : Nat) : Byte := c.seed.getD a 0

end Sys2Proof
end

