-- ==== Sys2Proof/Machine/State.lean ====
section
/-! DEFINITION. The machine's state, plain data: the block's own state of spec/10_state.md R20
(MEM, FB, SEQ, LATCH, FLAGS, FINFO), the configuration, the block's outputs, and the inputs the outside world has in
store for it; and its value after reset (R37). -/

namespace Sys2Proof.Machine

/-- The four views of the packed memory (R20). -/
inductive View where
  | tile
  | spr
  | pal
  | map
  deriving DecidableEq, Repr

/-- The sequencer's phase (R29). -/
inductive Phase where
  | idle
  | map
  | sprite
  | fault
  deriving DecidableEq, Repr

/-- The sequencer `SEQ`, "this hardware's program counter" (R29). -/
structure Seq where
  phase : Phase
  entry : Nat
  ly : BitVec 3
  lx : BitVec 3
  deriving DecidableEq, Repr

/-- `LATCH`, the decoded fields of the display-list entry being executed, 31 bits (R30). -/
structure Latch where
  tileId : BitVec 8
  palId : BitVec 5
  mode : BitVec 2
  x : BitVec 8
  y : BitVec 8
  deriving DecidableEq, Repr

/-- `FLAGS`, the three status flags (R31). -/
structure Flags where
  busy : Bool
  done : Bool
  fault : Bool
  deriving DecidableEq, Repr

/-- `FINFO`, what the last fault recorded, 29 bits (R20, R32). -/
structure FaultInfo where
  cause : BitVec 2
  fview : BitVec 2
  fhost : Bool
  findex : BitVec 24
  deriving DecidableEq, Repr

/-- The block's response to a host command (R87, R187). -/
inductive Response where
  /-- No response has been given: since reset, or to the frame in progress. -/
  | none
  /-- `OK` without data. -/
  | ok
  /-- `OK(data:8)`. -/
  | ok8 (data : BitVec 8)
  /-- `OK(data:16)`. -/
  | ok16 (data : BitVec 16)
  /-- `OK(data:32)`. -/
  | ok32 (data : BitVec 32)
  /-- `RAISED`: the command's own access, or the frame it started, raised `OutOfRangeIndex`. -/
  | raised
  /-- `FAULTED`: the block was already in `FAULT`, the command was not executed. -/
  | faulted
  /-- `REFUSED`: not a command, or an `FB_RD` address out of range. -/
  | refused
  deriving DecidableEq, Repr

/-- What a unit operation run on its own has delivered (R88's column "result"; log entry 12). -/
inductive UnitResult where
  | none
  | bit (b : BitVec 1)
  | color (c : BitVec 8)
  | channels (r g b : BitVec 8)
  deriving DecidableEq, Repr

/-- The machine's state. -/
structure State where
  /-- The configuration `CFG`, a parameter of the step relation (R36) carried as data; no step changes it (log entry 1). -/
  cfg : Config
  /-- `MEM` (R21): the bytes that differ from `SEED`, by flat address; an unlisted address reads `SEED[a]`. -/
  mem : List Host.Cell
  /-- `FB` (R26): the colour bytes written since the last reset, by byte address. An unlisted opacity byte reads 255, an
  unlisted colour byte the free value `Config.fbDraw` (R37). -/
  fb : List Host.Cell
  /-- `SEQ` (R29). -/
  seq : Seq
  /-- `LATCH` (R30). -/
  latch : Latch
  /-- `FLAGS` (R31). -/
  flags : Flags
  /-- `FINFO` (R32). -/
  finfo : FaultInfo
  /-- Output: the last response on the command port (R187; log entry 6). -/
  resp : Response
  /-- Output: how many `PRESENT` events have been emitted (R33, R141; log entry 6). -/
  presented : Nat
  /-- Output: what the last unit operation run on its own delivered (R88; log entry 12). -/
  unitOut : UnitResult
  /-- Input: the command records the host will offer, the next one first (R170, R186; log entry 5). -/
  port : List (List Byte)
  /-- Input: the level of the reset input at each coming step, low past the end (R230; log entry 5). -/
  resetIn : List Bool
  /-- Input: an operand bundle presented to a unit on its own (R88; log entry 12). -/
  unitIn : Option UnitBundle
  /-- How many reset events there have been: the argument of the free value of the colour bytes (log entry 3). -/
  epoch : Nat
  deriving DecidableEq, Repr

/-- A stop of the machine. It has NO constructor: "Nothing in the block is `stuck` by omission: every command in every
state has a listed outcome" (spec/93_implementation_defined.md); the error `OutOfRangeIndex` is a state of the block
(R207), not a stop of the model. -/
inductive Fault where
  deriving DecidableEq, Repr

/-- A refusal to give an instruction a meaning. No arm of `exec` uses it. -/
inductive Refusal where
  /-- Raised by an arm of `exec` for an instruction that has no meaning yet; safe. No arm raises it in this model. -/
  | notModelled (mnemonic : String)
  deriving DecidableEq, Repr

/-- `SEQ` after reset: `IDLE`, the position meaningless and set to 0 (R37, R29; log entry 4). -/
def Seq.reset : Seq := { phase := .idle, entry := 0, ly := 0, lx := 0 }

/-- `LATCH` after reset: "unspecified and unobservable" (R37), set to 0 (log entry 4). -/
def Latch.reset : Latch := { tileId := 0, palId := 0, mode := 0, x := 0, y := 0 }

/-- `FLAGS` after reset: 0, 0, 0 (R37). -/
def Flags.reset : Flags := { busy := false, done := false, fault := false }

/-- `FINFO` after reset: all 0 (R37). -/
def FaultInfo.reset : FaultInfo := { cause := 0, fview := 0, fhost := false, findex := 0 }

/-- The machine of configuration `c` right after reset (R37), with no input in store. -/
def State.resetWith (c : Config) : State :=
  { cfg := c, mem := [], fb := [], seq := Seq.reset, latch := Latch.reset, flags := Flags.reset
    finfo := FaultInfo.reset, resp := .none, presented := 0, unitOut := .none, port := [], resetIn := []
    unitIn := none, epoch := 0 }

/-- The machine right after reset, in the configuration `CFG_REF` with `SEED` = 960 zero bytes: the start state of
program P4 (spec/95_test_vectors.md). The configuration and the seed are OPEN parameters (R6, R9): this is one instance
of them (log entries 1 and 2), and `State.resetWith` gives every other. -/
def State.reset : State := State.resetWith (Config.ref (List.replicate 960 0))

end Sys2Proof.Machine
end

