-- ==== Sys2Proof/Machine/Ops.lean ====
section
/-! DEFINITION. The named operations over memory and state: the two address spaces (spec/20_memory.md R50 to R55, R62),
the checked views (R54, R55), fault entry (spec/60_exceptions.md R207), the reset event
(spec/70_reset_and_hazards.md R230), the acceptance of a host command by state (spec/44_host_commands.md R170, R171). -/

namespace Sys2Proof.Machine

/-! ### Byte storage: a list of cells, addresses strictly rising -/

/-- The byte listed at address `a`, if one is. -/
def cellLookup : List Host.Cell → Nat → Option Byte
  | [], _ => none
  | c :: m, a => if c.1 = a then some c.2 else cellLookup m a

/-- List `v` at address `a`. -/
def cellInsert : List Host.Cell → Nat → Byte → List Host.Cell
  | [], a, v => [(a, v)]
  | c :: m, a, v =>
    if a < c.1 then (a, v) :: c :: m
    else if c.1 = a then (a, v) :: m
    else c :: cellInsert m a v

/-- List nothing at address `a`. -/
def cellErase : List Host.Cell → Nat → List Host.Cell
  | [], _ => []
  | c :: m, a => if c.1 = a then cellErase m a else c :: cellErase m a

/-- Store `v` at `a` where an unlisted `a` reads as `dflt`: that value is never listed, so equal contents are equal
lists. -/
def cellPut (dflt : Byte) (m : List Host.Cell) (a : Nat) (v : Byte) : List Host.Cell :=
  if v = dflt then cellErase m a else cellInsert m a v

/-- The addresses of a cell list rise strictly. -/
abbrev cellsRise (m : List Host.Cell) : Prop := m.Pairwise fun c d => c.1 < d.1

/-- The canonical form of `MEM`: addresses rise strictly, lie in `0 .. MEM_SIZE - 1` (R50), and no listed byte equals what
its unlisted address reads as, `SEED[a]`. -/
abbrev Memory.wf (c : Config) (m : List Host.Cell) : Prop :=
  cellsRise m ∧ ∀ e ∈ m, e.1 < c.memSize ∧ e.2 ≠ c.seedByte e.1

/-- The canonical form of `FB`: addresses rise strictly, lie in `0 .. W*H*4 - 1` (R50), and only colour bytes are listed,
the opacity byte being 255 at all times (R27). -/
abbrev FrameBuffer.wf (c : Config) (m : List Host.Cell) : Prop :=
  cellsRise m ∧ ∀ e ∈ m, e.1 < c.fbSize ∧ e.1 % 4 ≠ 3

/-! ### The packed memory, flat: `MemRead` and `MemWrite` of R53, little-endian -/

/-- `MemRead(a, 1)`. -/
def memByte (s : State) (a : Nat) : Byte := (cellLookup s.mem a).getD (s.cfg.seedByte a)

/-- `MemRead(a, 2)`: the byte at `a` is the low one. -/
def memHalf (s : State) (a : Nat) : Half := memByte s (a + 1) ++ memByte s a

/-- `MemRead(a, 4)`: the byte at `a` is the lowest one. -/
def memWord (s : State) (a : Nat) : Word := memHalf s (a + 2) ++ memHalf s a

/-- `MemWrite(a, 1, v)`. -/
def memPut (s : State) (a : Nat) (v : Byte) : State := { s with mem := cellPut (s.cfg.seedByte a) s.mem a v }

/-- `MemWrite(a, 2, v)`. -/
def memPutHalf (s : State) (a : Nat) (v : Half) : State :=
  memPut (memPut s a (v.extractLsb' 0 8)) (a + 1) (v.extractLsb' 8 8)

/-- `MemWrite(a, 4, v)`. -/
def memPutWord (s : State) (a : Nat) (v : Word) : State :=
  memPutHalf (memPutHalf s a (v.extractLsb' 0 16)) (a + 2) (v.extractLsb' 16 16)

/-! ### The checked views, R54 and R55 -/

/-- What `raise OutOfRangeIndex(view, index)` names (R14). -/
structure Raise where
  view : View
  index : Nat
  deriving DecidableEq, Repr

/-- `TileRead(i)` (R54). -/
def tileRead (s : State) (i : Nat) : Except Raise Byte :=
  if s.cfg.tileBytes ≤ i then .error ⟨.tile, i⟩ else .ok (memByte s (s.cfg.tileAddr i))

/-- `SprRead(i)` (R54). -/
def sprRead (s : State) (i : Nat) : Except Raise Word :=
  if s.cfg.spriteCount ≤ i then .error ⟨.spr, i⟩ else .ok (memWord s (s.cfg.sprAddr i))

/-- `PalRead(i)` (R54). -/
def palRead (s : State) (i : Nat) : Except Raise Half :=
  if s.cfg.paletteCount ≤ i then .error ⟨.pal, i⟩ else .ok (memHalf s (s.cfg.palAddr i))

/-- `MapRead(i)` (R54). -/
def mapRead (s : State) (i : Nat) : Except Raise Byte :=
  if s.cfg.cellCount ≤ i then .error ⟨.map, i⟩ else .ok (memByte s (s.cfg.mapAddr i))

/-- `TileWrite(i, v)` (R55). -/
def tileWrite (s : State) (i : Nat) (v : Byte) : Except Raise State :=
  if s.cfg.tileBytes ≤ i then .error ⟨.tile, i⟩ else .ok (memPut s (s.cfg.tileAddr i) v)

/-- `SprWrite(i, v)` (R55). -/
def sprWrite (s : State) (i : Nat) (v : Word) : Except Raise State :=
  if s.cfg.spriteCount ≤ i then .error ⟨.spr, i⟩ else .ok (memPutWord s (s.cfg.sprAddr i) v)

/-- `PalWrite(i, v)` (R55). -/
def palWrite (s : State) (i : Nat) (v : Half) : Except Raise State :=
  if s.cfg.paletteCount ≤ i then .error ⟨.pal, i⟩ else .ok (memPutHalf s (s.cfg.palAddr i) v)

/-- `MapWrite(i, v)` (R55). -/
def mapWrite (s : State) (i : Nat) (v : Byte) : Except Raise State :=
  if s.cfg.cellCount ≤ i then .error ⟨.map, i⟩ else .ok (memPut s (s.cfg.mapAddr i) v)

/-! ### The framebuffer's bytes -/

/-- What byte `a` of the framebuffer reads as when no write since reset has reached it: 255 for an opacity byte, the free
value for a colour byte (R37). -/
def fbUnwritten (s : State) (a : Nat) : Byte := if a % 4 = 3 then 255#8 else Config.fbDraw s.epoch a

/-- `FB[a]`. -/
def fbByte (s : State) (a : Nat) : Byte := (cellLookup s.fb a).getD (fbUnwritten s a)

/-- `FB[a] <- v` for a colour byte. -/
def fbPut (m : List Host.Cell) (a : Nat) (v : Byte) : List Host.Cell := cellInsert m a v

/-- `FB[a] <- 255` for an opacity byte: 255 is what an unlisted opacity byte reads as, and is never listed. -/
def fbPutOpaque (m : List Host.Cell) (a : Nat) : List Host.Cell := cellPut 255#8 m a 255#8

/-! ### Fault entry and reset -/

/-- The code of a view in `FVIEW` (R32). -/
def View.code : View → BitVec 2
  | .tile => 0
  | .spr => 1
  | .pal => 2
  | .map => 3

/-- R207: fault entry on `raise OutOfRangeIndex(view, index)`; `host` says whether a host command's own access raised it.
Nothing else changes: MEM and FB keep what they held (R206), SEQ's position is frozen (R29). -/
def enterFault (s : State) (r : Raise) (host : Bool) : State :=
  { s with
    flags := { busy := false, done := false, fault := true }
    finfo := { cause := 1, fview := r.view.code, fhost := host, findex := BitVec.ofNat 24 r.index }
    seq := { s.seq with phase := .fault }
    resp := .raised }

/-- R230: the reset event. Every piece of the block's state goes to its value of R37; the colour bytes of the framebuffer
are drawn afresh (log entry 3). The configuration is no reset state (R231); the tally of past `PRESENT` events and what
the outside world has in store are not the block's (log entry 15). -/
def resetEvent (s : State) : State :=
  { State.resetWith s.cfg with
    presented := s.presented, port := s.port, resetIn := s.resetIn, epoch := s.epoch + 1 }

/-! ### Commands: acceptance and responses -/

/-- Answer the host (R187). -/
def respond (s : State) (r : Response) : State := { s with resp := r }

/-- R171: in `FAULT` a command other than `RESET` and `STATUS_RD` is answered `FAULTED` and changes no state. -/
def answerFaulted (s : State) : State := respond s .faulted

/-- R170, R171: `k` is what a command does when the block is `IDLE`. In `FAULT` it is answered `FAULTED`. While a frame is
executing it "is simply not taken": nothing happens (log entry 11). -/
def onCommand (s : State) (k : State → State) : State :=
  match s.seq.phase with
  | .idle => k s
  | .fault => answerFaulted s
  | .map => s
  | .sprite => s

/-- R171: a code that is not a command is answered `REFUSED` in `IDLE` and `FAULTED` in `FAULT`, and changes no state. -/
def answerNotACommand (s : State) : State := onCommand s fun s => respond s .refused

/-- A host command that reads: its data, or the fault it raises with `FHOST = 1` (R172 to R178). -/
def hostRead {α : Type} (s : State) (res : Except Raise α) (f : α → Response) : State :=
  match res with
  | .ok v => respond s (f v)
  | .error r => enterFault s r true

/-- A host command that writes: the state written, or the fault it raises with `FHOST = 1` and nothing written
(R173 to R181). -/
def hostWrite (s : State) (res : Except Raise State) : State :=
  match res with
  | .ok t => respond t .ok
  | .error r => enterFault s r true

end Sys2Proof.Machine
end

