-- ==== Sys2Proof/Machine/Flags.lean ====
section
/-! DEFINITION. The status flags and the `STATUS` register (spec/10_state.md R31, R32), and the two moments of a frame
that set and clear them besides fault entry and reset: acceptance of `RENDER_FRAME` (spec/44_host_commands.md R182) and
completion (spec/42_compositor.md R141). -/

namespace Sys2Proof.Machine

/-- The 32 bits of `STATUS` (R32): `FINDEX` [31:8], `FHOST` [7], `CAUSE` [6:5], `FVIEW` [4:3], `FAULT` [2], `DONE` [1],
`BUSY` [0]. -/
def statusWord (s : State) : Word :=
  s.finfo.findex ++ (BitVec.ofBool s.finfo.fhost ++ (s.finfo.cause ++ (s.finfo.fview ++
    (BitVec.ofBool s.flags.fault ++ (BitVec.ofBool s.flags.done ++ BitVec.ofBool s.flags.busy)))))

/-- R182: `DONE <- 0 ; BUSY <- 1 ; SEQ.phase <- MAP`; the frame starts at map element 0 (R37). The response is given when
the frame ends (log entry 6). -/
def startFrame (s : State) : State :=
  { s with
    flags := { s.flags with busy := true, done := false }
    seq := { phase := .map, entry := 0, ly := 0, lx := 0 }
    resp := .none }

/-- R141: `BUSY <- 0`, `DONE <- 1`, `SEQ.phase <- IDLE`, `PRESENT` emitted once; the `RENDER_FRAME` is answered `OK`
(R182). -/
def completeFrame (s : State) : State :=
  { s with
    flags := { s.flags with busy := false, done := true }
    seq := { s.seq with phase := .idle }
    presented := s.presented + 1
    resp := .ok }

end Sys2Proof.Machine
end

