-- ==== Sys2Proof/Syntax.lean ====
section
/-! DEFINITION. The instructions: one constructor per row of spec/opcode_table.json, every operand at the exact width
the spec gives it (spec/30_encoding.md R84, R83, R88, R87), so that an operand out of its field's range cannot be
written. -/

namespace Sys2Proof

/-- The 23 operations of the tile engine: five display-list entries, four unit operations, fourteen host commands
(R87, R88, R96). -/
inductive Instr where
  /-- `MAPCELL` (R132): paint one map cell with tile `tileId` and palette `palId`. -/
  | mapcell (tileId : BitVec 6) (palId : BitVec 2)
  /-- `SPR.OPAQUE` (R135): layer mode `0b00`. -/
  | sprOpaque (tileId : BitVec 8) (palId : BitVec 5) (x y : BitVec 8)
  /-- `SPR.BACK` (R136): layer mode `0b01`. -/
  | sprBack (tileId : BitVec 8) (palId : BitVec 5) (x y : BitVec 8)
  /-- `SPR.FRONT` (R137): layer mode `0b10`. -/
  | sprFront (tileId : BitVec 8) (palId : BitVec 5) (x y : BitVec 8)
  /-- `SPR.DISABLED` (R138): layer mode `0b11`; "Operands: none used", the other 30 bits are ignored. -/
  | sprDisabled
  /-- `DECODE_PIXEL` (R110). -/
  | decodePixel (tileId : BitVec 8) (ly lx : BitVec 3)
  /-- `RESOLVE_COLOR` (R120). -/
  | resolveColor (palId : BitVec 5) (bit : BitVec 1)
  /-- `EXPAND_TO_CHANNELS` (R121). -/
  | expandToChannels (c : BitVec 8)
  /-- `FB_WRITE` (R160). -/
  | fbWrite (px py : BitVec 11) (r g b : BitVec 8) (setA : BitVec 1)
  /-- `TILE_RD idx` (R172). -/
  | tileRd (idx : BitVec 24)
  /-- `TILE_WR idx, data` (R173). -/
  | tileWr (idx : BitVec 24) (data : BitVec 8)
  /-- `SPR_RD slot` (R174). -/
  | sprRd (slot : BitVec 24)
  /-- `SPR_WR slot, data` (R175). -/
  | sprWr (slot : BitVec 24) (data : BitVec 32)
  /-- `PAL_RD idx` (R176). -/
  | palRd (idx : BitVec 24)
  /-- `PAL_WR idx, data` (R177). -/
  | palWr (idx : BitVec 24) (data : BitVec 16)
  /-- `MAP_RD idx` (R178). -/
  | mapRd (idx : BitVec 24)
  /-- `MAP_WR idx, data` (R179). -/
  | mapWr (idx : BitVec 24) (data : BitVec 8)
  /-- `SET_MAP_CELL row, col, tile_id, palette_id` (R180). -/
  | setMapCell (row col : BitVec 8) (tileId palId : BitVec 16)
  /-- `PUT_SPRITE slot, tile_id, palette_id, x, y, layer_mode` (R181). -/
  | putSprite (slot : BitVec 24) (tileId palId x y mode : BitVec 16)
  /-- `RENDER_FRAME` (R182). -/
  | renderFrame
  /-- `FB_RD addr` (R183). -/
  | fbRd (addr : BitVec 24)
  /-- `STATUS_RD` (R184). -/
  | statusRd
  /-- `RESET` (R185). -/
  | reset
  deriving DecidableEq, Repr

end Sys2Proof
end

