-- ==== Sys2Proof/Decode.lean ====
section
/-! DEFINITION. The decoder, total on any bits and rejecting by name, and after it the encoder, both written from
spec/30_encoding.md: formats S and M (R83, R84, R89, R90, R96), U (R88) and H (R87), the packers (R94, R95). -/

namespace Sys2Proof

/-- Why the decoder refuses a command record. The display-list formats and the unit bundles have no illegal value
(R98 (d), R96); the only illegal encodings are command records (R98 (b)). -/
inductive DecodeError where
  /-- The record has no code byte. -/
  | noCode
  /-- Codes 0x00 and 0x0F to 0xFF "are not commands" (R87, R98 (b)). -/
  | notACommand (code : Byte)
  /-- The code is a command's, but the record does not carry exactly its operands (log entry 7). -/
  | wrongLength (code : Byte)
  deriving DecidableEq, Repr

/-- R89: the one instruction a map cell's byte is. -/
def decodeCell (l : Layout) (b : Byte) : Instr :=
  .mapcell (b.extractLsb' l.mapTile 6) (b.extractLsb' l.mapPal 2)

/-- R90: the layer mode of a sprite word, "examined first" (R134). -/
def spriteMode (l : Layout) (w : Word) : BitVec 2 := w.extractLsb' l.sprMode 2

/-- R90, R96: a sprite word is one of four instructions, selected by its layer mode alone; bits that no field covers are
ignored. -/
def decodeSprite (l : Layout) (w : Word) : Instr :=
  if spriteMode l w = 0b11#2 then .sprDisabled
  else if spriteMode l w = 0b00#2 then
    .sprOpaque (w.extractLsb' l.sprTile 8) (w.extractLsb' l.sprPal 5) (w.extractLsb' l.sprX 8) (w.extractLsb' l.sprY 8)
  else if spriteMode l w = 0b01#2 then
    .sprBack (w.extractLsb' l.sprTile 8) (w.extractLsb' l.sprPal 5) (w.extractLsb' l.sprX 8) (w.extractLsb' l.sprY 8)
  else
    .sprFront (w.extractLsb' l.sprTile 8) (w.extractLsb' l.sprPal 5) (w.extractLsb' l.sprX 8) (w.extractLsb' l.sprY 8)

/-- R88: the operands of a unit bundle, concatenated in the order of the table's `encoding` strings. -/
def decodeUnit : UnitBundle → Instr
  | .decodePixel w => .decodePixel (w.extractLsb' 6 8) (w.extractLsb' 3 3) (w.extractLsb' 0 3)
  | .resolveColor w => .resolveColor (w.extractLsb' 1 5) (w.extractLsb' 0 1)
  | .expandToChannels w => .expandToChannels w
  | .fbWrite w =>
    .fbWrite (w.extractLsb' 36 11) (w.extractLsb' 25 11) (w.extractLsb' 17 8) (w.extractLsb' 9 8) (w.extractLsb' 1 8)
      (w.extractLsb' 0 1)

/-- An 8-bit operand at the front of a record's operand bytes. -/
def take8 : List Byte → Option (BitVec 8 × List Byte)
  | a :: r => some (a, r)
  | _ => none

/-- A 16-bit operand, its low byte first (log entry 7). -/
def take16 : List Byte → Option (BitVec 16 × List Byte)
  | a :: b :: r => some (b ++ a, r)
  | _ => none

/-- A 24-bit operand, its low byte first (log entry 7). -/
def take24 : List Byte → Option (BitVec 24 × List Byte)
  | a :: b :: c :: r => some (c ++ (b ++ a), r)
  | _ => none

/-- A 32-bit operand, its low byte first (log entry 7). -/
def take32 : List Byte → Option (BitVec 32 × List Byte)
  | a :: b :: c :: d :: r => some (d ++ (c ++ (b ++ a)), r)
  | _ => none

/-- The record ends here: it carries its operands and nothing more. -/
def noMore (i : Instr) : List Byte → Option Instr
  | [] => some i
  | _ :: _ => none

/-- A command with one 24-bit operand. -/
def oneIndex (f : BitVec 24 → Instr) (ops : List Byte) : Option Instr :=
  (take24 ops).bind fun p => noMore (f p.1) p.2

/-- A command with a 24-bit index and an 8-bit datum. -/
def indexByte (f : BitVec 24 → BitVec 8 → Instr) (ops : List Byte) : Option Instr :=
  (take24 ops).bind fun p => (take8 p.2).bind fun q => noMore (f p.1 q.1) q.2

/-- The operands of `SPR_WR`. -/
def indexWord (f : BitVec 24 → BitVec 32 → Instr) (ops : List Byte) : Option Instr :=
  (take24 ops).bind fun p => (take32 p.2).bind fun q => noMore (f p.1 q.1) q.2

/-- The operands of `PAL_WR`. -/
def indexHalf (f : BitVec 24 → BitVec 16 → Instr) (ops : List Byte) : Option Instr :=
  (take24 ops).bind fun p => (take16 p.2).bind fun q => noMore (f p.1 q.1) q.2

/-- The operands of `SET_MAP_CELL`: `row:8, col:8, tile_id:16, palette_id:16` (R87). -/
def cellOperands (f : BitVec 8 → BitVec 8 → BitVec 16 → BitVec 16 → Instr) (ops : List Byte) : Option Instr :=
  (take8 ops).bind fun p => (take8 p.2).bind fun q => (take16 q.2).bind fun r => (take16 r.2).bind fun t =>
    noMore (f p.1 q.1 r.1 t.1) t.2

/-- The operands of `PUT_SPRITE`: `slot:24, tile_id:16, palette_id:16, x:16, y:16, layer_mode:16` (R87). -/
def spriteOperands (f : BitVec 24 → BitVec 16 → BitVec 16 → BitVec 16 → BitVec 16 → BitVec 16 → Instr)
    (ops : List Byte) : Option Instr :=
  (take24 ops).bind fun p => (take16 p.2).bind fun q => (take16 q.2).bind fun r => (take16 r.2).bind fun t =>
    (take16 t.2).bind fun u => (take16 u.2).bind fun v => noMore (f p.1 q.1 r.1 t.1 u.1 v.1) v.2

/-- R87: the operands of the command whose code is `code`, or `none` where the record has another length. Codes that
are no command have no operands to read. -/
def commandOperands (code : Nat) (ops : List Byte) : Option Instr :=
  match code with
  | 0x01 => oneIndex .tileRd ops
  | 0x02 => indexByte .tileWr ops
  | 0x03 => oneIndex .sprRd ops
  | 0x04 => indexWord .sprWr ops
  | 0x05 => oneIndex .palRd ops
  | 0x06 => indexHalf .palWr ops
  | 0x07 => oneIndex .mapRd ops
  | 0x08 => indexByte .mapWr ops
  | 0x09 => cellOperands .setMapCell ops
  | 0x0A => spriteOperands .putSprite ops
  | 0x0B => noMore .renderFrame ops
  | 0x0C => oneIndex .fbRd ops
  | 0x0D => noMore .statusRd ops
  | 0x0E => noMore .reset ops
  | _ => none

/-- Codes 0x01 to 0x0E are commands; "Codes 0x00 and 0x0F to 0xFF are not commands" (R87). -/
def isCommandCode (code : Nat) : Bool := decide (0x01 ≤ code) && decide (code ≤ 0x0E)

/-- R87: a command record. -/
def decodeCommand : List Byte → Except DecodeError Instr
  | [] => .error .noCode
  | code :: ops =>
    if isCommandCode code.toNat then
      match commandOperands code.toNat ops with
      | some i => .ok i
      | none => .error (.wrongLength code)
    else .error (.notACommand code)

/-- The decoder: an instruction's bits, by the place they are fetched from (R80). -/
def decode (l : Layout) : Encoded → Except DecodeError Instr
  | .cell b => .ok (decodeCell l b)
  | .sprite w => .ok (decodeSprite l w)
  | .unit u => .ok (decodeUnit u)
  | .command bytes => decodeCommand bytes

/-- R94: `PackCell`, on fields already masked to 6 and 2 bits. -/
def packCell (l : Layout) (tileId : BitVec 6) (palId : BitVec 2) : Byte :=
  tileId.setWidth 8 <<< l.mapTile ||| palId.setWidth 8 <<< l.mapPal

/-- R95: `PackSprite`, on fields already masked to their widths; the bits no field covers are 0. -/
def packSprite (l : Layout) (tileId : BitVec 8) (palId : BitVec 5) (mode : BitVec 2) (x y : BitVec 8) : Word :=
  tileId.setWidth 32 <<< l.sprTile ||| palId.setWidth 32 <<< l.sprPal ||| mode.setWidth 32 <<< l.sprMode |||
    x.setWidth 32 <<< l.sprX ||| y.setWidth 32 <<< l.sprY

/-- A 16-bit operand's bytes, the low byte first (log entry 7). -/
def bytes16 (v : BitVec 16) : List Byte := [v.extractLsb' 0 8, v.extractLsb' 8 8]

/-- A 24-bit operand's bytes, the low byte first (log entry 7). -/
def bytes24 (v : BitVec 24) : List Byte := [v.extractLsb' 0 8, v.extractLsb' 8 8, v.extractLsb' 16 8]

/-- A 32-bit operand's bytes, the low byte first (log entry 7). -/
def bytes32 (v : BitVec 32) : List Byte :=
  [v.extractLsb' 0 8, v.extractLsb' 8 8, v.extractLsb' 16 8, v.extractLsb' 24 8]

/-- The encoder: the bits of an instruction, from the same tables (R83, R84, R87, R88, R96). -/
def encode (l : Layout) : Instr → Encoded
  | .mapcell t p => .cell (packCell l t p)
  | .sprOpaque t p x y => .sprite (packSprite l t p 0b00#2 x y)
  | .sprBack t p x y => .sprite (packSprite l t p 0b01#2 x y)
  | .sprFront t p x y => .sprite (packSprite l t p 0b10#2 x y)
  | .sprDisabled => .sprite (packSprite l 0 0 0b11#2 0 0)
  | .decodePixel t ly lx => .unit (.decodePixel (t ++ (ly ++ lx)))
  | .resolveColor p b => .unit (.resolveColor (p ++ b))
  | .expandToChannels c => .unit (.expandToChannels c)
  | .fbWrite px py r g b a => .unit (.fbWrite (px ++ (py ++ (r ++ (g ++ (b ++ a))))))
  | .tileRd i => .command (0x01 :: bytes24 i)
  | .tileWr i d => .command (0x02 :: (bytes24 i ++ [d]))
  | .sprRd i => .command (0x03 :: bytes24 i)
  | .sprWr i d => .command (0x04 :: (bytes24 i ++ bytes32 d))
  | .palRd i => .command (0x05 :: bytes24 i)
  | .palWr i d => .command (0x06 :: (bytes24 i ++ bytes16 d))
  | .mapRd i => .command (0x07 :: bytes24 i)
  | .mapWr i d => .command (0x08 :: (bytes24 i ++ [d]))
  | .setMapCell row col t p => .command (0x09 :: row :: col :: (bytes16 t ++ bytes16 p))
  | .putSprite slot t p x y m =>
    .command (0x0A :: (bytes24 slot ++ (bytes16 t ++ (bytes16 p ++ (bytes16 x ++ (bytes16 y ++ bytes16 m))))))
  | .renderFrame => .command [0x0B]
  | .fbRd a => .command (0x0C :: bytes24 a)
  | .statusRd => .command [0x0D]
  | .reset => .command [0x0E]

/-- How many operand bytes follow a command's code (R87: the sum of its operand widths). -/
def operandBytes (code : Nat) : Nat :=
  match code with
  | 0x01 => 3
  | 0x02 => 4
  | 0x03 => 3
  | 0x04 => 7
  | 0x05 => 3
  | 0x06 => 5
  | 0x07 => 3
  | 0x08 => 4
  | 0x09 => 6
  | 0x0A => 13
  | 0x0C => 3
  | _ => 0

/-- The bits of a table row, its operands beyond `nbits` all zero, in the format that `nbits` and the code tell. At 8
bits the formats M, U (the expander) and H cannot be told apart by their bits (R80): a command's code is read as that
command, every other byte as a map cell (log entry 8). -/
def tableEncoded (nbits w : Nat) : Option Encoded :=
  if nbits = 8 then
    if isCommandCode w then some (.command (BitVec.ofNat 8 w :: List.replicate (operandBytes w) 0))
    else some (.cell (BitVec.ofNat 8 w))
  else if nbits = 32 then some (.sprite (BitVec.ofNat 32 w))
  else if nbits = 14 ∨ nbits = 16 then some (.unit (.decodePixel (BitVec.ofNat 14 w)))
  else if nbits = 6 then some (.unit (.resolveColor (BitVec.ofNat 6 w)))
  else if nbits = 47 ∨ nbits = 48 then some (.unit (.fbWrite (BitVec.ofNat 47 w)))
  else none

/-- The instruction the decoder reads from a row's bits, under the default layout of R8 (log entry 8). -/
def decodeTableWord (nbits w : Nat) : Option Instr :=
  (tableEncoded nbits w).bind fun e => (decode Layout.default e).toOption

end Sys2Proof
end

