-- ==== Sys2Proof/Machine/Operands.lean ====
section
/-! DEFINITION. Operand assembly: the masking law of the packers (spec/00_scope.md R17), the packed operands of the
Mutation API (spec/30_encoding.md R94, R95), and the pixel coordinates (R93). -/

namespace Sys2Proof.Machine

/-- The byte `SET_MAP_CELL` stores: `tile_id` masked to 6 bits and `palette_id` to 2, packed (R94, R180). -/
def cellOperand (l : Layout) (tileId palId : BitVec 16) : Byte := packCell l (tileId.setWidth 6) (palId.setWidth 2)

/-- The word `PUT_SPRITE` stores: each field masked to its width, packed; the spare bit is 0 (R95, R181). -/
def spriteOperand (l : Layout) (tileId palId x y mode : BitVec 16) : Word :=
  packSprite l (tileId.setWidth 8) (palId.setWidth 5) (mode.setWidth 2) (x.setWidth 8) (y.setWidth 8)

/-- The row of the cell at map element `entry`, an integer quotient (R132). -/
def cellRow (s : State) (entry : Nat) : Nat := entry / s.cfg.cols

/-- The column of the cell at map element `entry`, an integer remainder (R132). -/
def cellCol (s : State) (entry : Nat) : Nat := entry % s.cfg.cols

/-- The framebuffer column of the current pixel: `8*col + lx` in the map pass, `x + lx` in the sprite pass, never reduced
(R93, R15). -/
def pixelX (s : State) : Nat :=
  match s.seq.phase with
  | .map => 8 * cellCol s s.seq.entry + s.seq.lx.toNat
  | _ => s.latch.x.toNat + s.seq.lx.toNat

/-- The framebuffer row of the current pixel: `8*row + ly` in the map pass, `y + ly` in the sprite pass, never reduced
(R93, R15). -/
def pixelY (s : State) : Nat :=
  match s.seq.phase with
  | .map => 8 * cellRow s s.seq.entry + s.seq.ly.toNat
  | _ => s.latch.y.toNat + s.seq.ly.toNat

/-- R139: a sprite's pixel of value `bit` is transparent when `((1 << bit) & mode) != 0`, that is when bit number `bit` of
the layer mode is set. -/
def transparent (mode : BitVec 2) (bit : BitVec 1) : Bool := (1#2 <<< bit.toNat) &&& mode != 0#2

/-- `setA`: 0 from the map pass, 1 from the sprite pass (R160). -/
def setsOpacity (s : State) : Bool :=
  match s.seq.phase with
  | .map => false
  | _ => true

/-- Whether the current pixel is skipped: there is no transparency in the map pass (R132), the rule of R139 in the sprite
pass. -/
def skipsPixel (s : State) (bit : BitVec 1) : Bool :=
  match s.seq.phase with
  | .map => false
  | _ => transparent s.latch.mode bit

end Sys2Proof.Machine
end

