-- ==== Sys2Proof/Machine/Units.lean ====
section
/-! DEFINITION. The units' operations as the compositor calls them, and their meanings as instructions:
`DECODE_PIXEL` (spec/40_tile_decoder.md R110), `RESOLVE_COLOR` and `EXPAND_TO_CHANNELS`
(spec/41_palette_resolver.md R120, R121), `FB_WRITE` (spec/43_framebuffer_writer.md R160, R161). -/

namespace Sys2Proof.Machine

/-- R110: `DecodePixel(tile_id, lx, ly)`: reads TILE element `tile_id * 8 + ly` and selects its bit `7 - lx`. -/
def decodePixel (s : State) (tileId : BitVec 8) (ly lx : BitVec 3) : Except Raise (BitVec 1) :=
  match tileRead s (tileId.toNat * 8 + ly.toNat) with
  | .ok row => .ok (row.extractLsb' (7 - lx.toNat) 1)
  | .error r => .error r

/-- R120: `ResolveColor(palette_id, bit)`: `(word >> (bit * 8)) & 0xFF` of the whole palette word. -/
def resolveColor (s : State) (palId : BitVec 5) (bit : BitVec 1) : Except Raise Byte :=
  match palRead s palId.toNat with
  | .ok word => .ok (word.extractLsb' (bit.toNat * 8) 8)
  | .error r => .error r

/-- The three channels of a colour. -/
structure Channels where
  r : Byte
  g : Byte
  b : Byte
  deriving DecidableEq, Repr

/-- R121: `Expand(c)`: the 3-3-2 fields shifted left by 5, 5 and 6, no bit replicated (90_conflicts.md C4). -/
def expand (c : Byte) : Channels :=
  { r := (c >>> 5) <<< 5, g := ((c >>> 2) &&& 0x7#8) <<< 5, b := (c &&& 0x3#8) <<< 6 }

/-- The bytes `FB_WRITE` stores at a pixel's address: red, green, blue, and the opacity byte 255 where `setA` (R160). -/
def storePixel (m : List Host.Cell) (a : Nat) (c : Channels) (setA : Bool) : List Host.Cell :=
  let colour := fbPut (fbPut (fbPut m a c.r) (a + 1) c.g) (a + 2) c.b
  if setA then fbPutOpaque colour (a + 3) else colour

/-- R160, R161: what `FbWrite(px, py, r, g, b, setA)` makes of the framebuffer: outside the surface nothing is stored and
nothing is recorded; the coordinates are checked separately and never wrap (R162). -/
def writePixel (cfg : Config) (m : List Host.Cell) (px py : Nat) (c : Channels) (setA : Bool) : List Host.Cell :=
  if cfg.width ≤ px ∨ cfg.height ≤ py then m else storePixel m (cfg.pixelAddr px py) c setA

/-- `FbWrite` on the machine's framebuffer (R160). -/
def fbWrite (s : State) (px py : Nat) (c : Channels) (setA : Bool) : State :=
  { s with fb := writePixel s.cfg s.fb px py c setA }

/-- A unit operation run on its own. In `FAULT` "the block stops" (R207): nothing happens (log entry 11). -/
def onUnit (s : State) (k : State → State) : State :=
  match s.seq.phase with
  | .fault => s
  | .idle => k s
  | .map => k s
  | .sprite => k s

/-- What a unit delivers, or the fault it raises, which is no host command's own access (R201; log entry 12). -/
def unitDelivers {α : Type} (s : State) (res : Except Raise α) (f : α → UnitResult) : State :=
  match res with
  | .ok v => { s with unitOut := f v }
  | .error r => enterFault s r false

/-- `DECODE_PIXEL` (R110). -/
def execDecodePixel (tileId : BitVec 8) (ly lx : BitVec 3) (s : State) : Host.Outcome State Fault Refusal :=
  .next (onUnit s fun s => unitDelivers s (decodePixel s tileId ly lx) .bit)

/-- `RESOLVE_COLOR` (R120). -/
def execResolveColor (palId : BitVec 5) (bit : BitVec 1) (s : State) : Host.Outcome State Fault Refusal :=
  .next (onUnit s fun s => unitDelivers s (resolveColor s palId bit) .color)

/-- `EXPAND_TO_CHANNELS` (R121). -/
def execExpandToChannels (c : BitVec 8) (s : State) : Host.Outcome State Fault Refusal :=
  .next (onUnit s fun s => { s with unitOut := .channels (expand c).r (expand c).g (expand c).b })

/-- `FB_WRITE` (R160). -/
def execFbWrite (px py : BitVec 11) (r g b : BitVec 8) (setA : BitVec 1) (s : State) :
    Host.Outcome State Fault Refusal :=
  .next (onUnit s fun s => fbWrite s px.toNat py.toNat { r := r, g := g, b := b } (setA == 1#1))

end Sys2Proof.Machine
end

