-- ==== Sys2Proof/Machine/Compositor.lean ====
section
/-! DEFINITION. The compositor (spec/42_compositor.md): the pixel step (R143) made of the pixel bodies of R132 and R139,
the run of an entry's pixels, and the five display-list instructions (R132, R135 to R138). A meaning runs a whole entry:
its 64 pixel steps (log entry 10). -/

namespace Sys2Proof.Machine

/-- A drawn pixel: resolve, expand, write (R132, R139). The palette read comes before the bounds check (R204). -/
def drawPixel (s : State) (bit : BitVec 1) : Except Raise State :=
  match resolveColor s s.latch.palId bit with
  | .ok c => .ok (fbWrite s (pixelX s) (pixelY s) (expand c) (setsOpacity s))
  | .error r => .error r

/-- R132, R139: the body of one pixel at the sequencer's position under the latched entry: tile read, transparency test,
palette read, framebuffer write, in this order (R204). -/
def pixelBody (s : State) : Except Raise State :=
  match decodePixel s s.latch.tileId s.seq.ly s.seq.lx with
  | .ok bit => if skipsPixel s bit then .ok s else drawPixel s bit
  | .error r => .error r

/-- R143: from the last pixel of an entry to the next entry, from phase MAP to SPRITE, and from the last slot to
completion. -/
def advanceEntry (s : State) : State :=
  match s.seq.phase with
  | .map =>
    if s.seq.entry + 1 < s.cfg.cellCount then { s with seq := { s.seq with entry := s.seq.entry + 1 } }
    else { s with seq := { s.seq with phase := .sprite, entry := 0 } }
  | .sprite =>
    if s.seq.entry + 1 < s.cfg.spriteCount then { s with seq := { s.seq with entry := s.seq.entry + 1 } }
    else completeFrame s
  | .idle => s
  | .fault => s

/-- R143: advance `lx`, carrying into `ly`, then into the entry. -/
def advancePixel (s : State) : State :=
  if s.seq.lx ≠ 7#3 then { s with seq := { s.seq with lx := s.seq.lx + 1 } }
  else if s.seq.ly ≠ 7#3 then { s with seq := { s.seq with ly := s.seq.ly + 1, lx := 0 } }
  else advanceEntry { s with seq := { s.seq with ly := 0, lx := 0 } }

/-- One pixel step of a frame in progress: the body, then the advance; a raise stops the sequence where it stands, with
`FHOST = 0` (R148 (d), R201, R207). -/
def pixelWork (s : State) : State :=
  match pixelBody s with
  | .ok t => advancePixel t
  | .error r => enterFault s r false

/-- R143: "The engine has a step exactly when `BUSY = 1`": in the phases MAP and SPRITE. -/
def pixelStep (s : State) : State :=
  match s.seq.phase with
  | .map => pixelWork s
  | .sprite => pixelWork s
  | .idle => s
  | .fault => s

/-- `n` pixel steps. A fault ends the work: in `FAULT` there is no further step (R14, R207). -/
def runPixels : Nat → State → State
  | 0, s => s
  | n + 1, s => runPixels n (pixelStep s)

/-- An entry's pixel loop from its first pixel: `ly` outer, `lx` inner, 64 pixels (R132, R139). -/
def runEntry (s : State) : State := runPixels 64 { s with seq := { s.seq with ly := 0, lx := 0 } }

/-- A map-pass instruction is executed by the sequencer in phase MAP and in no other (R29, R143; log entry 11). -/
def inMapPass (s : State) (k : State → State) : State :=
  match s.seq.phase with
  | .map => k s
  | .idle => s
  | .sprite => s
  | .fault => s

/-- A sprite-pass instruction is executed by the sequencer in phase SPRITE and in no other (R29, R143; log entry 11). -/
def inSpritePass (s : State) (k : State → State) : State :=
  match s.seq.phase with
  | .sprite => k s
  | .idle => s
  | .map => s
  | .fault => s

/-- R30: a map cell loads only `tile_id` and `palette_id`, zero-extended. -/
def latchCell (s : State) (tileId : BitVec 6) (palId : BitVec 2) : State :=
  { s with latch := { s.latch with tileId := tileId.setWidth 8, palId := palId.setWidth 5 } }

/-- R30: a sprite loads every latched field. -/
def latchSprite (s : State) (tileId : BitVec 8) (palId : BitVec 5) (mode : BitVec 2) (x y : BitVec 8) : State :=
  { s with latch := { tileId := tileId, palId := palId, mode := mode, x := x, y := y } }

/-- `SpritePixels` (R139). -/
def spritePixels (tileId : BitVec 8) (palId : BitVec 5) (mode : BitVec 2) (x y : BitVec 8) (s : State) : State :=
  inSpritePass s fun s => runEntry (latchSprite s tileId palId mode x y)

/-- `MAPCELL` (R132), at the sequencer's position. -/
def execMapcell (tileId : BitVec 6) (palId : BitVec 2) (s : State) : Host.Outcome State Fault Refusal :=
  .next (inMapPass s fun s => runEntry (latchCell s tileId palId))

/-- `SPR.OPAQUE` (R135). -/
def execSprOpaque (tileId : BitVec 8) (palId : BitVec 5) (x y : BitVec 8) (s : State) :
    Host.Outcome State Fault Refusal :=
  .next (spritePixels tileId palId 0b00#2 x y s)

/-- `SPR.BACK` (R136). -/
def execSprBack (tileId : BitVec 8) (palId : BitVec 5) (x y : BitVec 8) (s : State) :
    Host.Outcome State Fault Refusal :=
  .next (spritePixels tileId palId 0b01#2 x y s)

/-- `SPR.FRONT` (R137). -/
def execSprFront (tileId : BitVec 8) (palId : BitVec 5) (x y : BitVec 8) (s : State) :
    Host.Outcome State Fault Refusal :=
  .next (spritePixels tileId palId 0b10#2 x y s)

/-- `SPR.DISABLED` (R138): "one step that only advances `entry`" (R143); no tile and no palette is read. -/
def execSprDisabled (s : State) : Host.Outcome State Fault Refusal :=
  .next (inSpritePass s fun s => advanceEntry { s with seq := { s.seq with ly := 0, lx := 0 } })

end Sys2Proof.Machine
end

