-- ==== Sys2Proof/Machine/Commands.lean ====
section
/-! DEFINITION. The meanings of the fourteen host commands (spec/44_host_commands.md R172 to R185). -/

namespace Sys2Proof.Machine

/-- `TILE_RD idx` (R172). -/
def execTileRd (idx : BitVec 24) (s : State) : Host.Outcome State Fault Refusal :=
  .next (onCommand s fun s => hostRead s (tileRead s idx.toNat) .ok8)

/-- `TILE_WR idx, data` (R173). -/
def execTileWr (idx : BitVec 24) (data : BitVec 8) (s : State) : Host.Outcome State Fault Refusal :=
  .next (onCommand s fun s => hostWrite s (tileWrite s idx.toNat data))

/-- `SPR_RD slot` (R174). -/
def execSprRd (slot : BitVec 24) (s : State) : Host.Outcome State Fault Refusal :=
  .next (onCommand s fun s => hostRead s (sprRead s slot.toNat) .ok32)

/-- `SPR_WR slot, data` (R175): all 32 bits as given. -/
def execSprWr (slot : BitVec 24) (data : BitVec 32) (s : State) : Host.Outcome State Fault Refusal :=
  .next (onCommand s fun s => hostWrite s (sprWrite s slot.toNat data))

/-- `PAL_RD idx` (R176). -/
def execPalRd (idx : BitVec 24) (s : State) : Host.Outcome State Fault Refusal :=
  .next (onCommand s fun s => hostRead s (palRead s idx.toNat) .ok16)

/-- `PAL_WR idx, data` (R177). -/
def execPalWr (idx : BitVec 24) (data : BitVec 16) (s : State) : Host.Outcome State Fault Refusal :=
  .next (onCommand s fun s => hostWrite s (palWrite s idx.toNat data))

/-- `MAP_RD idx` (R178). -/
def execMapRd (idx : BitVec 24) (s : State) : Host.Outcome State Fault Refusal :=
  .next (onCommand s fun s => hostRead s (mapRead s idx.toNat) .ok8)

/-- `MAP_WR idx, data` (R179): the byte as given, no masking. -/
def execMapWr (idx : BitVec 24) (data : BitVec 8) (s : State) : Host.Outcome State Fault Refusal :=
  .next (onCommand s fun s => hostWrite s (mapWrite s idx.toNat data))

/-- `SET_MAP_CELL row, col, tile_id, palette_id` (R180): only the linear index is checked. -/
def execSetMapCell (row col : BitVec 8) (tileId palId : BitVec 16) (s : State) : Host.Outcome State Fault Refusal :=
  .next (onCommand s fun s =>
    hostWrite s (mapWrite s (s.cfg.cellIndex row.toNat col.toNat) (cellOperand s.cfg.layout tileId palId)))

/-- `PUT_SPRITE slot, tile_id, palette_id, x, y, layer_mode` (R181). -/
def execPutSprite (slot : BitVec 24) (tileId palId x y mode : BitVec 16) (s : State) :
    Host.Outcome State Fault Refusal :=
  .next (onCommand s fun s =>
    hostWrite s (sprWrite s slot.toNat (spriteOperand s.cfg.layout tileId palId x y mode)))

/-- `RENDER_FRAME` (R182): the frame is started; the engine then executes it, entry by entry, while the port is held, and
answers when it ends (R141, R143, R170; log entry 10). -/
def execRenderFrame (s : State) : Host.Outcome State Fault Refusal := .next (onCommand s startFrame)

/-- `FB_RD addr` (R183): an address out of range is refused, not a fault. -/
def execFbRd (addr : BitVec 24) (s : State) : Host.Outcome State Fault Refusal :=
  .next (onCommand s fun s =>
    if s.cfg.fbSize ≤ addr.toNat then respond s .refused else respond s (.ok8 (fbByte s addr.toNat)))

/-- `STATUS_RD` (R184): accepted in `IDLE` and in `FAULT`; reading clears nothing. -/
def execStatusRd (s : State) : Host.Outcome State Fault Refusal :=
  match s.seq.phase with
  | .idle => .next (respond s (.ok32 (statusWord s)))
  | .fault => .next (respond s (.ok32 (statusWord s)))
  | .map => .next s
  | .sprite => .next s

/-- `RESET` (R185): the reset event of R230, answered `OK`, accepted in every state. -/
def execReset (s : State) : Host.Outcome State Fault Refusal := .next (respond (resetEvent s) .ok)

end Sys2Proof.Machine
end

