-- ==== Sys2Proof/Machine/Dispatch.lean ====
section
/-! DEFINITION. exec: one arm per row of spec/opcode_table.json. -/

namespace Sys2Proof.Machine

def exec (i : Instr) (s : State) : Host.Outcome State Fault Refusal :=
  match i with
  -- the display list, spec/42_compositor.md
  | .mapcell tileId palId => Sys2Proof.Machine.execMapcell tileId palId s
  | .sprOpaque tileId palId x y => Sys2Proof.Machine.execSprOpaque tileId palId x y s
  | .sprBack tileId palId x y => Sys2Proof.Machine.execSprBack tileId palId x y s
  | .sprFront tileId palId x y => Sys2Proof.Machine.execSprFront tileId palId x y s
  | .sprDisabled => Sys2Proof.Machine.execSprDisabled s
  -- the unit operations, spec/40_tile_decoder.md, 41_palette_resolver.md, 43_framebuffer_writer.md
  | .decodePixel tileId ly lx => Sys2Proof.Machine.execDecodePixel tileId ly lx s
  | .resolveColor palId bit => Sys2Proof.Machine.execResolveColor palId bit s
  | .expandToChannels c => Sys2Proof.Machine.execExpandToChannels c s
  | .fbWrite px py r g b setA => Sys2Proof.Machine.execFbWrite px py r g b setA s
  -- the host commands, spec/44_host_commands.md
  | .tileRd idx => Sys2Proof.Machine.execTileRd idx s
  | .tileWr idx data => Sys2Proof.Machine.execTileWr idx data s
  | .sprRd slot => Sys2Proof.Machine.execSprRd slot s
  | .sprWr slot data => Sys2Proof.Machine.execSprWr slot data s
  | .palRd idx => Sys2Proof.Machine.execPalRd idx s
  | .palWr idx data => Sys2Proof.Machine.execPalWr idx data s
  | .mapRd idx => Sys2Proof.Machine.execMapRd idx s
  | .mapWr idx data => Sys2Proof.Machine.execMapWr idx data s
  | .setMapCell row col tileId palId => Sys2Proof.Machine.execSetMapCell row col tileId palId s
  | .putSprite slot tileId palId x y mode => Sys2Proof.Machine.execPutSprite slot tileId palId x y mode s
  | .renderFrame => Sys2Proof.Machine.execRenderFrame s
  | .fbRd addr => Sys2Proof.Machine.execFbRd addr s
  | .statusRd => Sys2Proof.Machine.execStatusRd s
  | .reset => Sys2Proof.Machine.execReset s

end Sys2Proof.Machine
end

