-- ==== Sys2Proof/Machine/Fetch.lean ====
section
/-! DEFINITION. Where the next instruction comes from: the display list while a frame is executing
(spec/42_compositor.md R131, R133, R134, R143), the host port while none is (spec/44_host_commands.md R170), an operand
bundle presented to a unit on its own (log entry 12), and the reset input before all (R230). -/

namespace Sys2Proof.Machine

/-- What a step finds to do. -/
inductive Fetched where
  /-- Nothing: the block is idle and the host offers no command. -/
  | nothing (s : State)
  /-- The fetch itself raised (never where the sequencer's position is inside the list: R201; log entry 13). -/
  | raised (r : Raise) (s : State)
  /-- An instruction's bits, and the state with that input taken. -/
  | item (e : Encoded) (s : State)
  deriving DecidableEq, Repr

/-- The reset input is asserted in this step (R230). -/
def resetAsserted (s : State) : Bool := s.resetIn.headD false

/-- The reset input's level for this step has been seen. -/
def clockReset (s : State) : State := { s with resetIn := s.resetIn.tail }

/-- R131: the map pass fetches the cell at the sequencer's entry. -/
def fetchCell (s : State) : Fetched :=
  match mapRead s s.seq.entry with
  | .ok b => .item (.cell b) s
  | .error r => .raised r s

/-- R134: the sprite pass fetches the whole word of the sequencer's slot. -/
def fetchSprite (s : State) : Fetched :=
  match sprRead s s.seq.entry with
  | .ok w => .item (.sprite w) s
  | .error r => .raised r s

/-- R170: the block takes the next command, if the host offers one. -/
def fetchCommand (s : State) : Fetched :=
  match s.port with
  | [] => .nothing s
  | c :: rest => .item (.command c) { s with port := rest }

/-- The sequencer's fetch by phase: the engine has a step exactly while a frame executes, the host exactly while none
does (R143). -/
def fetchByPhase (s : State) : Fetched :=
  match s.seq.phase with
  | .idle => fetchCommand s
  | .map => fetchCell s
  | .sprite => fetchSprite s
  | .fault => fetchCommand s

/-- The next instruction's bits. -/
def fetch (s : State) : Fetched :=
  match s.unitIn with
  | some u => .item (.unit u) { s with unitIn := none }
  | none => fetchByPhase s

/-- Lay an instruction's bits where `fetch` takes its next instruction: a cell or a sprite word into the display list at
the sequencer's position, the frame being at that entry; a bundle at its unit; a command record first on the port, no
frame being executed (log entry 9). -/
def placeNext (s : State) : Encoded → State
  | .unit u => { s with resetIn := [], unitIn := some u }
  | .cell b =>
    let t : State := { s with
      resetIn := [], unitIn := none, flags := { s.flags with busy := true, done := false, fault := false }
      finfo := FaultInfo.reset
      seq := if s.seq.phase = .map then s.seq else { phase := .map, entry := 0, ly := 0, lx := 0 } }
    memPut t (t.cfg.mapAddr t.seq.entry) b
  | .sprite w =>
    let t : State := { s with
      resetIn := [], unitIn := none, flags := { s.flags with busy := true, done := false, fault := false }
      finfo := FaultInfo.reset
      seq := if s.seq.phase = .sprite then s.seq else { phase := .sprite, entry := 0, ly := 0, lx := 0 } }
    memPutWord t (t.cfg.sprAddr t.seq.entry) w
  | .command c =>
    let t : State := { s with resetIn := [], unitIn := none, port := c :: s.port }
    match s.seq.phase with
    | .idle => t
    | .fault => t
    | .map => { t with flags := { s.flags with busy := false }, seq := { s.seq with phase := .idle } }
    | .sprite => { t with flags := { s.flags with busy := false }, seq := { s.seq with phase := .idle } }

end Sys2Proof.Machine
end

