-- ==== Sys2Proof/Machine/Step.lean ====
section
/-! DEFINITION. One step of the machine: the reset input first (R230), then the fetch, decode and execution of one
instruction, whichever agent is enabled (R143, R170). -/

namespace Sys2Proof.Machine

/-- One step. An asserted reset input is the reset event, in every state (R230, R143). Otherwise the instruction found by
`fetch` is decoded and executed; a record that decodes to no command is answered so (R171); where there is nothing to do
the block stays as it is (log entry 5). -/
def step (s : State) : Host.Outcome State Fault Refusal :=
  if resetAsserted s then .next (resetEvent (clockReset s))
  else
    match fetch (clockReset s) with
    | .nothing t => .next t
    | .raised r t => .next (enterFault t r false)
    | .item e t =>
      match decode t.cfg.layout e with
      | .ok i => exec i t
      | .error _ => .next (answerNotACommand t)

/-- `s` with the instruction whose table bits are `w` placed where `step` takes its next instruction (log entries 8
and 9). -/
def State.withFetchWord (s : State) (nbits w : Nat) : State :=
  match tableEncoded nbits w with
  | some e => placeNext s e
  | none => s

end Sys2Proof.Machine
end

