-- ==== Sys2Proof/Machine/Frame.lean ====
section
/-! DEFINITION. The frame as one function (spec/42_compositor.md R142): the big step of a frame, written without
the sequencer and its latches, from the pseudocode of R132, R134 and R139. `step` executes a frame entry by entry; that the
two agree is a statement of the model (Certificates/Slice0/Obligations.lean). -/

namespace Sys2Proof.Machine

/-- The 64 pixels `(ly, lx)` of a block in the order `ly` outer, `lx` inner (R132, R139). -/
def blockPixels : List (BitVec 3 × BitVec 3) :=
  (List.range 64).map fun k => (BitVec.ofNat 3 (k / 8), BitVec.ofNat 3 (k % 8))

/-- One pixel of `MapCell(entry)` (R132) on a framebuffer. -/
def cellPixel (s : State) (entry : Nat) (tileId : BitVec 8) (palId : BitVec 5) (fb : List Host.Cell)
    (k : BitVec 3 × BitVec 3) : Except Raise (List Host.Cell) :=
  match decodePixel s tileId k.1 k.2 with
  | .error r => .error r
  | .ok bit =>
    match resolveColor s palId bit with
    | .error r => .error r
    | .ok c =>
      .ok (writePixel s.cfg fb (8 * cellCol s entry + k.2.toNat) (8 * cellRow s entry + k.1.toNat) (expand c) false)

/-- `MapCell(entry)` (R132) on a framebuffer. -/
def frameCell (s : State) (fb : List Host.Cell) (entry : Nat) : Except Raise (List Host.Cell) :=
  match mapRead s entry with
  | .error r => .error r
  | .ok b =>
    blockPixels.foldlM
      (cellPixel s entry ((b.extractLsb' s.cfg.layout.mapTile 6).setWidth 8)
        ((b.extractLsb' s.cfg.layout.mapPal 2).setWidth 5)) fb

/-- One pixel of `SpritePixels` (R139) on a framebuffer. -/
def spritePixel (s : State) (tileId : BitVec 8) (palId : BitVec 5) (mode : BitVec 2) (x y : BitVec 8)
    (fb : List Host.Cell) (k : BitVec 3 × BitVec 3) : Except Raise (List Host.Cell) :=
  match decodePixel s tileId k.1 k.2 with
  | .error r => .error r
  | .ok bit =>
    if transparent mode bit then .ok fb
    else
      match resolveColor s palId bit with
      | .error r => .error r
      | .ok c => .ok (writePixel s.cfg fb (x.toNat + k.2.toNat) (y.toNat + k.1.toNat) (expand c) true)

/-- `SpriteEntry(slot)` (R134) on a framebuffer: the disabled check comes before the pixel loop. -/
def frameSprite (s : State) (fb : List Host.Cell) (slot : Nat) : Except Raise (List Host.Cell) :=
  match sprRead s slot with
  | .error r => .error r
  | .ok w =>
    if spriteMode s.cfg.layout w = 0b11#2 then .ok fb
    else
      blockPixels.foldlM
        (spritePixel s (w.extractLsb' s.cfg.layout.sprTile 8) (w.extractLsb' s.cfg.layout.sprPal 5)
          (spriteMode s.cfg.layout w) (w.extractLsb' s.cfg.layout.sprX 8) (w.extractLsb' s.cfg.layout.sprY 8)) fb

/-- `RenderFrame(MEM, FB)` (R142): the new framebuffer, or the first `OutOfRangeIndex` in this order. -/
def renderFrame (s : State) (fb : List Host.Cell) : Except Raise (List Host.Cell) :=
  match (List.range s.cfg.cellCount).foldlM (frameCell s) fb with
  | .error r => .error r
  | .ok fb' => (List.range s.cfg.spriteCount).foldlM (frameSprite s) fb'

end Sys2Proof.Machine
end

