-- ==== Sys2Proof/WellFormed.lean ====
section
/-! DEFINITION. What is well formed. An instruction's operands have exact widths as types, so every `Instr` is well
formed (spec/30_encoding.md R96: "every sprite word is exactly one instruction, and there is no illegal sprite word").
What can be ill-formed is the configuration: the constraints of spec/00_scope.md R6, R8 and R9. -/

namespace Sys2Proof

/-- Every term of `Instr` is an instruction of the spec: its operands cannot exceed their fields. -/
def Instr.WellFormed (_ : Instr) : Bool := true

/-- Two bit fields, given by their least significant bits and widths, do not overlap. -/
def fieldsApart (lo width lo' width' : Nat) : Bool := decide (lo + width ≤ lo') || decide (lo' + width' ≤ lo)

/-- Every field of the sprite word lies inside its 32 bits (R8, R83). -/
def Layout.spriteFits (l : Layout) : Bool :=
  decide (l.sprTile + 8 ≤ 32) && decide (l.sprPal + 5 ≤ 32) && decide (l.sprMode + 2 ≤ 32) &&
    decide (l.sprX + 8 ≤ 32) && decide (l.sprY + 8 ≤ 32)

/-- No two fields of the sprite word overlap (D6: "for any non-overlapping layout"). -/
def Layout.spriteApart (l : Layout) : Bool :=
  fieldsApart l.sprTile 8 l.sprPal 5 && fieldsApart l.sprTile 8 l.sprMode 2 && fieldsApart l.sprTile 8 l.sprX 8 &&
    fieldsApart l.sprTile 8 l.sprY 8 && fieldsApart l.sprPal 5 l.sprMode 2 && fieldsApart l.sprPal 5 l.sprX 8 &&
    fieldsApart l.sprPal 5 l.sprY 8 && fieldsApart l.sprMode 2 l.sprX 8 && fieldsApart l.sprMode 2 l.sprY 8 &&
    fieldsApart l.sprX 8 l.sprY 8

/-- The two fields of the map cell lie inside its 8 bits and do not overlap (R8, R84). -/
def Layout.cellFits (l : Layout) : Bool :=
  decide (l.mapTile + 6 ≤ 8) && decide (l.mapPal + 2 ≤ 8) && fieldsApart l.mapTile 6 l.mapPal 2

/-- A layout is well formed when its fields fit and do not overlap (log entry 14). -/
def Layout.WellFormed (l : Layout) : Bool := l.spriteFits && l.spriteApart && l.cellFits

/-- The constraints of R6 on the element counts. -/
def Config.countsFit (c : Config) : Bool :=
  decide (1 ≤ c.tileCount) && decide (c.tileCount ≤ 2 ^ 21) &&
    (decide (1 ≤ c.spriteCount) && decide (c.spriteCount ≤ 2 ^ 24)) &&
    (decide (1 ≤ c.paletteCount) && decide (c.paletteCount ≤ 2 ^ 24))

/-- The constraints of R6 on the grid. -/
def Config.gridFits (c : Config) : Bool :=
  decide (1 ≤ c.rows) && decide (c.rows ≤ 256) && (decide (1 ≤ c.cols) && decide (c.cols ≤ 256)) &&
    decide (c.rows * c.cols ≤ 2 ^ 24)

/-- `SEED` is "a sequence of exactly `MEM_SIZE` bytes" (R9). -/
def Config.seedFits (c : Config) : Bool := decide (c.seed.length = c.memSize)

/-- A configuration of the spec: R6, R8, R9. -/
def Config.WellFormed (c : Config) : Bool := c.countsFit && c.gridFits && c.layout.WellFormed && c.seedFits

end Sys2Proof
end

