-- ==== Sys2Proof/Safety.lean ====
section
/-! DEFINITION. What counts as a good state and a safe run, in the terms the statements use. -/

namespace Sys2Proof.Machine

/-- `n` steps of the machine. -/
def stepN : Nat → State → Host.Outcome State Fault Refusal
  | 0, s => .next s
  | n + 1, s =>
    match step s with
    | .next t => stepN n t
    | .fault r => .fault r
    | .refused r => .refused r

/-- The flags agree with the sequencer's phase (spec/10_state.md R31, spec/42_compositor.md R143): `BUSY` exactly while a
frame executes, `FAULT` exactly in phase FAULT, `DONE` only when idle. -/
abbrev FlagsMatch (s : State) : Prop :=
  (s.seq.phase = .idle → s.flags.busy = false ∧ s.flags.fault = false) ∧
    (s.seq.phase = .map ∨ s.seq.phase = .sprite → s.flags = { busy := true, done := false, fault := false }) ∧
    (s.seq.phase = .fault → s.flags = { busy := false, done := false, fault := true })

/-- The sequencer's position is inside the display list (R29). -/
abbrev PositionInList (s : State) : Prop :=
  (s.seq.phase = .map → s.seq.entry < s.cfg.cellCount) ∧ (s.seq.phase = .sprite → s.seq.entry < s.cfg.spriteCount)

/-- The fault record is 0 while there is no fault, and its cause is `OutOfRangeIndex` while there is one (R32). -/
abbrev FaultRecordMatches (s : State) : Prop :=
  if s.flags.fault then s.finfo.cause = 1#2 else s.finfo = FaultInfo.reset

/-- The invariant of the machine: a configuration of the spec (R6, R8, R9), both memories in canonical form and inside
their address spaces (R50), flags, position and fault record as R29, R31, R32 say. -/
abbrev Inv (s : State) : Prop :=
  s.cfg.WellFormed = true ∧ Memory.wf s.cfg s.mem ∧ FrameBuffer.wf s.cfg s.fb ∧ FlagsMatch s ∧ PositionInList s ∧
    FaultRecordMatches s

/-- The outside world asserts no reset, in this step or a coming one (log entry 5), and presents no unit bundle. -/
abbrev Quiet (s : State) : Prop := (∀ b ∈ s.resetIn, b = false) ∧ s.unitIn = none

/-- `t` is `s` after the fault entry of spec/60_exceptions.md R207 on `raise OutOfRangeIndex(view, index)`, written out
field by field: nothing else changes. -/
abbrev FaultedFrom (s t : State) (view : View) (index : Nat) (host : Bool) : Prop :=
  t = { s with
    flags := { busy := false, done := false, fault := true }
    finfo := { cause := 1#2, fview := view.code, fhost := host, findex := BitVec.ofNat 24 index }
    seq := { phase := .fault, entry := s.seq.entry, ly := s.seq.ly, lx := s.seq.lx }
    resp := .raised }

/-- The tile id that map cell `e` names (R89). -/
def cellTile (s : State) (e : Nat) : BitVec 6 := (memByte s (s.cfg.mapAddr e)).extractLsb' s.cfg.layout.mapTile 6

/-- The palette id that map cell `e` names (R89). -/
def cellPal (s : State) (e : Nat) : BitVec 2 := (memByte s (s.cfg.mapAddr e)).extractLsb' s.cfg.layout.mapPal 2

/-- The sprite word in slot `k`. -/
def slotWord (s : State) (k : Nat) : Word := memWord s (s.cfg.sprAddr k)

/-- Boot requirement 5 of spec/70_reset_and_hazards.md R233: every map cell and every enabled sprite names a tile and a
palette that exist. -/
abbrev NamesExist (s : State) : Prop :=
  (∀ e < s.cfg.cellCount, (cellTile s e).toNat < s.cfg.tileCount ∧ (cellPal s e).toNat < s.cfg.paletteCount) ∧
    ∀ k < s.cfg.spriteCount, spriteMode s.cfg.layout (slotWord s k) = 0b11#2 ∨
      (((slotWord s k).extractLsb' s.cfg.layout.sprTile 8).toNat < s.cfg.tileCount ∧
        ((slotWord s k).extractLsb' s.cfg.layout.sprPal 5).toNat < s.cfg.paletteCount)

/-- The pixel value of tile `t` at column `lx`, row `ly`: bit `7 - lx` of TILE element `8 * t + ly` (R81, R91). -/
def tileBit (s : State) (t : BitVec 8) (ly lx : BitVec 3) : BitVec 1 :=
  BitVec.ofBool ((memByte s (s.cfg.tileAddr (8 * t.toNat + ly.toNat))).getLsbD (7 - lx.toNat))

/-- The indexed colour that palette `p` holds for a pixel value: word bits [15:8] for 1, [7:0] for 0 (R82). -/
def paletteColor (s : State) (p : BitVec 5) (bit : BitVec 1) : Byte :=
  if bit = 1#1 then (memHalf s (s.cfg.palAddr p.toNat)).extractLsb' 8 8
  else (memHalf s (s.cfg.palAddr p.toNat)).extractLsb' 0 8

/-- The three colour bytes of the pixel at byte address `a` show the indexed colour `c` (R26, R121). -/
def ShowsColor (s : State) (a : Nat) (c : Byte) : Prop :=
  fbByte s a = (expand c).r ∧ fbByte s (a + 1) = (expand c).g ∧ fbByte s (a + 2) = (expand c).b

/-- The instruction is a host command (R87). -/
def isHostCommand : Instr → Bool
  | .mapcell _ _ => false
  | .sprOpaque _ _ _ _ => false
  | .sprBack _ _ _ _ => false
  | .sprFront _ _ _ _ => false
  | .sprDisabled => false
  | .decodePixel _ _ _ => false
  | .resolveColor _ _ => false
  | .expandToChannels _ => false
  | .fbWrite _ _ _ _ _ _ => false
  | .tileRd _ => true
  | .tileWr _ _ => true
  | .sprRd _ => true
  | .sprWr _ _ => true
  | .palRd _ => true
  | .palWr _ _ => true
  | .mapRd _ => true
  | .mapWr _ _ => true
  | .setMapCell _ _ _ _ => true
  | .putSprite _ _ _ _ _ _ => true
  | .renderFrame => true
  | .fbRd _ => true
  | .statusRd => true
  | .reset => true

/-- What the three drawing sprite instructions do (R135 to R137, R139) with layer mode `m`: every pixel of the tile that
mode bit number `bit` does not make transparent and that lands on the surface gets its palette colour and full opacity,
every other byte of the framebuffer is unchanged, the latches hold the entry's fields, and the sequencer goes on to the
next entry (or completes the frame). -/
def DrawsSprite (i : Instr) (m : BitVec 2) (t : BitVec 8) (p : BitVec 5) (x y : BitVec 8) (s : State) : Prop :=
  ∃ u, exec i s = .next u ∧
    u = advanceEntry { s with
      fb := u.fb, latch := { tileId := t, palId := p, mode := m, x := x, y := y }
      seq := { s.seq with ly := 0, lx := 0 } } ∧
    (∀ ly lx : BitVec 3, m.getLsbD (tileBit s t ly lx).toNat = false →
      x.toNat + lx.toNat < s.cfg.width → y.toNat + ly.toNat < s.cfg.height →
        ShowsColor u (s.cfg.pixelAddr (x.toNat + lx.toNat) (y.toNat + ly.toNat))
          (paletteColor s p (tileBit s t ly lx)) ∧
        fbByte u (s.cfg.pixelAddr (x.toNat + lx.toNat) (y.toNat + ly.toNat) + 3) = 255#8) ∧
    ∀ b, (∀ ly lx : BitVec 3, m.getLsbD (tileBit s t ly lx).toNat = false →
      x.toNat + lx.toNat < s.cfg.width → y.toNat + ly.toNat < s.cfg.height →
        b < s.cfg.pixelAddr (x.toNat + lx.toNat) (y.toNat + ly.toNat) ∨
          s.cfg.pixelAddr (x.toNat + lx.toNat) (y.toNat + ly.toNat) + 3 < b) → fbByte u b = fbByte s b

/-- A sprite instruction with layer mode `m` whose tile does not exist raises `OutOfRangeIndex(TILE, 8 * tile_id)` at its
first pixel (R201), with nothing drawn. -/
def RaisesTile (i : Instr) (m : BitVec 2) (t : BitVec 8) (p : BitVec 5) (x y : BitVec 8) (s : State) : Prop :=
  ∃ u, exec i s = .next u ∧
    FaultedFrom { s with
      latch := { tileId := t, palId := p, mode := m, x := x, y := y }
      seq := { s.seq with ly := 0, lx := 0 } } u .tile (8 * t.toNat) false

/-- A sprite instruction with layer mode `m` whose palette does not exist raises `OutOfRangeIndex(PAL, palette_id)` at its
first pixel that is not transparent, in the order `ly` outer, `lx` inner, with nothing drawn (R136, R137, R201, R205). -/
def RaisesPalette (i : Instr) (m : BitVec 2) (t : BitVec 8) (p : BitVec 5) (x y : BitVec 8) (s : State) : Prop :=
  ∃ (u : State) (ly lx : BitVec 3), exec i s = .next u ∧ m.getLsbD (tileBit s t ly lx).toNat = false ∧
    (∀ ly' lx' : BitVec 3, 8 * ly'.toNat + lx'.toNat < 8 * ly.toNat + lx.toNat →
      m.getLsbD (tileBit s t ly' lx').toNat = true) ∧
    FaultedFrom { s with
      latch := { tileId := t, palId := p, mode := m, x := x, y := y }
      seq := { s.seq with ly := ly, lx := lx } } u .pal p.toNat false

/-- `u` is `s` after a reset event (R230, R37): `MEM` holds `SEED`, every opacity byte is 255, the sequencer is idle, flags
and fault record are 0. Of the colour bytes nothing is said: they are unspecified. -/
def ResetFrom (s u : State) : Prop :=
  u.cfg = s.cfg ∧ (∀ a, memByte u a = s.cfg.seedByte a) ∧ (∀ k, fbByte u (4 * k + 3) = 255#8) ∧
    u.seq.phase = .idle ∧ u.flags = { busy := false, done := false, fault := false } ∧
    u.finfo = { cause := 0, fview := 0, fhost := false, findex := 0 } ∧
    u.presented = s.presented ∧ u.port = s.port

end Sys2Proof.Machine
end

