-- ==== Sys2Proof/Certificates/Slice0/Obligations.lean ====
section
/-! DEFINITION. The statements for the provers. Each docstring names the rule of spec/ it formalises. -/

open Sys2Proof Sys2Proof.Machine

/-! ### Encodings -/

/-- R83, R84, R87, R88: for every layout whose fields do not overlap (D6) and every instruction with every operand value,
decoding its encoding gives it back.
The byte layout of a command record is the model's choice (log entry 7). -/
def Obligations.DecodeOfEncodeIsTheInstruction : Prop :=
  ∀ l : Layout, l.WellFormed = true → ∀ i : Instr, decode l (encode l i) = .ok i

/-- R84, R89, R94: every byte is a map cell that packs back to itself; R90, R95, R98 (a): every sprite word that is not
disabled packs back to itself with the spare bit 8 cleared. -/
def Obligations.DisplayWordsPackBackUpToTheSpareBit : Prop :=
  (∀ b : Byte, encode Layout.default (decodeCell Layout.default b) = .cell b) ∧
  ∀ w : Word, w.extractLsb' 17 2 ≠ 0b11#2 →
    encode Layout.default (decodeSprite Layout.default w) = .sprite (w &&& 0xFFFFFEFF#32)

/-- R89, R90, R96: a map cell is always `MAPCELL`; a sprite word is exactly one of four instructions, by the masks and
matches of the opcode map. -/
def Obligations.EverySpriteWordIsOneOfFourInstructions : Prop :=
  (∀ b : Byte, decodeCell Layout.default b = .mapcell (b.extractLsb' 2 6) (b.extractLsb' 0 2)) ∧
  (∀ w : Word,
    (w &&& 0x00060000#32 = 0x00000000#32 ∧ decodeSprite Layout.default w =
      .sprOpaque (w.extractLsb' 24 8) (w.extractLsb' 19 5) (w.extractLsb' 9 8) (w.extractLsb' 0 8)) ∨
    (w &&& 0x00060000#32 = 0x00020000#32 ∧ decodeSprite Layout.default w =
      .sprBack (w.extractLsb' 24 8) (w.extractLsb' 19 5) (w.extractLsb' 9 8) (w.extractLsb' 0 8)) ∨
    (w &&& 0x00060000#32 = 0x00040000#32 ∧ decodeSprite Layout.default w =
      .sprFront (w.extractLsb' 24 8) (w.extractLsb' 19 5) (w.extractLsb' 9 8) (w.extractLsb' 0 8)) ∨
    (w &&& 0x00060000#32 = 0x00060000#32 ∧ decodeSprite Layout.default w = .sprDisabled)) ∧
  decodeSprite Layout.default 0x00000000#32 = .sprOpaque 0 0 0 0

/-- R87, R98 (b): codes 0x00 and 0x0F to 0xFF are not commands, whatever follows them; every other code with operand
bytes of its command's length is one.
The record's length is the model's choice (log entry 7). -/
def Obligations.OnlyTheFourteenCodesAreCommands : Prop :=
  ∀ (code : Byte) (ops : List Byte),
    (decodeCommand (code :: ops) = .error (.notACommand code) ↔ (code.toNat = 0 ∨ 0x0F ≤ code.toNat)) ∧
    (1 ≤ code.toNat → code.toNat ≤ 0x0E → ops.length = operandBytes code.toNat →
      ∃ i, decodeCommand (code :: ops) = .ok i)

/-- A few words written out from the spec's encodings (R83 to R88, spec/95_test_vectors.md V-E).
The byte order of a record is the model's choice (log entry 7). -/
def Obligations.SampleWordsDecode : Prop :=
  decode Layout.default (.cell 0x19#8) = .ok (.mapcell 6 1) ∧
  decode Layout.default (.sprite 0x04244028#32) = .ok (.sprFront 4 4 32 40) ∧
  decode Layout.default (.sprite 0x01120604#32) = .ok (.sprBack 1 2 3 4) ∧
  decode Layout.default (.sprite 0xC84E0000#32) = .ok .sprDisabled ∧
  decode Layout.default (.unit (.decodePixel 0b00000011101010#14)) = .ok (.decodePixel 3 5 2) ∧
  decode Layout.default (.command [0x06#8, 0x02#8, 0x00#8, 0x00#8, 0xA7#8, 0x03#8]) = .ok (.palWr 2 0x03A7) ∧
  decode Layout.default (.command [0x0B#8]) = .ok .renderFrame

/-- R94: the byte `SET_MAP_CELL` packs, as a number, and that decoding it returns the masked inputs. -/
def Obligations.PackedCellHoldsTheMaskedFields : Prop :=
  ∀ t p : BitVec 16,
    (cellOperand Layout.default t p).toNat = (t.toNat % 64) * 4 + p.toNat % 4 ∧
    decodeCell Layout.default (cellOperand Layout.default t p) = .mapcell (t.setWidth 6) (p.setWidth 2)

/-- R95: the word `PUT_SPRITE` packs, as a number; its bit 8 is 0, decoding it returns the masked inputs, and bit 8 of a
word does not change what it decodes to. -/
def Obligations.PackedSpriteHoldsTheMaskedFields : Prop :=
  (∀ t p x y m : BitVec 16,
    (spriteOperand Layout.default t p x y m).toNat =
      (t.toNat % 256) * 2 ^ 24 + (p.toNat % 32) * 2 ^ 19 + (m.toNat % 4) * 2 ^ 17 + (x.toNat % 256) * 2 ^ 9 +
        y.toNat % 256 ∧
    (spriteOperand Layout.default t p x y m).getLsbD 8 = false ∧
    (spriteOperand Layout.default t p x y m).extractLsb' 24 8 = t.setWidth 8 ∧
    (spriteOperand Layout.default t p x y m).extractLsb' 19 5 = p.setWidth 5 ∧
    (spriteOperand Layout.default t p x y m).extractLsb' 17 2 = m.setWidth 2 ∧
    (spriteOperand Layout.default t p x y m).extractLsb' 9 8 = x.setWidth 8 ∧
    (spriteOperand Layout.default t p x y m).extractLsb' 0 8 = y.setWidth 8) ∧
  ∀ w : Word, decodeSprite Layout.default (w ||| 0x00000100#32) = decodeSprite Layout.default w

/-! ### Memory -/

/-- R51, R52, R57, R69: for every configuration the four segments follow one another with no padding from address 0 to
`MEM_SIZE`, which is exactly the sum of their sizes; an element of a view is as wide as the view's width, distinct elements
have disjoint bytes inside `MEM`, and words and halfwords are naturally aligned. -/
def Obligations.ViewElementsAreDisjointAndAligned : Prop :=
  ∀ (c : Config) (i j k m : Nat),
    (c.tileAddr 0 = 0 ∧ c.tileAddr c.tileBytes = c.sprAddr 0 ∧ c.sprAddr c.spriteCount = c.palAddr 0 ∧
      c.palAddr c.paletteCount = c.mapAddr 0 ∧ c.mapAddr c.cellCount = c.memSize) ∧
    c.memSize = 8 * c.tileCount + 4 * c.spriteCount + 2 * c.paletteCount + c.rows * c.cols ∧
    (c.tileAddr (i + 1) = c.tileAddr i + 1 ∧ c.sprAddr (j + 1) = c.sprAddr j + 4 ∧
      c.palAddr (k + 1) = c.palAddr k + 2 ∧ c.mapAddr (m + 1) = c.mapAddr m + 1) ∧
    (i < c.tileBytes → j < c.spriteCount → c.tileAddr i + 1 ≤ c.sprAddr j) ∧
    (j < c.spriteCount → k < c.paletteCount → c.sprAddr j + 4 ≤ c.palAddr k) ∧
    (k < c.paletteCount → m < c.cellCount → c.palAddr k + 2 ≤ c.mapAddr m) ∧
    (i < c.tileBytes → c.tileAddr i < c.memSize) ∧ (j < c.spriteCount → c.sprAddr j + 4 ≤ c.memSize) ∧
    (k < c.paletteCount → c.palAddr k + 2 ≤ c.memSize) ∧ (m < c.cellCount → c.mapAddr m < c.memSize) ∧
    (i < j → c.tileAddr i + 1 ≤ c.tileAddr j ∧ c.sprAddr i + 4 ≤ c.sprAddr j ∧ c.palAddr i + 2 ≤ c.palAddr j ∧
      c.mapAddr i + 1 ≤ c.mapAddr j) ∧
    c.sprAddr j % 4 = 0 ∧ c.palAddr k % 2 = 0

/-- R54, R55, R69: what a checked write to the tile or the sprite view stores is what that element then reads, and no
other element of any view changes. -/
def Obligations.TileAndSpriteWritesAreReadBack : Prop :=
  (∀ (s t : State) (i : Nat) (v : Byte), tileWrite s i v = .ok t →
    tileRead t i = .ok v ∧ (∀ j, j ≠ i → tileRead t j = tileRead s j) ∧
    ∀ j, sprRead t j = sprRead s j ∧ palRead t j = palRead s j ∧ mapRead t j = mapRead s j) ∧
  ∀ (s t : State) (i : Nat) (v : Word), sprWrite s i v = .ok t →
    sprRead t i = .ok v ∧ (∀ j, j ≠ i → sprRead t j = sprRead s j) ∧
    ∀ j, tileRead t j = tileRead s j ∧ palRead t j = palRead s j ∧ mapRead t j = mapRead s j

/-- R54, R55, R69: the same for the palette and the map view. -/
def Obligations.PaletteAndMapWritesAreReadBack : Prop :=
  (∀ (s t : State) (i : Nat) (v : Half), palWrite s i v = .ok t →
    palRead t i = .ok v ∧ (∀ j, j ≠ i → palRead t j = palRead s j) ∧
    ∀ j, tileRead t j = tileRead s j ∧ sprRead t j = sprRead s j ∧ mapRead t j = mapRead s j) ∧
  ∀ (s t : State) (i : Nat) (v : Byte), mapWrite s i v = .ok t →
    mapRead t i = .ok v ∧ (∀ j, j ≠ i → mapRead t j = mapRead s j) ∧
    ∀ j, tileRead t j = tileRead s j ∧ sprRead t j = sprRead s j ∧ palRead t j = palRead s j

/-- R53: the halfword and word accesses of the flat image are little-endian. -/
def Obligations.FlatImageIsLittleEndian : Prop :=
  (∀ (s : State) (a : Nat), (memHalf s a).toNat = (memByte s a).toNat + 2 ^ 8 * (memByte s (a + 1)).toNat) ∧
  (∀ (s : State) (a : Nat), (memWord s a).toNat = (memByte s a).toNat + 2 ^ 8 * (memByte s (a + 1)).toNat +
    2 ^ 16 * (memByte s (a + 2)).toNat + 2 ^ 24 * (memByte s (a + 3)).toNat) ∧
  (∀ (s : State) (a b : Nat) (v : Half), memByte (memPutHalf s a v) b =
    if a ≤ b ∧ b < a + 2 then v.extractLsb' (8 * (b - a)) 8 else memByte s b) ∧
  ∀ (s : State) (a b : Nat) (v : Word), memByte (memPutWord s a v) b =
    if a ≤ b ∧ b < a + 4 then v.extractLsb' (8 * (b - a)) 8 else memByte s b

/-- R26, R62: the four bytes of a pixel of the surface lie inside the framebuffer, and distinct pixels have disjoint
bytes. -/
def Obligations.PixelsHaveTheirOwnFourBytes : Prop :=
  ∀ (c : Config) (px py qx qy : Nat), px < c.width → py < c.height → qx < c.width → qy < c.height →
    c.pixelAddr px py + 4 ≤ c.fbSize ∧ c.pixelAddr px py % 4 = 0 ∧
    ((px, py) ≠ (qx, qy) →
      c.pixelAddr px py + 4 ≤ c.pixelAddr qx qy ∨ c.pixelAddr qx qy + 4 ≤ c.pixelAddr px py)

/-! ### Unit operations -/

/-- R110, R120, R121: the units as functions of `MEM` and their operands: the pixel's bit, `OutOfRangeIndex(TILE, ..)`
exactly for a tile that does not exist; the palette's half, `OutOfRangeIndex(PAL, ..)` exactly for a palette that does not
exist; the shifted colour fields, never an exception. -/
def Obligations.UnitsDeliverOrRaise : Prop :=
  (∀ (s : State) (t : BitVec 8) (ly lx : BitVec 3),
    (t.toNat < s.cfg.tileCount → decodePixel s t ly lx = .ok (BitVec.ofNat 1
      ((memByte s (s.cfg.tileAddr (t.toNat * 8 + ly.toNat))).toNat >>> (7 - lx.toNat) % 2))) ∧
    (s.cfg.tileCount ≤ t.toNat → decodePixel s t ly lx = .error ⟨.tile, t.toNat * 8 + ly.toNat⟩)) ∧
  (∀ (s : State) (p : BitVec 5) (bit : BitVec 1),
    (p.toNat < s.cfg.paletteCount → resolveColor s p bit = .ok (BitVec.ofNat 8
      ((memHalf s (s.cfg.palAddr p.toNat)).toNat >>> (bit.toNat * 8) % 256))) ∧
    (s.cfg.paletteCount ≤ p.toNat → resolveColor s p bit = .error ⟨.pal, p.toNat⟩)) ∧
  ∀ c : Byte, (expand c).r.toNat = c.toNat / 32 * 32 ∧ (expand c).g.toNat = c.toNat / 4 % 8 * 32 ∧
    (expand c).b.toNat = c.toNat % 4 * 64

/-- R110: `DECODE_PIXEL` delivers bit `7 - lx` of TILE element `tile_id * 8 + ly` and changes nothing else; where the tile
does not exist it raises `OutOfRangeIndex(TILE, tile_id * 8 + ly)`.
Where a unit run on its own delivers, and `FHOST = 0` for it, is the model's choice (log
entry 12). -/
def Obligations.DecodePixelDeliversTheTilesBit : Prop :=
  ∀ (s : State) (t : BitVec 8) (ly lx : BitVec 3), s.seq.phase ≠ .fault →
    (t.toNat < s.cfg.tileCount → exec (.decodePixel t ly lx) s = .next { s with
      unitOut := .bit (BitVec.ofNat 1
        ((memByte s (s.cfg.tileAddr (t.toNat * 8 + ly.toNat))).toNat >>> (7 - lx.toNat))) }) ∧
    (s.cfg.tileCount ≤ t.toNat → ∃ u, exec (.decodePixel t ly lx) s = .next u ∧
      FaultedFrom s u .tile (t.toNat * 8 + ly.toNat) false)

/-- R120: `RESOLVE_COLOR` delivers `(word >> (bit * 8)) & 0xFF` of the whole palette word and changes nothing else; where
the palette does not exist it raises `OutOfRangeIndex(PAL, palette_id)`.
Delivery and `FHOST = 0` as in log entry 12. -/
def Obligations.ResolveColorDeliversThePalettesHalf : Prop :=
  ∀ (s : State) (p : BitVec 5) (bit : BitVec 1), s.seq.phase ≠ .fault →
    (p.toNat < s.cfg.paletteCount → exec (.resolveColor p bit) s = .next { s with
      unitOut := .color (BitVec.ofNat 8
        ((memHalf s (s.cfg.palAddr p.toNat)).toNat >>> (bit.toNat * 8) % 256)) }) ∧
    (s.cfg.paletteCount ≤ p.toNat → ∃ u, exec (.resolveColor p bit) s = .next u ∧
      FaultedFrom s u .pal p.toNat false)

/-- R121: `EXPAND_TO_CHANNELS` delivers the 3-3-2 fields shifted left by 5, 5 and 6 and changes nothing else.
Delivery as in log entry 12. -/
def Obligations.ExpandDeliversTheShiftedFields : Prop :=
  ∀ (s : State) (c : BitVec 8), s.seq.phase ≠ .fault →
    exec (.expandToChannels c) s = .next { s with
      unitOut := .channels (BitVec.ofNat 8 (c.toNat / 32 * 32)) (BitVec.ofNat 8 (c.toNat / 4 % 8 * 32))
        (BitVec.ofNat 8 (c.toNat % 4 * 64)) }

/-- R123: the channels' value sets, and that the colour is recovered from its channels. -/
def Obligations.ExpandedColoursAreRecovered : Prop :=
  ∀ c : Byte, (expand c).r.toNat % 32 = 0 ∧ (expand c).g.toNat % 32 = 0 ∧ (expand c).b.toNat % 64 = 0 ∧
    c = ((expand c).r >>> 5) <<< 5 ||| ((expand c).g >>> 5) <<< 2 ||| (expand c).b >>> 6

/-- R160, R161: `FB_WRITE` stores the three colour bytes of one pixel, and 255 in its opacity byte exactly when `setA` is
1; no other byte of the framebuffer and nothing else changes; outside the surface it changes nothing.
Run on its own as in log entry 12. -/
def Obligations.FbWriteStoresOnePixelOrNothing : Prop :=
  ∀ (s : State) (px py : BitVec 11) (r g b : BitVec 8) (setA : BitVec 1), s.seq.phase ≠ .fault →
    ∃ u, exec (.fbWrite px py r g b setA) s = .next u ∧ u = { s with fb := u.fb } ∧
      (s.cfg.width ≤ px.toNat ∨ s.cfg.height ≤ py.toNat → u.fb = s.fb) ∧
      (px.toNat < s.cfg.width → py.toNat < s.cfg.height →
        fbByte u (s.cfg.pixelAddr px.toNat py.toNat) = r ∧ fbByte u (s.cfg.pixelAddr px.toNat py.toNat + 1) = g ∧
        fbByte u (s.cfg.pixelAddr px.toNat py.toNat + 2) = b ∧
        fbByte u (s.cfg.pixelAddr px.toNat py.toNat + 3) =
          (if setA = 1#1 then 255#8 else fbByte s (s.cfg.pixelAddr px.toNat py.toNat + 3)) ∧
        ∀ a, a < s.cfg.pixelAddr px.toNat py.toNat ∨ s.cfg.pixelAddr px.toNat py.toNat + 3 < a →
          fbByte u a = fbByte s a)

/-- R112: after `TILE_WR 8*t + ly, v`, `DECODE_PIXEL` of that row returns `v[7 - lx]` for every `lx`.
Delivery as in log entry 12. -/
def Obligations.WrittenTileRowIsDecodedBack : Prop :=
  ∀ (s : State) (t : BitVec 8) (ly lx : BitVec 3) (v : BitVec 8), s.seq.phase = .idle → t.toNat < s.cfg.tileCount →
    ∃ u, exec (.tileWr (BitVec.ofNat 24 (8 * t.toNat + ly.toNat)) v) s = .next u ∧
      exec (.decodePixel t ly lx) u = .next { u with unitOut := .bit (BitVec.ofBool (v.getLsbD (7 - lx.toNat))) }

/-- R122: after `PAL_WR p, v`, `PAL_RD p` returns `v`, and `RESOLVE_COLOR` returns its halves.
Delivery as in log entry 12. -/
def Obligations.WrittenPaletteIsResolvedBack : Prop :=
  ∀ (s : State) (p : BitVec 5) (v : BitVec 16), s.seq.phase = .idle → p.toNat < s.cfg.paletteCount →
    ∃ u, exec (.palWr (p.setWidth 24) v) s = .next u ∧
      exec (.palRd (p.setWidth 24)) u = .next { u with resp := .ok16 v } ∧
      exec (.resolveColor p 0#1) u = .next { u with unitOut := .color (v.extractLsb' 0 8) } ∧
      exec (.resolveColor p 1#1) u = .next { u with unitOut := .color (v.extractLsb' 8 8) }

/-! ### The display list -/

/-- R204: the checks of one pixel, in order: tile read, transparency test (none in the map pass), palette read, and only
then the bounds check inside the framebuffer writer. -/
def Obligations.PixelChecksComeInOrder : Prop :=
  ∀ s : State, s.seq.phase = .map ∨ s.seq.phase = .sprite →
    (s.cfg.tileCount ≤ s.latch.tileId.toNat →
      pixelBody s = .error ⟨.tile, s.latch.tileId.toNat * 8 + s.seq.ly.toNat⟩) ∧
    (s.latch.tileId.toNat < s.cfg.tileCount →
      (s.seq.phase = .sprite → s.latch.mode.getLsbD (tileBit s s.latch.tileId s.seq.ly s.seq.lx).toNat = true →
        pixelBody s = .ok s) ∧
      (s.seq.phase = .map ∨ s.latch.mode.getLsbD (tileBit s s.latch.tileId s.seq.ly s.seq.lx).toNat = false →
        (s.cfg.paletteCount ≤ s.latch.palId.toNat → pixelBody s = .error ⟨.pal, s.latch.palId.toNat⟩) ∧
        (s.latch.palId.toNat < s.cfg.paletteCount →
          ∃ t, pixelBody s = .ok t ∧ t = { s with fb := t.fb } ∧
            (s.cfg.width ≤ pixelX s ∨ s.cfg.height ≤ pixelY s → t.fb = s.fb))))

/-- R132: `MAPCELL` at its entry: the block of 64 pixels shows the palette's colours of the tile's bits, no other byte
(no opacity byte) changes, the sequencer goes to the next cell or to the first slot; a tile, then a palette, that does not
exist raises at the first pixel.
The registers of the fault entry are the spec's decision D13. -/
def Obligations.MapcellPaintsItsBlock : Prop :=
  ∀ (s : State) (t : BitVec 6) (p : BitVec 2), s.seq.phase = .map → s.seq.entry < s.cfg.cellCount →
    (t.toNat < s.cfg.tileCount → p.toNat < s.cfg.paletteCount →
      ∃ u, exec (.mapcell t p) s = .next u ∧
        u = { s with
          fb := u.fb, latch := { s.latch with tileId := t.setWidth 8, palId := p.setWidth 5 }
          seq := if s.seq.entry + 1 < s.cfg.cellCount then
            { phase := .map, entry := s.seq.entry + 1, ly := 0, lx := 0 }
            else { phase := .sprite, entry := 0, ly := 0, lx := 0 } } ∧
        (∀ ly lx : BitVec 3, ShowsColor u
          (s.cfg.pixelAddr (8 * (s.seq.entry % s.cfg.cols) + lx.toNat) (8 * (s.seq.entry / s.cfg.cols) + ly.toNat))
          (paletteColor s (p.setWidth 5) (tileBit s (t.setWidth 8) ly lx))) ∧
        ∀ b, (∀ (ly lx : BitVec 3) (c : Nat), c < 3 → b ≠
          s.cfg.pixelAddr (8 * (s.seq.entry % s.cfg.cols) + lx.toNat) (8 * (s.seq.entry / s.cfg.cols) + ly.toNat) + c) →
          fbByte u b = fbByte s b) ∧
    (s.cfg.tileCount ≤ t.toNat → ∃ u, exec (.mapcell t p) s = .next u ∧
      FaultedFrom { s with
        latch := { s.latch with tileId := t.setWidth 8, palId := p.setWidth 5 }
        seq := { s.seq with ly := 0, lx := 0 } } u .tile (8 * t.toNat) false) ∧
    (t.toNat < s.cfg.tileCount → s.cfg.paletteCount ≤ p.toNat → ∃ u, exec (.mapcell t p) s = .next u ∧
      FaultedFrom { s with
        latch := { s.latch with tileId := t.setWidth 8, palId := p.setWidth 5 }
        seq := { s.seq with ly := 0, lx := 0 } } u .pal p.toNat false)

/-- R135: `SPR.OPAQUE` at its slot draws every pixel of its block that is on the surface, colour and opacity; a tile, then
a palette, that does not exist raises at the first pixel.
Where SEQ stands after the last slot, in `IDLE`, is the model's choice (log entry 4). -/
def Obligations.OpaqueSpriteDrawsItsBlock : Prop :=
  ∀ (s : State) (t : BitVec 8) (p : BitVec 5) (x y : BitVec 8), s.seq.phase = .sprite →
    (s.cfg.tileCount ≤ t.toNat → RaisesTile (.sprOpaque t p x y) 0b00#2 t p x y s) ∧
    (t.toNat < s.cfg.tileCount →
      (p.toNat < s.cfg.paletteCount → DrawsSprite (.sprOpaque t p x y) 0b00#2 t p x y s) ∧
      (s.cfg.paletteCount ≤ p.toNat → RaisesPalette (.sprOpaque t p x y) 0b00#2 t p x y s))

/-- R136: `SPR.BACK` at its slot draws the pixels whose bit is 1; a palette that does not exist raises at the first of
them, and never where the tile has no 1 bit.
Where SEQ stands after the last slot, in `IDLE`, is the model's choice (log entry 4). -/
def Obligations.BackSpriteDrawsItsOnes : Prop :=
  ∀ (s : State) (t : BitVec 8) (p : BitVec 5) (x y : BitVec 8), s.seq.phase = .sprite →
    (s.cfg.tileCount ≤ t.toNat → RaisesTile (.sprBack t p x y) 0b01#2 t p x y s) ∧
    (t.toNat < s.cfg.tileCount →
      (p.toNat < s.cfg.paletteCount ∨ (∀ ly lx : BitVec 3, tileBit s t ly lx = 0#1) →
        DrawsSprite (.sprBack t p x y) 0b01#2 t p x y s) ∧
      (s.cfg.paletteCount ≤ p.toNat → (∃ ly lx : BitVec 3, tileBit s t ly lx = 1#1) →
        RaisesPalette (.sprBack t p x y) 0b01#2 t p x y s))

/-- R137: `SPR.FRONT` at its slot draws the pixels whose bit is 0; a palette that does not exist raises at the first of
them, and never where the tile has no 0 bit.
Where SEQ stands after the last slot, in `IDLE`, is the model's choice (log entry 4). -/
def Obligations.FrontSpriteDrawsItsZeros : Prop :=
  ∀ (s : State) (t : BitVec 8) (p : BitVec 5) (x y : BitVec 8), s.seq.phase = .sprite →
    (s.cfg.tileCount ≤ t.toNat → RaisesTile (.sprFront t p x y) 0b10#2 t p x y s) ∧
    (t.toNat < s.cfg.tileCount →
      (p.toNat < s.cfg.paletteCount ∨ (∀ ly lx : BitVec 3, tileBit s t ly lx = 1#1) →
        DrawsSprite (.sprFront t p x y) 0b10#2 t p x y s) ∧
      (s.cfg.paletteCount ≤ p.toNat → (∃ ly lx : BitVec 3, tileBit s t ly lx = 0#1) →
        RaisesPalette (.sprFront t p x y) 0b10#2 t p x y s))

/-- R138: `SPR.DISABLED` reads no tile and no palette, writes nothing, raises nothing: it only advances.
That it leaves LATCH as it was, and where SEQ stands after the last slot, in `IDLE`, are the model's choices (log entry 4). -/
def Obligations.DisabledSpriteOnlyAdvances : Prop :=
  ∀ s : State, s.seq.phase = .sprite →
    ∃ u, exec .sprDisabled s = .next u ∧ u = advanceEntry { s with seq := { s.seq with ly := 0, lx := 0 } } ∧
      u.fb = s.fb ∧ u.mem = s.mem ∧ u.latch = s.latch ∧ u.finfo = s.finfo ∧ u.flags.fault = s.flags.fault ∧
      (u.seq.phase = .sprite ∨ u.seq.phase = .idle)

/-- R131, R133, R141: the order of entries, and completion: after the last cell the first slot, after the last slot
`BUSY <- 0`, `DONE <- 1`, `IDLE`, one `PRESENT`, and the answer `OK`.
That SEQ's position keeps the last slot's number in `IDLE`, where R29 gives it no meaning, is the model's choice (log entry
4), as is that the answer `OK` comes then (log entry 6). -/
def Obligations.EntriesFollowInStorageOrder : Prop :=
  ∀ s : State,
    (s.seq.phase = .map → advanceEntry s = { s with
      seq := if s.seq.entry + 1 < s.cfg.cellCount then { s.seq with entry := s.seq.entry + 1 }
        else { s.seq with phase := .sprite, entry := 0 } }) ∧
    (s.seq.phase = .sprite → s.seq.entry + 1 < s.cfg.spriteCount →
      advanceEntry s = { s with seq := { s.seq with entry := s.seq.entry + 1 } }) ∧
    (s.seq.phase = .sprite → s.cfg.spriteCount ≤ s.seq.entry + 1 →
      advanceEntry s = { s with
        flags := { s.flags with busy := false, done := true }
        seq := { s.seq with phase := .idle }, presented := s.presented + 1, resp := .ok })

/-! ### Host commands -/

/-- R172, R173: `TILE_RD` and `TILE_WR` in `IDLE`. -/
def Obligations.TileCommandsReadAndStore : Prop :=
  ∀ (s : State) (idx : BitVec 24) (d : BitVec 8), s.seq.phase = .idle →
    (idx.toNat < s.cfg.tileBytes →
      exec (.tileRd idx) s = .next { s with resp := .ok8 (memByte s (s.cfg.tileAddr idx.toNat)) } ∧
      ∃ u, exec (.tileWr idx d) s = .next u ∧ u = { s with mem := u.mem, resp := .ok } ∧
        ∀ b, memByte u b = if b = s.cfg.tileAddr idx.toNat then d else memByte s b) ∧
    (s.cfg.tileBytes ≤ idx.toNat →
      (∃ u, exec (.tileRd idx) s = .next u ∧ FaultedFrom s u .tile idx.toNat true) ∧
      ∃ u, exec (.tileWr idx d) s = .next u ∧ FaultedFrom s u .tile idx.toNat true)

/-- R174, R175: `SPR_RD` and `SPR_WR` in `IDLE`: all 32 bits, bit 8 included. -/
def Obligations.SpriteCommandsReadAndStore : Prop :=
  ∀ (s : State) (slot : BitVec 24) (d : BitVec 32), s.seq.phase = .idle →
    (slot.toNat < s.cfg.spriteCount →
      exec (.sprRd slot) s = .next { s with resp := .ok32 (memWord s (s.cfg.sprAddr slot.toNat)) } ∧
      ∃ u, exec (.sprWr slot d) s = .next u ∧ u = { s with mem := u.mem, resp := .ok } ∧
        memWord u (s.cfg.sprAddr slot.toNat) = d ∧
        ∀ b, b < s.cfg.sprAddr slot.toNat ∨ s.cfg.sprAddr slot.toNat + 4 ≤ b → memByte u b = memByte s b) ∧
    (s.cfg.spriteCount ≤ slot.toNat →
      (∃ u, exec (.sprRd slot) s = .next u ∧ FaultedFrom s u .spr slot.toNat true) ∧
      ∃ u, exec (.sprWr slot d) s = .next u ∧ FaultedFrom s u .spr slot.toNat true)

/-- R176, R177: `PAL_RD` and `PAL_WR` in `IDLE`: the whole word. -/
def Obligations.PaletteCommandsReadAndStore : Prop :=
  ∀ (s : State) (idx : BitVec 24) (d : BitVec 16), s.seq.phase = .idle →
    (idx.toNat < s.cfg.paletteCount →
      exec (.palRd idx) s = .next { s with resp := .ok16 (memHalf s (s.cfg.palAddr idx.toNat)) } ∧
      ∃ u, exec (.palWr idx d) s = .next u ∧ u = { s with mem := u.mem, resp := .ok } ∧
        memHalf u (s.cfg.palAddr idx.toNat) = d ∧
        ∀ b, b < s.cfg.palAddr idx.toNat ∨ s.cfg.palAddr idx.toNat + 2 ≤ b → memByte u b = memByte s b) ∧
    (s.cfg.paletteCount ≤ idx.toNat →
      (∃ u, exec (.palRd idx) s = .next u ∧ FaultedFrom s u .pal idx.toNat true) ∧
      ∃ u, exec (.palWr idx d) s = .next u ∧ FaultedFrom s u .pal idx.toNat true)

/-- R178, R179: `MAP_RD` and `MAP_WR` in `IDLE`: the byte as given, no masking. -/
def Obligations.MapCommandsReadAndStore : Prop :=
  ∀ (s : State) (idx : BitVec 24) (d : BitVec 8), s.seq.phase = .idle →
    (idx.toNat < s.cfg.cellCount →
      exec (.mapRd idx) s = .next { s with resp := .ok8 (memByte s (s.cfg.mapAddr idx.toNat)) } ∧
      ∃ u, exec (.mapWr idx d) s = .next u ∧ u = { s with mem := u.mem, resp := .ok } ∧
        ∀ b, memByte u b = if b = s.cfg.mapAddr idx.toNat then d else memByte s b) ∧
    (s.cfg.cellCount ≤ idx.toNat →
      (∃ u, exec (.mapRd idx) s = .next u ∧ FaultedFrom s u .map idx.toNat true) ∧
      ∃ u, exec (.mapWr idx d) s = .next u ∧ FaultedFrom s u .map idx.toNat true)

/-- R180: `SET_MAP_CELL` in `IDLE` stores the packed masked byte at the linear index `row * COLS + col`, and only that
index is checked. -/
def Obligations.SetMapCellStoresThePackedByte : Prop :=
  ∀ (s : State) (row col : BitVec 8) (t p : BitVec 16), s.seq.phase = .idle →
    (row.toNat * s.cfg.cols + col.toNat < s.cfg.rows * s.cfg.cols →
      ∃ u, exec (.setMapCell row col t p) s = .next u ∧ u = { s with mem := u.mem, resp := .ok } ∧
        ∀ b, memByte u b = if b = s.cfg.mapAddr (row.toNat * s.cfg.cols + col.toNat) then
          packCell s.cfg.layout (t.setWidth 6) (p.setWidth 2) else memByte s b) ∧
    (s.cfg.rows * s.cfg.cols ≤ row.toNat * s.cfg.cols + col.toNat →
      ∃ u, exec (.setMapCell row col t p) s = .next u ∧
        FaultedFrom s u .map (row.toNat * s.cfg.cols + col.toNat) true)

/-- R181: `PUT_SPRITE` in `IDLE` stores the packed masked word at `slot`, and only `slot` is checked. -/
def Obligations.PutSpriteStoresThePackedWord : Prop :=
  ∀ (s : State) (slot : BitVec 24) (t p x y m : BitVec 16), s.seq.phase = .idle →
    (slot.toNat < s.cfg.spriteCount →
      ∃ u, exec (.putSprite slot t p x y m) s = .next u ∧ u = { s with mem := u.mem, resp := .ok } ∧
        memWord u (s.cfg.sprAddr slot.toNat) = packSprite s.cfg.layout (t.setWidth 8) (p.setWidth 5) (m.setWidth 2)
          (x.setWidth 8) (y.setWidth 8) ∧
        ∀ b, b < s.cfg.sprAddr slot.toNat ∨ s.cfg.sprAddr slot.toNat + 4 ≤ b → memByte u b = memByte s b) ∧
    (s.cfg.spriteCount ≤ slot.toNat →
      ∃ u, exec (.putSprite slot t p x y m) s = .next u ∧ FaultedFrom s u .spr slot.toNat true)

/-- R183: `FB_RD` in `IDLE` answers the byte, or `REFUSED` out of range, and changes nothing. -/
def Obligations.FbRdAnswersTheByteOrRefuses : Prop :=
  ∀ (s : State) (addr : BitVec 24), s.seq.phase = .idle →
    (addr.toNat < s.cfg.width * s.cfg.height * 4 →
      exec (.fbRd addr) s = .next { s with resp := .ok8 (fbByte s addr.toNat) }) ∧
    (s.cfg.width * s.cfg.height * 4 ≤ addr.toNat → exec (.fbRd addr) s = .next { s with resp := .refused })

/-- R184, R32: `STATUS_RD` in `IDLE` and in `FAULT` answers the register, laid out as R32 says, and changes nothing; where
the flags agree with the phase it never reads `BUSY` as 1. -/
def Obligations.StatusRdAnswersTheRegister : Prop :=
  ∀ s : State, s.seq.phase = .idle ∨ s.seq.phase = .fault →
    ∃ w : Word, exec .statusRd s = .next { s with resp := .ok32 w } ∧
      w.getLsbD 0 = s.flags.busy ∧ w.getLsbD 1 = s.flags.done ∧ w.getLsbD 2 = s.flags.fault ∧
      w.extractLsb' 3 2 = s.finfo.fview ∧ w.extractLsb' 5 2 = s.finfo.cause ∧ w.getLsbD 7 = s.finfo.fhost ∧
      w.extractLsb' 8 24 = s.finfo.findex ∧ (FlagsMatch s → w.getLsbD 0 = false)

/-- R185, R230, R37: the reset event, by the `RESET` command in every state (answered `OK`) and by the reset input in every
state, also during a frame.
That the tally of past frames and the inputs stay is the model's choice (log entry 15). -/
def Obligations.ResetPutsEveryPieceOfStateBack : Prop :=
  ∀ s : State,
    (∃ u, exec .reset s = .next u ∧ u.resp = .ok ∧ ResetFrom s u) ∧
    (∀ rest, s.resetIn = true :: rest → ∃ u, step s = .next u ∧ u.resetIn = rest ∧ u.resp = .none ∧ ResetFrom s u)

/-- R182: `RENDER_FRAME` in `IDLE`: `DONE <- 0`, `BUSY <- 1`, the sequencer at the first map cell; `MEM`, `FB` and all else
as they were. That its answer waits for the end of the frame is the model's choice (log entry 6). -/
def Obligations.RenderFrameStartsAFrame : Prop :=
  ∀ s : State, s.seq.phase = .idle → exec .renderFrame s = .next { s with
    flags := { s.flags with busy := true, done := false }
    seq := { phase := .map, entry := 0, ly := 0, lx := 0 }, resp := .none }

/-- R182: `RENDER_FRAME` in `IDLE` starts the frame at map element 0 with `BUSY` set and `DONE` cleared, `MEM` and `FB`
untouched; when every name in the display list exists the frame then completes, one entry a step, and is answered `OK`.
One entry a step, and the answer at
the frame's end, are the model's choices (log entries 10 and 6).
No reset is asserted meanwhile and no bundle stands at a unit (`Quiet`; log entries 5 and 12). -/
def Obligations.RenderFrameCompletesWhenNamesExist : Prop :=
  ∀ s : State, Inv s → Quiet s → s.seq.phase = .idle → NamesExist s →
    ∃ a t, exec .renderFrame s = .next a ∧
      a = { s with
        flags := { busy := true, done := false, fault := false }
        seq := { phase := .map, entry := 0, ly := 0, lx := 0 }, resp := .none } ∧
      stepN (s.cfg.cellCount + s.cfg.spriteCount) a = .next t ∧
      t.seq.phase = .idle ∧ t.flags = { busy := false, done := true, fault := false } ∧ t.resp = .ok ∧
      t.presented = s.presented + 1 ∧ t.mem = s.mem ∧ t.finfo = s.finfo ∧ t.cfg = s.cfg ∧ t.port = s.port ∧
      t.epoch = s.epoch ∧ t.unitOut = s.unitOut

/-- R171: in `FAULT` every command but `RESET` and `STATUS_RD` is answered `FAULTED` and changes no state. -/
def Obligations.FaultStateAnswersFaulted : Prop :=
  ∀ (i : Instr) (s : State), isHostCommand i = true → i ≠ .statusRd → i ≠ .reset → s.seq.phase = .fault →
    exec i s = .next { s with resp := .faulted }

/-- R171, R187: a record that is not a command is answered `REFUSED` in `IDLE` and `FAULTED` in `FAULT`, and changes no
state.
That a record of a wrong length is no command is the model's choice (log entry 7); the reset input is low in this step, its
level listed or past the end of the list (log entry 5). -/
def Obligations.NonCommandIsAnsweredAndChangesNothing : Prop :=
  ∀ (s : State) (c : List Byte) (rest : List (List Byte)) (e : DecodeError),
    s.resetIn.headD false = false → s.unitIn = none → s.port = c :: rest → decodeCommand c = .error e →
    (s.seq.phase = .idle →
      step s = .next { s with resetIn := s.resetIn.tail, port := rest, resp := .refused }) ∧
    (s.seq.phase = .fault →
      step s = .next { s with resetIn := s.resetIn.tail, port := rest, resp := .faulted })

/-! ### The whole machine -/

/-- What a step does: under an asserted reset input the reset event; under a low one (a level listed as low, or past the end
of the list) the instruction decoded from a bundle at a unit; else, by the sequencer's phase, from the cell or the slot at
its entry in the display list, or from the next command on the port (a record that is no command is
`NonCommandIsAnsweredAndChangesNothing`). Around `exec` a step only passes the reset input's level and takes the input it
has fetched.
The inputs are the model's form of the host and of the reset input (log entries 5, 10, 12). -/
def Obligations.StepRunsTheDecodedInstruction : Prop :=
  ∀ s : State,
    (s.resetIn.headD false = true → step s = .next (resetEvent { s with resetIn := s.resetIn.tail })) ∧
    (s.resetIn.headD false = false →
      (∀ u, s.unitIn = some u →
        step s = exec (decodeUnit u) { s with resetIn := s.resetIn.tail, unitIn := none }) ∧
      (s.unitIn = none → s.seq.phase = .map → s.seq.entry < s.cfg.cellCount →
        step s = exec (decodeCell s.cfg.layout (memByte s (s.cfg.mapAddr s.seq.entry)))
          { s with resetIn := s.resetIn.tail }) ∧
      (s.unitIn = none → s.seq.phase = .sprite → s.seq.entry < s.cfg.spriteCount →
        step s = exec (decodeSprite s.cfg.layout (memWord s (s.cfg.sprAddr s.seq.entry)))
          { s with resetIn := s.resetIn.tail }) ∧
      (s.unitIn = none → s.seq.phase = .idle ∨ s.seq.phase = .fault →
        (s.port = [] → step s = .next { s with resetIn := s.resetIn.tail }) ∧
        ∀ c cs i, s.port = c :: cs → decodeCommand c = .ok i →
          step s = exec i { s with resetIn := s.resetIn.tail, port := cs }))

/-- The machine right after reset has the invariant, in every configuration of the spec (R37, R6, R8, R9). -/
def Obligations.ResetHasTheInvariant : Prop :=
  (∀ c : Config, c.WellFormed = true → Inv (State.resetWith c)) ∧ Inv State.reset

/-- Every step keeps the invariant: both memories canonical and inside their address spaces, the flags, the position and
the fault record as R29, R31 and R32 say. -/
def Obligations.EveryStepKeepsTheInvariant : Prop :=
  ∀ s t : State, Inv s → step s = .next t → Inv t

/-- spec/93_implementation_defined.md: "Nothing in the block is `stuck` by omission: every command in every state has a
listed outcome": a step never stops the machine, in any state. -/
def Obligations.EveryStepHasANextState : Prop :=
  ∀ s : State, ∃ t, step s = .next t

/-- R231, R36: the configuration never changes. -/
def Obligations.NoStepChangesTheConfiguration : Prop :=
  ∀ s t : State, step s = .next t → t.cfg = s.cfg

/-- R146: no display-list entry and no unit operation writes `MEM`, completed or faulted. -/
def Obligations.TheEngineNeverWritesMem : Prop :=
  ∀ (i : Instr) (s t : State), isHostCommand i = false → exec i s = .next t → t.mem = s.mem

/-- R22 to R25: each view is written only by its own commands and by reset. -/
def Obligations.EachViewHasItsOwnWriters : Prop :=
  ∀ (i : Instr) (s t : State), exec i s = .next t → i ≠ .reset →
    (∀ j, tileRead t j ≠ tileRead s j → ∃ idx d, i = .tileWr idx d ∧ idx.toNat = j) ∧
    (∀ j, sprRead t j ≠ sprRead s j → (∃ d, i = .sprWr (BitVec.ofNat 24 j) d) ∨
      ∃ n p x y m, i = .putSprite (BitVec.ofNat 24 j) n p x y m) ∧
    (∀ j, palRead t j ≠ palRead s j → ∃ d, i = .palWr (BitVec.ofNat 24 j) d) ∧
    (∀ j, mapRead t j ≠ mapRead s j → (∃ d, i = .mapWr (BitVec.ofNat 24 j) d) ∨
      ∃ row col n p, i = .setMapCell row col n p ∧ j = row.toNat * s.cfg.cols + col.toNat)

/-- R26, R186, R237: no host command but `RESET` changes a byte of the framebuffer. -/
def Obligations.HostCommandsLeaveTheFramebuffer : Prop :=
  ∀ (i : Instr) (s t : State), isHostCommand i = true → i ≠ .reset → exec i s = .next t →
    ∀ a, fbByte t a = fbByte s a

/-- R170, R143: while a frame is executing a command is neither taken nor lost: the port is as it was.
The port as a list is the model's choice (log entry 5). -/
def Obligations.CommandsAreHeldWhileAFrameExecutes : Prop :=
  ∀ s t : State, s.seq.phase = .map ∨ s.seq.phase = .sprite → step s = .next t → t.port = s.port

/-- R208, R31: without a reset the block stays in `FAULT`, its fault record, flags, memory and framebuffer as they were:
the only way out is the reset input or the `RESET` command.
The inputs are the model's form (log entries 5 and 12). -/
def Obligations.FaultHoldsUntilReset : Prop :=
  ∀ s t : State, s.seq.phase = .fault → s.resetIn.headD false = false →
    (∀ c cs, s.port = c :: cs → decodeCommand c ≠ .ok .reset) → step s = .next t →
    t.seq = s.seq ∧ t.finfo = s.finfo ∧ t.flags = s.flags ∧ t.mem = s.mem ∧ t.fb = s.fb ∧ t.epoch = s.epoch ∧
      t.presented = s.presented ∧ t.latch = s.latch

/-- R27: the opacity byte of every pixel is 255 in every state with the invariant, so at all times from reset onward. -/
def Obligations.OpacityIsAlwaysFull : Prop :=
  ∀ s : State, Inv s → (∀ k, fbByte s (4 * k + 3) = 255#8) ∧
    ∀ t, step s = .next t → ∀ k, fbByte t (4 * k + 3) = 255#8

/-- R31: `BUSY` and `FAULT` are never 1 together, nor `BUSY` and `DONE`; and R32: the fault fields are 0 while `FAULT` is
0. -/
def Obligations.StatusCombinationsThatNeverOccur : Prop :=
  ∀ s : State, Inv s → ¬ (s.flags.busy = true ∧ s.flags.fault = true) ∧
    ¬ (s.flags.busy = true ∧ s.flags.done = true) ∧
    (s.flags.fault = false → s.finfo = { cause := 0, fview := 0, fhost := false, findex := 0 }) ∧
    (s.flags.fault = true → s.finfo.cause = 1#2)

/-- R142, R143: the frame executed entry by entry is the frame as a function: it completes with the function's framebuffer,
or faults with the function's first `OutOfRangeIndex`.
One entry a step is the model's choice (log entry 10).
No reset is asserted meanwhile and no bundle stands at a unit (`Quiet`; log entries 5 and 12). -/
def Obligations.FrameStepsComputeTheFrameFunction : Prop :=
  ∀ s a : State, Inv s → Quiet s → s.seq.phase = .idle → exec .renderFrame s = .next a →
    (∀ fb, renderFrame s s.fb = .ok fb →
      ∃ t, stepN (s.cfg.cellCount + s.cfg.spriteCount) a = .next t ∧ t.fb = fb ∧ t.seq.phase = .idle ∧
        t.flags = { busy := false, done := true, fault := false } ∧ t.presented = s.presented + 1 ∧ t.resp = .ok ∧
        t.mem = s.mem) ∧
    (∀ r, renderFrame s s.fb = .error r →
      ∃ k t, k ≤ s.cfg.cellCount + s.cfg.spriteCount ∧ stepN k a = .next t ∧ t.seq.phase = .fault ∧
        t.flags = { busy := false, done := false, fault := true } ∧
        t.finfo = { cause := 1#2, fview := r.view.code, fhost := false, findex := BitVec.ofNat 24 r.index } ∧
        t.presented = s.presented ∧ t.resp = .raised ∧ t.mem = s.mem)

/-- R144: after a frame that completes, every colour byte is a function of `MEM` alone: two frames over the same memory,
from any two framebuffers, leave the same colour bytes, all of them written. -/
def Obligations.CompletedFrameRepaintsEveryColourByte : Prop :=
  ∀ (s : State) (f g f' g' : List Host.Cell), renderFrame s f = .ok f' → renderFrame s g = .ok g' →
    ∀ b, b < s.cfg.fbSize → b % 4 ≠ 3 →
      cellLookup f' b = cellLookup g' b ∧ (cellLookup f' b).isSome = true

/-- R145: a `RENDER_FRAME` that completes, issued again with no write between, completes and leaves the framebuffer byte
for byte as it was.
One entry a step is the model's choice (log entry 10).
No reset is asserted meanwhile and no bundle stands at a unit (`Quiet`; log entries 5 and 12). -/
def Obligations.RenderingTwiceIsBitIdentical : Prop :=
  ∀ s a t b : State, Inv s → Quiet s → s.port = [] → s.seq.phase = .idle →
    exec .renderFrame s = .next a → stepN (s.cfg.cellCount + s.cfg.spriteCount) a = .next t → t.flags.done = true →
    exec .renderFrame t = .next b →
      ∃ u, stepN (s.cfg.cellCount + s.cfg.spriteCount) b = .next u ∧ u.fb = t.fb ∧ u.flags.done = true ∧
        u.seq.phase = .idle
end

