-- ==== Sys2Proof/Laws/Cells.lean ====
section
/-! SUPPORT. The laws of the cell lists behind both memories: what a lookup reads after an insertion or a removal, that
every operation keeps the addresses rising, and that two rising lists with the same lookups are equal. -/

namespace Sys2Proof.Machine

@[simp] theorem cellLookup_nil (a : Nat) : cellLookup [] a = none := rfl

theorem cellLookup_cons (c : Host.Cell) (m : List Host.Cell) (a : Nat) :
    cellLookup (c :: m) a = if c.1 = a then some c.2 else cellLookup m a := rfl

@[simp] theorem cellLookup_insert_same (m : List Host.Cell) (a : Nat) (v : Byte) :
    cellLookup (cellInsert m a v) a = some v := by
  induction m with
  | nil => simp [cellInsert, cellLookup]
  | cons c m ih =>
    simp only [cellInsert]
    split_ifs <;> simp_all [cellLookup]

theorem cellLookup_insert_other (m : List Host.Cell) {a b : Nat} (v : Byte) (h : b ≠ a) :
    cellLookup (cellInsert m a v) b = cellLookup m b := by
  induction m with
  | nil => simp [cellInsert, cellLookup, h.symm]
  | cons c m ih =>
    simp only [cellInsert]
    split_ifs with h1 h2
    · simp [cellLookup, h.symm]
    · subst h2; simp [cellLookup, h.symm]
    · simp [cellLookup, ih]

theorem cellLookup_insert (m : List Host.Cell) (a b : Nat) (v : Byte) :
    cellLookup (cellInsert m a v) b = if b = a then some v else cellLookup m b := by
  by_cases h : b = a
  · subst h; simp
  · simp [cellLookup_insert_other m v h, h]

theorem cellLookup_erase (m : List Host.Cell) (a b : Nat) :
    cellLookup (cellErase m a) b = if b = a then none else cellLookup m b := by
  induction m with
  | nil => simp [cellErase]
  | cons c m ih =>
    simp only [cellErase]
    split_ifs with h1 h2 h2
    · rw [ih, if_pos h2]
    · subst h1; simp [ih, h2, cellLookup, Ne.symm h2]
    · subst h2; simp [cellLookup, ih, h1]
    · simp [cellLookup, ih, h2]

/-- What a stored byte reads as, and that no other byte changes, where an unlisted address reads as `d a`. -/
theorem cellPut_read (d : Nat → Byte) (m : List Host.Cell) (a b : Nat) (v : Byte) :
    (cellLookup (cellPut (d a) m a v) b).getD (d b) = if b = a then v else (cellLookup m b).getD (d b) := by
  unfold cellPut
  split_ifs with h1 h2 h2
  · subst h2; simp [cellLookup_erase, h1]
  · simp [cellLookup_erase, h2]
  · subst h2; simp
  · simp [cellLookup_insert, h2]

theorem mem_cellInsert {m : List Host.Cell} {a : Nat} {v : Byte} {e : Host.Cell} (h : e ∈ cellInsert m a v) :
    e = (a, v) ∨ e ∈ m := by
  induction m with
  | nil => simpa [cellInsert] using h
  | cons c m ih =>
    simp only [cellInsert] at h
    split_ifs at h with h1 h2
    · simpa using h
    · rcases List.mem_cons.1 h with h | h
      · exact .inl h
      · exact .inr (List.mem_cons_of_mem _ h)
    · rcases List.mem_cons.1 h with h | h
      · exact .inr (by simp [h])
      · exact (ih h).imp id (List.mem_cons_of_mem _)

theorem mem_cellErase {m : List Host.Cell} {a : Nat} {e : Host.Cell} (h : e ∈ cellErase m a) : e ∈ m := by
  induction m with
  | nil => simp [cellErase] at h
  | cons c m ih =>
    simp only [cellErase] at h
    split_ifs at h with h1
    · exact List.mem_cons_of_mem _ (ih h)
    · rcases List.mem_cons.1 h with h | h
      · simp [h]
      · exact List.mem_cons_of_mem _ (ih h)

theorem cellsRise_insert {m : List Host.Cell} (h : cellsRise m) (a : Nat) (v : Byte) : cellsRise (cellInsert m a v) := by
  induction m with
  | nil => simp [cellsRise, cellInsert]
  | cons c m ih =>
    simp only [cellsRise, List.pairwise_cons] at h
    obtain ⟨hc, hm⟩ := h
    simp only [cellInsert]
    split_ifs with h1 h2
    · refine List.pairwise_cons.2 ⟨fun e he => ?_, List.pairwise_cons.2 ⟨hc, hm⟩⟩
      rcases List.mem_cons.1 he with rfl | he
      · exact h1
      · exact lt_trans h1 (hc e he)
    · exact List.pairwise_cons.2 ⟨fun e he => by simpa [← h2] using hc e he, hm⟩
    · refine List.pairwise_cons.2 ⟨fun e he => ?_, ih hm⟩
      rcases mem_cellInsert he with rfl | he
      · simp only; omega
      · exact hc e he

theorem cellsRise_erase {m : List Host.Cell} (h : cellsRise m) (a : Nat) : cellsRise (cellErase m a) := by
  induction m with
  | nil => simp [cellsRise, cellErase]
  | cons c m ih =>
    simp only [cellsRise, List.pairwise_cons] at h
    simp only [cellErase]
    split_ifs
    · exact ih h.2
    · exact List.pairwise_cons.2 ⟨fun e he => h.1 e (mem_cellErase he), ih h.2⟩

theorem cellErase_ne {m : List Host.Cell} {a : Nat} {e : Host.Cell} (h : e ∈ cellErase m a) : e.1 ≠ a := by
  induction m with
  | nil => simp [cellErase] at h
  | cons c m ih =>
    simp only [cellErase] at h
    split_ifs at h with h1
    · exact ih h
    · rcases List.mem_cons.1 h with rfl | h
      · exact h1
      · exact ih h

theorem cellsRise_put {m : List Host.Cell} (h : cellsRise m) (d : Byte) (a : Nat) (v : Byte) :
    cellsRise (cellPut d m a v) := by
  unfold cellPut
  split_ifs
  · exact cellsRise_erase h a
  · exact cellsRise_insert h a v

theorem mem_cellPut {d : Byte} {m : List Host.Cell} {a : Nat} {v : Byte} {e : Host.Cell} (h : e ∈ cellPut d m a v) :
    (e = (a, v) ∧ v ≠ d) ∨ e ∈ m := by
  unfold cellPut at h
  split_ifs at h with hv
  · exact .inr (mem_cellErase h)
  · exact (mem_cellInsert h).imp (fun he => ⟨he, hv⟩) id

/-- Below the first address of a rising list nothing is listed. -/
theorem cellLookup_eq_none_of_lt {c : Host.Cell} {m : List Host.Cell} (h : cellsRise (c :: m)) {a : Nat} (ha : a ≤ c.1) :
    cellLookup m a = none := by
  simp only [cellsRise, List.pairwise_cons] at h
  obtain ⟨h1, h2⟩ := h
  induction m with
  | nil => rfl
  | cons e m ih =>
    have he := h1 e (by simp)
    simp only [cellLookup, if_neg (show ¬ e.1 = a by omega)]
    exact ih (fun x hx => h1 x (by simp [hx])) (List.pairwise_cons.1 h2).2

/-- Canonical lists are determined by what they read. -/
theorem cells_ext {m n : List Host.Cell} (hm : cellsRise m) (hn : cellsRise n)
    (h : ∀ a, cellLookup m a = cellLookup n a) : m = n := by
  induction m generalizing n with
  | nil =>
    cases n with
    | nil => rfl
    | cons d n => have := h d.1; simp [cellLookup] at this
  | cons c m ih =>
    cases n with
    | nil => have := h c.1; simp [cellLookup] at this
    | cons d n =>
      have hcd : c.1 = d.1 := by
        rcases lt_trichotomy c.1 d.1 with hlt | heq | hgt
        · have := h c.1
          simp [cellLookup, show ¬ d.1 = c.1 by omega, cellLookup_eq_none_of_lt hn (show c.1 ≤ d.1 by omega)] at this
        · exact heq
        · have := h d.1
          simp [cellLookup, show ¬ c.1 = d.1 by omega, cellLookup_eq_none_of_lt hm (show d.1 ≤ c.1 by omega)] at this
      have hv : c.2 = d.2 := by have := h c.1; simpa [cellLookup, hcd] using this
      have hcd' : c = d := Prod.ext hcd hv
      subst hcd'
      refine congrArg (c :: ·) (ih (List.pairwise_cons.1 hm).2 (List.pairwise_cons.1 hn).2 fun a => ?_)
      by_cases ha : c.1 = a
      · subst ha
        rw [cellLookup_eq_none_of_lt hm le_rfl, cellLookup_eq_none_of_lt hn le_rfl]
      · have := h a
        simpa [cellLookup, ha] using this

end Sys2Proof.Machine
end

