-- ==== Sys2Proof/Laws/State.lean ====
section
/-! SUPPORT. One lemma per field of `State` per named update, each true by definition: later proofs read a field through an
update without unfolding it. -/

namespace Sys2Proof.Machine

/-! ### `respond` -/

@[simp] theorem respond_cfg (s : State) (r : Response) : (respond s r).cfg = s.cfg := rfl
@[simp] theorem respond_mem (s : State) (r : Response) : (respond s r).mem = s.mem := rfl
@[simp] theorem respond_fb (s : State) (r : Response) : (respond s r).fb = s.fb := rfl
@[simp] theorem respond_seq (s : State) (r : Response) : (respond s r).seq = s.seq := rfl
@[simp] theorem respond_latch (s : State) (r : Response) : (respond s r).latch = s.latch := rfl
@[simp] theorem respond_flags (s : State) (r : Response) : (respond s r).flags = s.flags := rfl
@[simp] theorem respond_finfo (s : State) (r : Response) : (respond s r).finfo = s.finfo := rfl
@[simp] theorem respond_resp (s : State) (r : Response) : (respond s r).resp = r := rfl
@[simp] theorem respond_presented (s : State) (r : Response) : (respond s r).presented = s.presented := rfl
@[simp] theorem respond_unitOut (s : State) (r : Response) : (respond s r).unitOut = s.unitOut := rfl
@[simp] theorem respond_port (s : State) (r : Response) : (respond s r).port = s.port := rfl
@[simp] theorem respond_resetIn (s : State) (r : Response) : (respond s r).resetIn = s.resetIn := rfl
@[simp] theorem respond_unitIn (s : State) (r : Response) : (respond s r).unitIn = s.unitIn := rfl
@[simp] theorem respond_epoch (s : State) (r : Response) : (respond s r).epoch = s.epoch := rfl

/-! ### `enterFault` -/

@[simp] theorem enterFault_cfg (s : State) (r : Raise) (h : Bool) : (enterFault s r h).cfg = s.cfg := rfl
@[simp] theorem enterFault_mem (s : State) (r : Raise) (h : Bool) : (enterFault s r h).mem = s.mem := rfl
@[simp] theorem enterFault_fb (s : State) (r : Raise) (h : Bool) : (enterFault s r h).fb = s.fb := rfl
@[simp] theorem enterFault_seq (s : State) (r : Raise) (h : Bool) : (enterFault s r h).seq = { s.seq with phase := .fault } := rfl
@[simp] theorem enterFault_latch (s : State) (r : Raise) (h : Bool) : (enterFault s r h).latch = s.latch := rfl
@[simp] theorem enterFault_flags (s : State) (r : Raise) (h : Bool) : (enterFault s r h).flags = { busy := false, done := false, fault := true } := rfl
@[simp] theorem enterFault_finfo (s : State) (r : Raise) (h : Bool) : (enterFault s r h).finfo = { cause := 1, fview := r.view.code, fhost := h, findex := BitVec.ofNat 24 r.index } := rfl
@[simp] theorem enterFault_resp (s : State) (r : Raise) (h : Bool) : (enterFault s r h).resp = .raised := rfl
@[simp] theorem enterFault_presented (s : State) (r : Raise) (h : Bool) : (enterFault s r h).presented = s.presented := rfl
@[simp] theorem enterFault_unitOut (s : State) (r : Raise) (h : Bool) : (enterFault s r h).unitOut = s.unitOut := rfl
@[simp] theorem enterFault_port (s : State) (r : Raise) (h : Bool) : (enterFault s r h).port = s.port := rfl
@[simp] theorem enterFault_resetIn (s : State) (r : Raise) (h : Bool) : (enterFault s r h).resetIn = s.resetIn := rfl
@[simp] theorem enterFault_unitIn (s : State) (r : Raise) (h : Bool) : (enterFault s r h).unitIn = s.unitIn := rfl
@[simp] theorem enterFault_epoch (s : State) (r : Raise) (h : Bool) : (enterFault s r h).epoch = s.epoch := rfl

/-! ### `resetEvent` -/

@[simp] theorem resetEvent_cfg (s : State) : (resetEvent s).cfg = s.cfg := rfl
@[simp] theorem resetEvent_mem (s : State) : (resetEvent s).mem = [] := rfl
@[simp] theorem resetEvent_fb (s : State) : (resetEvent s).fb = [] := rfl
@[simp] theorem resetEvent_seq (s : State) : (resetEvent s).seq = Seq.reset := rfl
@[simp] theorem resetEvent_latch (s : State) : (resetEvent s).latch = Latch.reset := rfl
@[simp] theorem resetEvent_flags (s : State) : (resetEvent s).flags = Flags.reset := rfl
@[simp] theorem resetEvent_finfo (s : State) : (resetEvent s).finfo = FaultInfo.reset := rfl
@[simp] theorem resetEvent_resp (s : State) : (resetEvent s).resp = .none := rfl
@[simp] theorem resetEvent_presented (s : State) : (resetEvent s).presented = s.presented := rfl
@[simp] theorem resetEvent_unitOut (s : State) : (resetEvent s).unitOut = .none := rfl
@[simp] theorem resetEvent_port (s : State) : (resetEvent s).port = s.port := rfl
@[simp] theorem resetEvent_resetIn (s : State) : (resetEvent s).resetIn = s.resetIn := rfl
@[simp] theorem resetEvent_unitIn (s : State) : (resetEvent s).unitIn = none := rfl
@[simp] theorem resetEvent_epoch (s : State) : (resetEvent s).epoch = s.epoch + 1 := rfl

/-! ### `startFrame` -/

@[simp] theorem startFrame_cfg (s : State) : (startFrame s).cfg = s.cfg := rfl
@[simp] theorem startFrame_mem (s : State) : (startFrame s).mem = s.mem := rfl
@[simp] theorem startFrame_fb (s : State) : (startFrame s).fb = s.fb := rfl
@[simp] theorem startFrame_seq (s : State) : (startFrame s).seq = { phase := .map, entry := 0, ly := 0, lx := 0 } := rfl
@[simp] theorem startFrame_latch (s : State) : (startFrame s).latch = s.latch := rfl
@[simp] theorem startFrame_flags (s : State) : (startFrame s).flags = { s.flags with busy := true, done := false } := rfl
@[simp] theorem startFrame_finfo (s : State) : (startFrame s).finfo = s.finfo := rfl
@[simp] theorem startFrame_resp (s : State) : (startFrame s).resp = .none := rfl
@[simp] theorem startFrame_presented (s : State) : (startFrame s).presented = s.presented := rfl
@[simp] theorem startFrame_unitOut (s : State) : (startFrame s).unitOut = s.unitOut := rfl
@[simp] theorem startFrame_port (s : State) : (startFrame s).port = s.port := rfl
@[simp] theorem startFrame_resetIn (s : State) : (startFrame s).resetIn = s.resetIn := rfl
@[simp] theorem startFrame_unitIn (s : State) : (startFrame s).unitIn = s.unitIn := rfl
@[simp] theorem startFrame_epoch (s : State) : (startFrame s).epoch = s.epoch := rfl

/-! ### `completeFrame` -/

@[simp] theorem completeFrame_cfg (s : State) : (completeFrame s).cfg = s.cfg := rfl
@[simp] theorem completeFrame_mem (s : State) : (completeFrame s).mem = s.mem := rfl
@[simp] theorem completeFrame_fb (s : State) : (completeFrame s).fb = s.fb := rfl
@[simp] theorem completeFrame_seq (s : State) : (completeFrame s).seq = { s.seq with phase := .idle } := rfl
@[simp] theorem completeFrame_latch (s : State) : (completeFrame s).latch = s.latch := rfl
@[simp] theorem completeFrame_flags (s : State) : (completeFrame s).flags = { s.flags with busy := false, done := true } := rfl
@[simp] theorem completeFrame_finfo (s : State) : (completeFrame s).finfo = s.finfo := rfl
@[simp] theorem completeFrame_resp (s : State) : (completeFrame s).resp = .ok := rfl
@[simp] theorem completeFrame_presented (s : State) : (completeFrame s).presented = s.presented + 1 := rfl
@[simp] theorem completeFrame_unitOut (s : State) : (completeFrame s).unitOut = s.unitOut := rfl
@[simp] theorem completeFrame_port (s : State) : (completeFrame s).port = s.port := rfl
@[simp] theorem completeFrame_resetIn (s : State) : (completeFrame s).resetIn = s.resetIn := rfl
@[simp] theorem completeFrame_unitIn (s : State) : (completeFrame s).unitIn = s.unitIn := rfl
@[simp] theorem completeFrame_epoch (s : State) : (completeFrame s).epoch = s.epoch := rfl

/-! ### `memPut` -/

@[simp] theorem memPut_cfg (s : State) (a : Nat) (v : Byte) : (memPut s a v).cfg = s.cfg := rfl
@[simp] theorem memPut_mem (s : State) (a : Nat) (v : Byte) : (memPut s a v).mem = cellPut (s.cfg.seedByte a) s.mem a v := rfl
@[simp] theorem memPut_fb (s : State) (a : Nat) (v : Byte) : (memPut s a v).fb = s.fb := rfl
@[simp] theorem memPut_seq (s : State) (a : Nat) (v : Byte) : (memPut s a v).seq = s.seq := rfl
@[simp] theorem memPut_latch (s : State) (a : Nat) (v : Byte) : (memPut s a v).latch = s.latch := rfl
@[simp] theorem memPut_flags (s : State) (a : Nat) (v : Byte) : (memPut s a v).flags = s.flags := rfl
@[simp] theorem memPut_finfo (s : State) (a : Nat) (v : Byte) : (memPut s a v).finfo = s.finfo := rfl
@[simp] theorem memPut_resp (s : State) (a : Nat) (v : Byte) : (memPut s a v).resp = s.resp := rfl
@[simp] theorem memPut_presented (s : State) (a : Nat) (v : Byte) : (memPut s a v).presented = s.presented := rfl
@[simp] theorem memPut_unitOut (s : State) (a : Nat) (v : Byte) : (memPut s a v).unitOut = s.unitOut := rfl
@[simp] theorem memPut_port (s : State) (a : Nat) (v : Byte) : (memPut s a v).port = s.port := rfl
@[simp] theorem memPut_resetIn (s : State) (a : Nat) (v : Byte) : (memPut s a v).resetIn = s.resetIn := rfl
@[simp] theorem memPut_unitIn (s : State) (a : Nat) (v : Byte) : (memPut s a v).unitIn = s.unitIn := rfl
@[simp] theorem memPut_epoch (s : State) (a : Nat) (v : Byte) : (memPut s a v).epoch = s.epoch := rfl

/-! ### `fbWrite` -/

@[simp] theorem fbWrite_cfg (s : State) (px py : Nat) (c : Channels) (a : Bool) : (fbWrite s px py c a).cfg = s.cfg := rfl
@[simp] theorem fbWrite_mem (s : State) (px py : Nat) (c : Channels) (a : Bool) : (fbWrite s px py c a).mem = s.mem := rfl
@[simp] theorem fbWrite_fb (s : State) (px py : Nat) (c : Channels) (a : Bool) : (fbWrite s px py c a).fb = writePixel s.cfg s.fb px py c a := rfl
@[simp] theorem fbWrite_seq (s : State) (px py : Nat) (c : Channels) (a : Bool) : (fbWrite s px py c a).seq = s.seq := rfl
@[simp] theorem fbWrite_latch (s : State) (px py : Nat) (c : Channels) (a : Bool) : (fbWrite s px py c a).latch = s.latch := rfl
@[simp] theorem fbWrite_flags (s : State) (px py : Nat) (c : Channels) (a : Bool) : (fbWrite s px py c a).flags = s.flags := rfl
@[simp] theorem fbWrite_finfo (s : State) (px py : Nat) (c : Channels) (a : Bool) : (fbWrite s px py c a).finfo = s.finfo := rfl
@[simp] theorem fbWrite_resp (s : State) (px py : Nat) (c : Channels) (a : Bool) : (fbWrite s px py c a).resp = s.resp := rfl
@[simp] theorem fbWrite_presented (s : State) (px py : Nat) (c : Channels) (a : Bool) : (fbWrite s px py c a).presented = s.presented := rfl
@[simp] theorem fbWrite_unitOut (s : State) (px py : Nat) (c : Channels) (a : Bool) : (fbWrite s px py c a).unitOut = s.unitOut := rfl
@[simp] theorem fbWrite_port (s : State) (px py : Nat) (c : Channels) (a : Bool) : (fbWrite s px py c a).port = s.port := rfl
@[simp] theorem fbWrite_resetIn (s : State) (px py : Nat) (c : Channels) (a : Bool) : (fbWrite s px py c a).resetIn = s.resetIn := rfl
@[simp] theorem fbWrite_unitIn (s : State) (px py : Nat) (c : Channels) (a : Bool) : (fbWrite s px py c a).unitIn = s.unitIn := rfl
@[simp] theorem fbWrite_epoch (s : State) (px py : Nat) (c : Channels) (a : Bool) : (fbWrite s px py c a).epoch = s.epoch := rfl

/-! ### `latchCell` -/

@[simp] theorem latchCell_cfg (s : State) (t : BitVec 6) (p : BitVec 2) : (latchCell s t p).cfg = s.cfg := rfl
@[simp] theorem latchCell_mem (s : State) (t : BitVec 6) (p : BitVec 2) : (latchCell s t p).mem = s.mem := rfl
@[simp] theorem latchCell_fb (s : State) (t : BitVec 6) (p : BitVec 2) : (latchCell s t p).fb = s.fb := rfl
@[simp] theorem latchCell_seq (s : State) (t : BitVec 6) (p : BitVec 2) : (latchCell s t p).seq = s.seq := rfl
@[simp] theorem latchCell_latch (s : State) (t : BitVec 6) (p : BitVec 2) : (latchCell s t p).latch = { s.latch with tileId := t.setWidth 8, palId := p.setWidth 5 } := rfl
@[simp] theorem latchCell_flags (s : State) (t : BitVec 6) (p : BitVec 2) : (latchCell s t p).flags = s.flags := rfl
@[simp] theorem latchCell_finfo (s : State) (t : BitVec 6) (p : BitVec 2) : (latchCell s t p).finfo = s.finfo := rfl
@[simp] theorem latchCell_resp (s : State) (t : BitVec 6) (p : BitVec 2) : (latchCell s t p).resp = s.resp := rfl
@[simp] theorem latchCell_presented (s : State) (t : BitVec 6) (p : BitVec 2) : (latchCell s t p).presented = s.presented := rfl
@[simp] theorem latchCell_unitOut (s : State) (t : BitVec 6) (p : BitVec 2) : (latchCell s t p).unitOut = s.unitOut := rfl
@[simp] theorem latchCell_port (s : State) (t : BitVec 6) (p : BitVec 2) : (latchCell s t p).port = s.port := rfl
@[simp] theorem latchCell_resetIn (s : State) (t : BitVec 6) (p : BitVec 2) : (latchCell s t p).resetIn = s.resetIn := rfl
@[simp] theorem latchCell_unitIn (s : State) (t : BitVec 6) (p : BitVec 2) : (latchCell s t p).unitIn = s.unitIn := rfl
@[simp] theorem latchCell_epoch (s : State) (t : BitVec 6) (p : BitVec 2) : (latchCell s t p).epoch = s.epoch := rfl

/-! ### `latchSprite` -/

@[simp] theorem latchSprite_cfg (s : State) (t : BitVec 8) (p : BitVec 5) (m : BitVec 2) (x y : BitVec 8) : (latchSprite s t p m x y).cfg = s.cfg := rfl
@[simp] theorem latchSprite_mem (s : State) (t : BitVec 8) (p : BitVec 5) (m : BitVec 2) (x y : BitVec 8) : (latchSprite s t p m x y).mem = s.mem := rfl
@[simp] theorem latchSprite_fb (s : State) (t : BitVec 8) (p : BitVec 5) (m : BitVec 2) (x y : BitVec 8) : (latchSprite s t p m x y).fb = s.fb := rfl
@[simp] theorem latchSprite_seq (s : State) (t : BitVec 8) (p : BitVec 5) (m : BitVec 2) (x y : BitVec 8) : (latchSprite s t p m x y).seq = s.seq := rfl
@[simp] theorem latchSprite_latch (s : State) (t : BitVec 8) (p : BitVec 5) (m : BitVec 2) (x y : BitVec 8) : (latchSprite s t p m x y).latch = { tileId := t, palId := p, mode := m, x := x, y := y } := rfl
@[simp] theorem latchSprite_flags (s : State) (t : BitVec 8) (p : BitVec 5) (m : BitVec 2) (x y : BitVec 8) : (latchSprite s t p m x y).flags = s.flags := rfl
@[simp] theorem latchSprite_finfo (s : State) (t : BitVec 8) (p : BitVec 5) (m : BitVec 2) (x y : BitVec 8) : (latchSprite s t p m x y).finfo = s.finfo := rfl
@[simp] theorem latchSprite_resp (s : State) (t : BitVec 8) (p : BitVec 5) (m : BitVec 2) (x y : BitVec 8) : (latchSprite s t p m x y).resp = s.resp := rfl
@[simp] theorem latchSprite_presented (s : State) (t : BitVec 8) (p : BitVec 5) (m : BitVec 2) (x y : BitVec 8) : (latchSprite s t p m x y).presented = s.presented := rfl
@[simp] theorem latchSprite_unitOut (s : State) (t : BitVec 8) (p : BitVec 5) (m : BitVec 2) (x y : BitVec 8) : (latchSprite s t p m x y).unitOut = s.unitOut := rfl
@[simp] theorem latchSprite_port (s : State) (t : BitVec 8) (p : BitVec 5) (m : BitVec 2) (x y : BitVec 8) : (latchSprite s t p m x y).port = s.port := rfl
@[simp] theorem latchSprite_resetIn (s : State) (t : BitVec 8) (p : BitVec 5) (m : BitVec 2) (x y : BitVec 8) : (latchSprite s t p m x y).resetIn = s.resetIn := rfl
@[simp] theorem latchSprite_unitIn (s : State) (t : BitVec 8) (p : BitVec 5) (m : BitVec 2) (x y : BitVec 8) : (latchSprite s t p m x y).unitIn = s.unitIn := rfl
@[simp] theorem latchSprite_epoch (s : State) (t : BitVec 8) (p : BitVec 5) (m : BitVec 2) (x y : BitVec 8) : (latchSprite s t p m x y).epoch = s.epoch := rfl

/-! ### `clockReset` -/

@[simp] theorem clockReset_cfg (s : State) : (clockReset s).cfg = s.cfg := rfl
@[simp] theorem clockReset_mem (s : State) : (clockReset s).mem = s.mem := rfl
@[simp] theorem clockReset_fb (s : State) : (clockReset s).fb = s.fb := rfl
@[simp] theorem clockReset_seq (s : State) : (clockReset s).seq = s.seq := rfl
@[simp] theorem clockReset_latch (s : State) : (clockReset s).latch = s.latch := rfl
@[simp] theorem clockReset_flags (s : State) : (clockReset s).flags = s.flags := rfl
@[simp] theorem clockReset_finfo (s : State) : (clockReset s).finfo = s.finfo := rfl
@[simp] theorem clockReset_resp (s : State) : (clockReset s).resp = s.resp := rfl
@[simp] theorem clockReset_presented (s : State) : (clockReset s).presented = s.presented := rfl
@[simp] theorem clockReset_unitOut (s : State) : (clockReset s).unitOut = s.unitOut := rfl
@[simp] theorem clockReset_port (s : State) : (clockReset s).port = s.port := rfl
@[simp] theorem clockReset_resetIn (s : State) : (clockReset s).resetIn = s.resetIn.tail := rfl
@[simp] theorem clockReset_unitIn (s : State) : (clockReset s).unitIn = s.unitIn := rfl
@[simp] theorem clockReset_epoch (s : State) : (clockReset s).epoch = s.epoch := rfl

end Sys2Proof.Machine
end

