-- ==== Sys2Proof/Laws/Memory.lean ====
section
/-! SUPPORT. The laws of the packed memory and of the framebuffer's bytes: read after write for one, two and four bytes and
for each view, the frame of every write, the places of the views, and that every memory operation keeps the canonical
form. -/

namespace Sys2Proof.Machine

/-! ### Bytes, halfwords, words -/

theorem memByte_memPut (s : State) (a b : Nat) (v : Byte) :
    memByte (memPut s a v) b = if b = a then v else memByte s b := by
  simpa [memByte] using cellPut_read s.cfg.seedByte s.mem a b v

@[simp] theorem memPutHalf_cfg (s : State) (a : Nat) (v : Half) : (memPutHalf s a v).cfg = s.cfg := rfl
@[simp] theorem memPutWord_cfg (s : State) (a : Nat) (v : Word) : (memPutWord s a v).cfg = s.cfg := rfl

/-- A halfword write changes `MEM` and nothing else. -/
theorem memPutHalf_eq (s : State) (a : Nat) (v : Half) : memPutHalf s a v = { s with mem := (memPutHalf s a v).mem } := rfl

/-- A word write changes `MEM` and nothing else. -/
theorem memPutWord_eq (s : State) (a : Nat) (v : Word) : memPutWord s a v = { s with mem := (memPutWord s a v).mem } := rfl

theorem memByte_memPutHalf (s : State) (a b : Nat) (v : Half) :
    memByte (memPutHalf s a v) b =
      if b = a then v.extractLsb' 0 8 else if b = a + 1 then v.extractLsb' 8 8 else memByte s b := by
  unfold memPutHalf
  simp only [memByte_memPut]
  split_ifs <;> first | rfl | omega

theorem memByte_memPutWord (s : State) (a b : Nat) (v : Word) :
    memByte (memPutWord s a v) b =
      if b = a then v.extractLsb' 0 8 else if b = a + 1 then v.extractLsb' 8 8
      else if b = a + 2 then v.extractLsb' 16 8 else if b = a + 3 then v.extractLsb' 24 8 else memByte s b := by
  have e0 : (v.extractLsb' 0 16).extractLsb' 0 8 = v.extractLsb' 0 8 := by ext i hi; simp
  have e1 : (v.extractLsb' 0 16).extractLsb' 8 8 = v.extractLsb' 8 8 := by ext i hi; simp
  have e2 : (v.extractLsb' 16 16).extractLsb' 0 8 = v.extractLsb' 16 8 := by ext i hi; simp; omega
  have e3 : (v.extractLsb' 16 16).extractLsb' 8 8 = v.extractLsb' 24 8 := by
    ext i hi; simp [show 16 + (8 + i) = 24 + i by omega]; omega
  unfold memPutWord
  simp only [memByte_memPutHalf, e0, e1, e2, e3, show a + 2 + 1 = a + 3 by omega]
  split_ifs <;> first | rfl | omega

/-- A read depends on the bytes alone. -/
theorem memHalf_congr {s t : State} {a : Nat} (h : ∀ b, a ≤ b → b < a + 2 → memByte t b = memByte s b) :
    memHalf t a = memHalf s a := by
  simp [memHalf, h a (by omega) (by omega), h (a + 1) (by omega) (by omega)]

theorem memWord_congr {s t : State} {a : Nat} (h : ∀ b, a ≤ b → b < a + 4 → memByte t b = memByte s b) :
    memWord t a = memWord s a := by
  simp only [memWord]
  rw [memHalf_congr (s := s) (t := t) fun b h1 h2 => h b (by omega) (by omega),
    memHalf_congr (s := s) (t := t) fun b h1 h2 => h b (by omega) (by omega)]

theorem half_of_bytes (v : Half) : v.extractLsb' 8 8 ++ v.extractLsb' 0 8 = v := by
  ext i hi
  simp only [BitVec.getElem_append, BitVec.getElem_extractLsb', Nat.zero_add]
  split
  · exact BitVec.getLsbD_eq_getElem _
  · rw [show 8 + (i - 8) = i by omega]; exact BitVec.getLsbD_eq_getElem _

theorem word_of_halves (v : Word) : v.extractLsb' 16 16 ++ v.extractLsb' 0 16 = v := by
  ext i hi
  simp only [BitVec.getElem_append, BitVec.getElem_extractLsb', Nat.zero_add]
  split
  · exact BitVec.getLsbD_eq_getElem _
  · rw [show 16 + (i - 16) = i by omega]; exact BitVec.getLsbD_eq_getElem _

@[simp] theorem memHalf_memPutHalf (s : State) (a : Nat) (v : Half) : memHalf (memPutHalf s a v) a = v := by
  simp only [memHalf, memByte_memPutHalf, if_true, if_neg (show ¬ a + 1 = a by omega)]
  exact half_of_bytes v

@[simp] theorem memWord_memPutWord (s : State) (a : Nat) (v : Word) : memWord (memPutWord s a v) a = v := by
  unfold memPutWord
  simp only [memWord, memHalf_memPutHalf]
  rw [memHalf_congr (s := memPutHalf s a (v.extractLsb' 0 16)), memHalf_memPutHalf]
  · exact word_of_halves v
  · intro b h1 h2
    rw [memByte_memPutHalf, if_neg (by omega), if_neg (by omega)]

/-! ### The places of the views (spec/20_memory.md R51, R52, R57, R69) -/

theorem tileAddr_lt (c : Config) {i : Nat} (h : i < c.tileBytes) : c.tileAddr i < c.sprBase := by
  simp only [Config.tileAddr, Config.tileBase, Config.sprBase, Config.tileBytes] at *; omega

theorem sprAddr_bounds (c : Config) {i : Nat} (h : i < c.spriteCount) :
    c.sprBase ≤ c.sprAddr i ∧ c.sprAddr i + 4 ≤ c.palBase := by
  simp only [Config.sprAddr, Config.palBase]; omega

theorem palAddr_bounds (c : Config) {i : Nat} (h : i < c.paletteCount) :
    c.palBase ≤ c.palAddr i ∧ c.palAddr i + 2 ≤ c.mapBase := by
  simp only [Config.palAddr, Config.mapBase]; omega

theorem mapAddr_bounds (c : Config) {i : Nat} (h : i < c.cellCount) :
    c.mapBase ≤ c.mapAddr i ∧ c.mapAddr i < c.memSize := by
  simp only [Config.mapAddr, Config.memSize, Config.cellCount] at *; omega

theorem bases_rise (c : Config) : c.sprBase ≤ c.palBase ∧ c.palBase ≤ c.mapBase ∧ c.mapBase ≤ c.memSize := by
  simp only [Config.palBase, Config.mapBase, Config.memSize]; omega

/-! ### The canonical form of `MEM` -/

theorem memPut_wf {s : State} (h : Memory.wf s.cfg s.mem) {a : Nat} (ha : a < s.cfg.memSize) (v : Byte) :
    Memory.wf (memPut s a v).cfg (memPut s a v).mem := by
  refine ⟨cellsRise_put h.1 _ a v, fun e he => ?_⟩
  rcases mem_cellPut he with ⟨rfl, hv⟩ | he
  · exact ⟨ha, hv⟩
  · exact h.2 e he

theorem memPutHalf_wf {s : State} (h : Memory.wf s.cfg s.mem) {a : Nat} (ha : a + 2 ≤ s.cfg.memSize) (v : Half) :
    Memory.wf s.cfg (memPutHalf s a v).mem :=
  memPut_wf (s := memPut s a _) (memPut_wf h (by omega) _) (by simp; omega) _

theorem memPutWord_wf {s : State} (h : Memory.wf s.cfg s.mem) {a : Nat} (ha : a + 4 ≤ s.cfg.memSize) (v : Word) :
    Memory.wf s.cfg (memPutWord s a v).mem :=
  memPutHalf_wf (s := memPutHalf s a _) (memPutHalf_wf h (by omega) _) (by simp; omega) _

/-- Everything a checked write can do: it raises and stores nothing, or it changes `MEM` alone and keeps its canonical
form. -/
structure WroteMem (s t : State) : Prop where
  rest : t = { s with mem := t.mem }
  canonical : Memory.wf s.cfg s.mem → Memory.wf s.cfg t.mem

theorem tileWrite_ok {s t : State} {i : Nat} {v : Byte} (h : tileWrite s i v = .ok t) :
    i < s.cfg.tileBytes ∧ t = memPut s (s.cfg.tileAddr i) v := by
  unfold tileWrite at h
  split_ifs at h with hi
  cases h; exact ⟨by omega, rfl⟩

theorem sprWrite_ok {s t : State} {i : Nat} {v : Word} (h : sprWrite s i v = .ok t) :
    i < s.cfg.spriteCount ∧ t = memPutWord s (s.cfg.sprAddr i) v := by
  unfold sprWrite at h
  split_ifs at h with hi
  cases h; exact ⟨by omega, rfl⟩

theorem palWrite_ok {s t : State} {i : Nat} {v : Half} (h : palWrite s i v = .ok t) :
    i < s.cfg.paletteCount ∧ t = memPutHalf s (s.cfg.palAddr i) v := by
  unfold palWrite at h
  split_ifs at h with hi
  cases h; exact ⟨by omega, rfl⟩

theorem mapWrite_ok {s t : State} {i : Nat} {v : Byte} (h : mapWrite s i v = .ok t) :
    i < s.cfg.cellCount ∧ t = memPut s (s.cfg.mapAddr i) v := by
  unfold mapWrite at h
  split_ifs at h with hi
  cases h; exact ⟨by omega, rfl⟩

theorem tileWrite_wrote {s t : State} {i : Nat} {v : Byte} (h : tileWrite s i v = .ok t) : WroteMem s t := by
  obtain ⟨hi, rfl⟩ := tileWrite_ok h
  exact ⟨rfl, fun hw => memPut_wf hw (by have := tileAddr_lt s.cfg hi; have := bases_rise s.cfg; omega) v⟩

theorem sprWrite_wrote {s t : State} {i : Nat} {v : Word} (h : sprWrite s i v = .ok t) : WroteMem s t := by
  obtain ⟨hi, rfl⟩ := sprWrite_ok h
  exact ⟨rfl, fun hw => memPutWord_wf hw (by have := sprAddr_bounds s.cfg hi; have := bases_rise s.cfg; omega) v⟩

theorem palWrite_wrote {s t : State} {i : Nat} {v : Half} (h : palWrite s i v = .ok t) : WroteMem s t := by
  obtain ⟨hi, rfl⟩ := palWrite_ok h
  exact ⟨rfl, fun hw => memPutHalf_wf hw (by have := palAddr_bounds s.cfg hi; have := bases_rise s.cfg; omega) v⟩

theorem mapWrite_wrote {s t : State} {i : Nat} {v : Byte} (h : mapWrite s i v = .ok t) : WroteMem s t := by
  obtain ⟨hi, rfl⟩ := mapWrite_ok h
  exact ⟨rfl, fun hw => memPut_wf hw (by have := mapAddr_bounds s.cfg hi; omega) v⟩

/-! ### A checked access answers inside its view and raises outside it (R54, R55) -/

theorem tileRead_in {s : State} {i : Nat} (h : i < s.cfg.tileBytes) : tileRead s i = .ok (memByte s (s.cfg.tileAddr i)) :=
  if_neg (Nat.not_le.2 h)

theorem tileRead_out {s : State} {i : Nat} (h : s.cfg.tileBytes ≤ i) : tileRead s i = .error ⟨.tile, i⟩ := if_pos h

theorem tileWrite_in {s : State} {i : Nat} (h : i < s.cfg.tileBytes) (v : Byte) :
    tileWrite s i v = .ok (memPut s (s.cfg.tileAddr i) v) :=
  if_neg (Nat.not_le.2 h)

theorem tileWrite_out {s : State} {i : Nat} (h : s.cfg.tileBytes ≤ i) (v : Byte) : tileWrite s i v = .error ⟨.tile, i⟩ := if_pos h

theorem sprRead_in {s : State} {i : Nat} (h : i < s.cfg.spriteCount) : sprRead s i = .ok (memWord s (s.cfg.sprAddr i)) :=
  if_neg (Nat.not_le.2 h)

theorem sprRead_out {s : State} {i : Nat} (h : s.cfg.spriteCount ≤ i) : sprRead s i = .error ⟨.spr, i⟩ := if_pos h

theorem sprWrite_in {s : State} {i : Nat} (h : i < s.cfg.spriteCount) (v : Word) :
    sprWrite s i v = .ok (memPutWord s (s.cfg.sprAddr i) v) :=
  if_neg (Nat.not_le.2 h)

theorem sprWrite_out {s : State} {i : Nat} (h : s.cfg.spriteCount ≤ i) (v : Word) : sprWrite s i v = .error ⟨.spr, i⟩ := if_pos h

theorem palRead_in {s : State} {i : Nat} (h : i < s.cfg.paletteCount) : palRead s i = .ok (memHalf s (s.cfg.palAddr i)) :=
  if_neg (Nat.not_le.2 h)

theorem palRead_out {s : State} {i : Nat} (h : s.cfg.paletteCount ≤ i) : palRead s i = .error ⟨.pal, i⟩ := if_pos h

theorem palWrite_in {s : State} {i : Nat} (h : i < s.cfg.paletteCount) (v : Half) :
    palWrite s i v = .ok (memPutHalf s (s.cfg.palAddr i) v) :=
  if_neg (Nat.not_le.2 h)

theorem palWrite_out {s : State} {i : Nat} (h : s.cfg.paletteCount ≤ i) (v : Half) : palWrite s i v = .error ⟨.pal, i⟩ := if_pos h

theorem mapRead_in {s : State} {i : Nat} (h : i < s.cfg.cellCount) : mapRead s i = .ok (memByte s (s.cfg.mapAddr i)) :=
  if_neg (Nat.not_le.2 h)

theorem mapRead_out {s : State} {i : Nat} (h : s.cfg.cellCount ≤ i) : mapRead s i = .error ⟨.map, i⟩ := if_pos h

theorem mapWrite_in {s : State} {i : Nat} (h : i < s.cfg.cellCount) (v : Byte) :
    mapWrite s i v = .ok (memPut s (s.cfg.mapAddr i) v) :=
  if_neg (Nat.not_le.2 h)

theorem mapWrite_out {s : State} {i : Nat} (h : s.cfg.cellCount ≤ i) (v : Byte) : mapWrite s i v = .error ⟨.map, i⟩ := if_pos h

/-! ### A view reads the same where its bytes are the same -/

theorem tileRead_keep {s t : State} (hc : t.cfg = s.cfg)
    (h : ∀ j < s.cfg.tileBytes, memByte t (s.cfg.tileAddr j) = memByte s (s.cfg.tileAddr j)) (j : Nat) :
    tileRead t j = tileRead s j := by
  by_cases hj : s.cfg.tileBytes ≤ j
  · simp [tileRead, hc, hj]
  · simp [tileRead, hc, hj, h j (by omega)]

theorem sprRead_keep {s t : State} (hc : t.cfg = s.cfg)
    (h : ∀ j < s.cfg.spriteCount, memWord t (s.cfg.sprAddr j) = memWord s (s.cfg.sprAddr j)) (j : Nat) :
    sprRead t j = sprRead s j := by
  by_cases hj : s.cfg.spriteCount ≤ j
  · simp [sprRead, hc, hj]
  · simp [sprRead, hc, hj, h j (by omega)]

theorem palRead_keep {s t : State} (hc : t.cfg = s.cfg)
    (h : ∀ j < s.cfg.paletteCount, memHalf t (s.cfg.palAddr j) = memHalf s (s.cfg.palAddr j)) (j : Nat) :
    palRead t j = palRead s j := by
  by_cases hj : s.cfg.paletteCount ≤ j
  · simp [palRead, hc, hj]
  · simp [palRead, hc, hj, h j (by omega)]

theorem mapRead_keep {s t : State} (hc : t.cfg = s.cfg)
    (h : ∀ j < s.cfg.cellCount, memByte t (s.cfg.mapAddr j) = memByte s (s.cfg.mapAddr j)) (j : Nat) :
    mapRead t j = mapRead s j := by
  by_cases hj : s.cfg.cellCount ≤ j
  · simp [mapRead, hc, hj]
  · simp [mapRead, hc, hj, h j (by omega)]

/-! ### The framebuffer's bytes -/

theorem fbByte_unlisted {s : State} {a : Nat} (h : cellLookup s.fb a = none) : fbByte s a = fbUnwritten s a := by
  simp [fbByte, h]

theorem pixelAddr_mod (c : Config) (px py : Nat) : c.pixelAddr px py % 4 = 0 := by simp [Config.pixelAddr]

/-- A pixel of the surface lies inside the framebuffer (R62). -/
theorem pixelAddr_lt (c : Config) {px py : Nat} (hx : px < c.width) (hy : py < c.height) :
    c.pixelAddr px py + 4 ≤ c.fbSize := by
  have h1 : py * c.width + px + 1 ≤ c.width * c.height := by nlinarith
  simp only [Config.pixelAddr, Config.fbSize]; omega

/-- Distinct pixels of the surface have distinct addresses. -/
theorem pixelAddr_inj (c : Config) {px py qx qy : Nat} (hx : px < c.width) (hx' : qx < c.width)
    (h : c.pixelAddr px py = c.pixelAddr qx qy) : px = qx ∧ py = qy := by
  have h0 : py * c.width + px = qy * c.width + qx := by simp only [Config.pixelAddr] at h; omega
  have hw : 0 < c.width := by omega
  have h1 := congrArg (· % c.width) h0
  have h2 := congrArg (· / c.width) h0
  simp only [Nat.mul_add_mod_self_right, Nat.mod_eq_of_lt hx, Nat.mod_eq_of_lt hx'] at h1
  simp only [Nat.add_comm _ px, Nat.add_comm _ qx, Nat.add_mul_div_right _ _ hw, Nat.div_eq_of_lt hx,
    Nat.div_eq_of_lt hx'] at h2
  omega

/-- What the bytes of the framebuffer read after a pixel's store, where an unlisted byte reads as `d`. -/
theorem storePixel_lookup (m : List Host.Cell) (a b : Nat) (c : Channels) (setA : Bool) :
    cellLookup (storePixel m a c setA) b =
      if b = a then some c.r else if b = a + 1 then some c.g else if b = a + 2 then some c.b
      else if b = a + 3 ∧ setA = true then none else cellLookup m b := by
  cases setA <;>
    simp only [storePixel, fbPut, fbPutOpaque, cellPut, if_true, cellLookup_erase, cellLookup_insert,
      Bool.false_eq_true, if_false, and_false, and_true] <;>
    split_ifs <;> first | rfl | omega

theorem storePixel_rises {m : List Host.Cell} (h : cellsRise m) (a : Nat) (c : Channels) (setA : Bool) :
    cellsRise (storePixel m a c setA) := by
  have h3 : cellsRise (fbPut (fbPut (fbPut m a c.r) (a + 1) c.g) (a + 2) c.b) :=
    cellsRise_insert (cellsRise_insert (cellsRise_insert h _ _) _ _) _ _
  cases setA
  · exact h3
  · exact cellsRise_put h3 255#8 (a + 3) 255#8

theorem mem_storePixel {m : List Host.Cell} {a : Nat} {c : Channels} {setA : Bool} {e : Host.Cell}
    (h : e ∈ storePixel m a c setA) : e.1 = a ∨ e.1 = a + 1 ∨ e.1 = a + 2 ∨ e ∈ m := by
  have h3 : e ∈ fbPut (fbPut (fbPut m a c.r) (a + 1) c.g) (a + 2) c.b := by
    cases setA
    · exact h
    · exact (mem_cellPut (d := 255#8) (v := 255#8) h).resolve_left fun hh => hh.2 rfl
  rcases mem_cellInsert h3 with rfl | h
  · simp
  rcases mem_cellInsert h with rfl | h
  · simp
  rcases mem_cellInsert h with rfl | h
  · simp
  · exact .inr (.inr (.inr h))

/-- A pixel write keeps the canonical form of `FB`. -/
theorem writePixel_wf {cfg : Config} {m : List Host.Cell} (h : FrameBuffer.wf cfg m) (px py : Nat) (c : Channels)
    (setA : Bool) : FrameBuffer.wf cfg (writePixel cfg m px py c setA) := by
  unfold writePixel
  split_ifs with hb
  · exact h
  · refine ⟨storePixel_rises h.1 _ _ _, fun e he => ?_⟩
    have hlt := pixelAddr_lt cfg (px := px) (py := py) (by omega) (by omega)
    have hmod := pixelAddr_mod cfg px py
    rcases mem_storePixel he with h1 | h1 | h1 | h1
    · omega
    · omega
    · omega
    · exact h.2 e h1

end Sys2Proof.Machine
end

