-- ==== Sys2Proof/Laws/Commands.lean ====
section
/-! SUPPORT. One spec lemma per way a command or a unit operation is accepted (spec/44_host_commands.md R170, R171), and
what a host access answers or raises. -/

namespace Sys2Proof.Machine

theorem onUnit_run {s : State} (h : s.seq.phase ≠ .fault) (k : State → State) : onUnit s k = k s := by
  unfold onUnit; cases hp : s.seq.phase <;> simp_all

theorem onUnit_fault {s : State} (h : s.seq.phase = .fault) (k : State → State) : onUnit s k = s := by
  unfold onUnit; rw [h]

theorem onCommand_idle {s : State} (h : s.seq.phase = .idle) (k : State → State) : onCommand s k = k s := by
  unfold onCommand; rw [h]

theorem onCommand_fault {s : State} (h : s.seq.phase = .fault) (k : State → State) : onCommand s k = answerFaulted s := by
  unfold onCommand; rw [h]

theorem onCommand_busy {s : State} (h : s.seq.phase = .map ∨ s.seq.phase = .sprite) (k : State → State) :
    onCommand s k = s := by
  unfold onCommand; rcases h with h | h <;> rw [h]

/-- Everything the acceptance of a command can do: its effect when idle, an answer when faulted, nothing while a frame
executes. -/
theorem onCommand_cases (s : State) (k : State → State) :
    (s.seq.phase = .idle ∧ onCommand s k = k s) ∨ (s.seq.phase = .fault ∧ onCommand s k = respond s .faulted) ∨
      ((s.seq.phase = .map ∨ s.seq.phase = .sprite) ∧ onCommand s k = s) := by
  unfold onCommand
  cases hp : s.seq.phase <;> simp [answerFaulted]

/-- Everything a unit operation on its own can do: its effect, or nothing in `FAULT`. -/
theorem onUnit_cases (s : State) (k : State → State) :
    (s.seq.phase ≠ .fault ∧ onUnit s k = k s) ∨ (s.seq.phase = .fault ∧ onUnit s k = s) := by
  by_cases h : s.seq.phase = .fault
  · exact .inr ⟨h, onUnit_fault h k⟩
  · exact .inl ⟨h, onUnit_run h k⟩

@[simp] theorem hostRead_ok {α : Type} (s : State) (v : α) (f : α → Response) :
    hostRead s (.ok v) f = respond s (f v) := rfl

@[simp] theorem hostRead_error {α : Type} (s : State) (r : Raise) (f : α → Response) :
    hostRead s (.error r) f = enterFault s r true := rfl

@[simp] theorem hostWrite_ok (s t : State) : hostWrite s (.ok t) = respond t .ok := rfl

@[simp] theorem hostWrite_error (s : State) (r : Raise) : hostWrite s (.error r) = enterFault s r true := rfl

/-! An answer to the host changes no memory. -/

@[simp] theorem memByte_respond (s : State) (r : Response) (a : Nat) : memByte (respond s r) a = memByte s a := rfl
@[simp] theorem memHalf_respond (s : State) (r : Response) (a : Nat) : memHalf (respond s r) a = memHalf s a := rfl
@[simp] theorem memWord_respond (s : State) (r : Response) (a : Nat) : memWord (respond s r) a = memWord s a := rfl
@[simp] theorem fbByte_respond (s : State) (r : Response) (a : Nat) : fbByte (respond s r) a = fbByte s a := rfl

/-- Everything a host read can do: a response, or the fault entry with `FHOST = 1`. -/
theorem hostRead_cases {α : Type} (s : State) (res : Except Raise α) (f : α → Response) :
    (∃ r, hostRead s res f = respond s r) ∨ ∃ r, hostRead s res f = enterFault s r true := by
  cases res with
  | ok v => exact .inl ⟨_, rfl⟩
  | error r => exact .inr ⟨_, rfl⟩

/-- Everything a host write can do: the write and the response `OK`, or the fault entry with `FHOST = 1` and no write. -/
theorem hostWrite_cases (s : State) (res : Except Raise State) :
    (∃ t, res = .ok t ∧ hostWrite s res = respond t .ok) ∨ ∃ r, hostWrite s res = enterFault s r true := by
  cases res with
  | ok t => exact .inl ⟨t, rfl, rfl⟩
  | error r => exact .inr ⟨_, rfl⟩

end Sys2Proof.Machine
end

