-- ==== Sys2Proof/Laws/Units.lean ====
section
/-! SUPPORT. One spec lemma per unit operation: what it answers and when it raises; and what one pixel's body can do. -/

namespace Sys2Proof.Machine

/-- Reading element `8 * t + ly` of the tile view fails exactly for a tile that does not exist (R110). -/
theorem tile_index_lt (c : Config) (t : BitVec 8) (ly : BitVec 3) :
    t.toNat * 8 + ly.toNat < c.tileBytes ↔ t.toNat < c.tileCount := by
  have := ly.isLt
  simp only [Config.tileBytes]; omega

theorem decodePixel_ok {s : State} {t : BitVec 8} (h : t.toNat < s.cfg.tileCount) (ly lx : BitVec 3) :
    decodePixel s t ly lx = .ok (tileBit s t ly lx) := by
  have hi := (tile_index_lt s.cfg t ly).2 h
  simp only [decodePixel, tileRead, if_neg (Nat.not_le.2 hi), tileBit, Nat.mul_comm 8]
  refine congrArg Except.ok ?_
  ext i hi
  obtain rfl : i = 0 := by omega
  simp

theorem decodePixel_raises {s : State} {t : BitVec 8} (h : s.cfg.tileCount ≤ t.toNat) (ly lx : BitVec 3) :
    decodePixel s t ly lx = .error ⟨.tile, t.toNat * 8 + ly.toNat⟩ := by
  have hi : s.cfg.tileBytes ≤ t.toNat * 8 + ly.toNat := by
    have := (tile_index_lt s.cfg t ly).not; omega
  simp only [decodePixel, tileRead, if_pos hi]

theorem resolveColor_ok {s : State} {p : BitVec 5} (h : p.toNat < s.cfg.paletteCount) (bit : BitVec 1) :
    resolveColor s p bit = .ok (paletteColor s p bit) := by
  simp only [resolveColor, palRead, if_neg (Nat.not_le.2 h), paletteColor]
  rcases BitVec.eq_zero_or_eq_one bit with rfl | rfl <;> rfl

theorem resolveColor_raises {s : State} {p : BitVec 5} (h : s.cfg.paletteCount ≤ p.toNat) (bit : BitVec 1) :
    resolveColor s p bit = .error ⟨.pal, p.toNat⟩ := by
  simp only [resolveColor, palRead, if_pos h]

/-- The units read the configuration and `MEM` alone. -/
theorem decodePixel_congr {s t : State} (hc : t.cfg = s.cfg) (hm : t.mem = s.mem) (n : BitVec 8) (ly lx : BitVec 3) :
    decodePixel t n ly lx = decodePixel s n ly lx := by
  simp [decodePixel, tileRead, memByte, hc, hm]

theorem resolveColor_congr {s t : State} (hc : t.cfg = s.cfg) (hm : t.mem = s.mem) (p : BitVec 5) (bit : BitVec 1) :
    resolveColor t p bit = resolveColor s p bit := by
  simp [resolveColor, palRead, memHalf, memByte, hc, hm]

/-- The transparency rule is one bit of the mode: mode bit 0 for pixel value 0, mode bit 1 for pixel value 1 (R102). -/
theorem transparent_iff (m : BitVec 2) (b : BitVec 1) : transparent m b = m.getLsbD b.toNat := by
  revert m b; decide

/-- Everything a pixel's body can do when it does not raise: nothing, or one pixel write. -/
theorem pixelBody_ok {s t : State} (h : pixelBody s = .ok t) :
    t = s ∨ ∃ px py c a, t = fbWrite s px py c a := by
  unfold pixelBody at h
  split at h
  · split_ifs at h
    · cases h; exact .inl rfl
    · unfold drawPixel at h
      split at h
      · cases h; exact .inr ⟨_, _, _, _, rfl⟩
      · cases h
  · cases h

end Sys2Proof.Machine
end

