-- ==== Sys2Proof/Laws/Compositor.lean ====
section
/-! SUPPORT. What an entry's 64 pixel steps do: the run of an entry equals a fold of its pixels' effect on the framebuffer,
in the order of spec/42_compositor.md R132 and R139, up to the first raise. -/

namespace Sys2Proof.Machine

/-- A fold that stops at the first raise and says where, with what was done before it (R206). -/
def runList {κ β : Type} (f : β → κ → Except Raise β) : List κ → β → β × Option (Raise × κ)
  | [], b => (b, none)
  | k :: ks, b =>
    match f b k with
    | .ok b' => runList f ks b'
    | .error r => (b, some (r, k))

/-- `runList` forgets nothing a monadic fold tells. -/
theorem foldlM_eq_runList {κ β : Type} (f : β → κ → Except Raise β) (ks : List κ) (b : β) :
    ks.foldlM f b =
      match runList f ks b with
      | (b', none) => Except.ok b'
      | (_, some (r, _)) => Except.error r := by
  induction ks generalizing b with
  | nil => rfl
  | cons k ks ih =>
    rw [List.foldlM_cons, runList]
    cases h : f b k with
    | error r => rfl
    | ok b' => exact ih b'

/-- The effect of the pixel `k` of the entry in progress on a framebuffer. -/
def entryPixel (s : State) (fb : List Host.Cell) (k : BitVec 3 × BitVec 3) : Except Raise (List Host.Cell) :=
  match s.seq.phase with
  | .map => cellPixel s s.seq.entry s.latch.tileId s.latch.palId fb k
  | _ => spritePixel s s.latch.tileId s.latch.palId s.latch.mode s.latch.x s.latch.y fb k

/-- The entry in progress at pixel `k`, the framebuffer being `fb`. -/
def atPixel (s : State) (fb : List Host.Cell) (k : BitVec 3 × BitVec 3) : State :=
  { s with fb := fb, seq := { s.seq with ly := k.1, lx := k.2 } }

theorem pixelBody_atPixel (s : State) (fb : List Host.Cell) (k : BitVec 3 × BitVec 3) :
    pixelBody (atPixel s fb k) =
      match entryPixel s fb k with
      | .ok fb' => .ok (atPixel s fb' k)
      | .error r => .error r := by
  have hd : ∀ n ly lx, decodePixel (atPixel s fb k) n ly lx = decodePixel s n ly lx :=
    fun n ly lx => decodePixel_congr rfl rfl n ly lx
  have hr : ∀ p b, resolveColor (atPixel s fb k) p b = resolveColor s p b := fun p b => resolveColor_congr rfl rfl p b
  unfold pixelBody entryPixel cellPixel spritePixel drawPixel
  simp only [hd, hr]
  rcases hp : s.seq.phase with _ | _ | _ | _ <;>
    simp only [atPixel, skipsPixel, hp, Bool.false_eq_true, if_false] <;>
    rcases decodePixel s s.latch.tileId k.1 k.2 with r | bit <;> simp only
  all_goals try rcases resolveColor s s.latch.palId bit with r | c <;> simp only
  all_goals try cases transparent s.latch.mode bit
  all_goals simp [fbWrite, pixelX, pixelY, setsOpacity, cellCol, cellRow]

/-- What happens after the last pixel, or at the first raise. -/
def entryEnd (s : State) : List Host.Cell × Option (Raise × (BitVec 3 × BitVec 3)) → State
  | (fb, none) => advanceEntry (atPixel s fb (0, 0))
  | (fb, some (r, k)) => enterFault (atPixel s fb k) r false

/-- Pixel number `j` of a block. -/
def pixelNo (j : Nat) : BitVec 3 × BitVec 3 := (BitVec.ofNat 3 (j / 8), BitVec.ofNat 3 (j % 8))

theorem runPixels_fault {s : State} (h : s.seq.phase = .fault) (n : Nat) : runPixels n s = s := by
  induction n with
  | zero => rfl
  | succ n ih => rw [runPixels, show pixelStep s = s by simp [pixelStep, h], ih]

theorem advancePixel_inside (s : State) (fb : List Host.Cell) (j : Nat) (h : j < 63) :
    advancePixel (atPixel s fb (pixelNo j)) = atPixel s fb (pixelNo (j + 1)) := by
  have key : ∀ j < 63,
      (if (pixelNo j).2 ≠ 7#3 then ((pixelNo j).1, (pixelNo j).2 + 1)
        else if (pixelNo j).1 ≠ 7#3 then ((pixelNo j).1 + 1, 0) else (0, 0)) = pixelNo (j + 1) ∧
      ¬ ((pixelNo j).2 = 7#3 ∧ (pixelNo j).1 = 7#3) := by decide
  obtain ⟨h1, h2⟩ := key j h
  rw [← h1]
  unfold advancePixel atPixel
  simp only
  split_ifs <;> first | rfl | (exact absurd ⟨by tauto, by tauto⟩ h2)

theorem advancePixel_last (s : State) (fb : List Host.Cell) :
    advancePixel (atPixel s fb (pixelNo 63)) = advanceEntry (atPixel s fb (0, 0)) := rfl

theorem pixelStep_atPixel {s : State} (h : s.seq.phase = .map ∨ s.seq.phase = .sprite) (fb : List Host.Cell)
    (k : BitVec 3 × BitVec 3) :
    pixelStep (atPixel s fb k) =
      match entryPixel s fb k with
      | .ok fb' => advancePixel (atPixel s fb' k)
      | .error r => enterFault (atPixel s fb k) r false := by
  have : pixelStep (atPixel s fb k) = pixelWork (atPixel s fb k) := by
    rcases h with h | h <;> simp [pixelStep, atPixel, h]
  rw [this, pixelWork, pixelBody_atPixel]
  cases entryPixel s fb k <;> rfl

theorem runPixels_from {s : State} (h : s.seq.phase = .map ∨ s.seq.phase = .sprite) (n : Nat) :
    ∀ j fb, j + (n + 1) = 64 →
      runPixels (n + 1) (atPixel s fb (pixelNo j)) =
        entryEnd s (runList (entryPixel s) ((List.range' j (n + 1)).map pixelNo) fb) := by
  induction n with
  | zero =>
    intro j fb hj
    obtain rfl : j = 63 := by omega
    rw [runPixels, pixelStep_atPixel h, runPixels, List.range'_succ, List.map_cons, runList]
    cases entryPixel s fb (pixelNo 63) with
    | ok fb' => exact advancePixel_last s fb'
    | error r => rfl
  | succ n ih =>
    intro j fb hj
    rw [runPixels, pixelStep_atPixel h, List.range'_succ, List.map_cons, runList]
    cases entryPixel s fb (pixelNo j) with
    | ok fb' =>
      simp only
      rw [advancePixel_inside s fb' j (by omega)]
      exact ih (j + 1) fb' (by omega)
    | error r => exact runPixels_fault (by rfl) _

/-- The run of an entry, as a fold over its 64 pixels. -/
theorem runEntry_eq {s : State} (h : s.seq.phase = .map ∨ s.seq.phase = .sprite) :
    runEntry s = entryEnd s (runList (entryPixel s) blockPixels s.fb) := by
  have hb : blockPixels = (List.range' 0 64).map pixelNo := by rw [← List.range_eq_range']; rfl
  rw [hb]
  exact runPixels_from h 63 0 s.fb rfl

end Sys2Proof.Machine
end

