-- ==== Sys2Proof/Laws/Encoding.lean ====
section
/-! SUPPORT. The bits of a packed field, and that unpacking gives back what was packed, for every layout whose fields do not
overlap. -/

namespace Sys2Proof

open Sys2Proof.Machine

/-- Bit `i` of a field of width `k` placed at bit `lo`. -/
theorem field_bit {k W : Nat} (v : BitVec k) (lo i : Nat) (h : lo + k ≤ W) :
    (v.setWidth W <<< lo).getLsbD i = (decide (lo ≤ i ∧ i < lo + k) && v.getLsbD (i - lo)) := by
  simp only [BitVec.getLsbD_shiftLeft, BitVec.getLsbD_setWidth]
  by_cases h1 : lo ≤ i ∧ i < lo + k
  · have : i < W := by omega
    have : ¬ i < lo := by omega
    have : i - lo < W := by omega
    simp [*]
  · by_cases h2 : i < lo
    · simp [h2, show ¬ lo ≤ i by omega]
    · simp [h1, BitVec.getLsbD_of_ge v (i - lo) (by omega)]

/-- What `fieldsApart` checks. -/
theorem fieldsApart_iff {a wa b wb : Nat} (h : fieldsApart a wa b wb = true) : a + wa ≤ b ∨ b + wb ≤ a := by
  simpa [fieldsApart] using h

/-- A packed cell decodes to the fields packed (R94). -/
theorem decodeCell_packCell (l : Layout) (h : l.cellFits = true) (t : BitVec 6) (p : BitVec 2) :
    decodeCell l (packCell l t p) = .mapcell t p := by
  simp only [Layout.cellFits, Bool.and_eq_true, decide_eq_true_eq] at h
  obtain ⟨⟨h1, h2⟩, h3⟩ := h
  have h3 := fieldsApart_iff h3
  unfold decodeCell packCell
  congr 1
  · ext i hi
    simp only [BitVec.getElem_extractLsb', BitVec.getLsbD_or, field_bit _ _ _ h1, field_bit _ _ _ h2]
    rw [decide_eq_true (by omega), decide_eq_false (by omega)]
    simp [BitVec.getLsbD_eq_getElem hi]
  · ext i hi
    simp only [BitVec.getElem_extractLsb', BitVec.getLsbD_or, field_bit _ _ _ h1, field_bit _ _ _ h2]
    rw [decide_eq_false (by omega), decide_eq_true (by omega)]
    simp [BitVec.getLsbD_eq_getElem hi]

/-- Every field of a packed sprite word is the one packed (R95). -/
theorem packSprite_fields (l : Layout) (h1 : l.spriteFits = true) (h2 : l.spriteApart = true) (t : BitVec 8)
    (p : BitVec 5) (m : BitVec 2) (x y : BitVec 8) :
    (packSprite l t p m x y).extractLsb' l.sprTile 8 = t ∧ (packSprite l t p m x y).extractLsb' l.sprPal 5 = p ∧
    (packSprite l t p m x y).extractLsb' l.sprMode 2 = m ∧ (packSprite l t p m x y).extractLsb' l.sprX 8 = x ∧
    (packSprite l t p m x y).extractLsb' l.sprY 8 = y := by
  simp only [Layout.spriteFits, Layout.spriteApart, Bool.and_eq_true, decide_eq_true_eq] at h1 h2
  obtain ⟨⟨⟨⟨a1, a2⟩, a3⟩, a4⟩, a5⟩ := h1
  obtain ⟨⟨⟨⟨⟨⟨⟨⟨⟨b1, b2⟩, b3⟩, b4⟩, b5⟩, b6⟩, b7⟩, b8⟩, b9⟩, b10⟩ := h2
  have c1 := fieldsApart_iff b1; have c2 := fieldsApart_iff b2; have c3 := fieldsApart_iff b3
  have c4 := fieldsApart_iff b4; have c5 := fieldsApart_iff b5; have c6 := fieldsApart_iff b6
  have c7 := fieldsApart_iff b7; have c8 := fieldsApart_iff b8; have c9 := fieldsApart_iff b9
  have c10 := fieldsApart_iff b10
  unfold packSprite
  refine ⟨?_, ?_, ?_, ?_, ?_⟩ <;>
    (ext i hi
     simp only [BitVec.getElem_extractLsb', BitVec.getLsbD_or, field_bit _ _ _ a1, field_bit _ _ _ a2, field_bit _ _ _ a3,
       field_bit _ _ _ a4, field_bit _ _ _ a5])
  · rw [decide_eq_true (by omega), decide_eq_false (by omega), decide_eq_false (by omega),
      decide_eq_false (by omega), decide_eq_false (by omega)]
    simp [BitVec.getLsbD_eq_getElem hi]
  · rw [decide_eq_false (by omega), decide_eq_true (by omega), decide_eq_false (by omega),
      decide_eq_false (by omega), decide_eq_false (by omega)]
    simp [BitVec.getLsbD_eq_getElem hi]
  · rw [decide_eq_false (by omega), decide_eq_false (by omega), decide_eq_true (by omega),
      decide_eq_false (by omega), decide_eq_false (by omega)]
    simp [BitVec.getLsbD_eq_getElem hi]
  · rw [decide_eq_false (by omega), decide_eq_false (by omega), decide_eq_false (by omega),
      decide_eq_true (by omega), decide_eq_false (by omega)]
    simp [BitVec.getLsbD_eq_getElem hi]
  · rw [decide_eq_false (by omega), decide_eq_false (by omega), decide_eq_false (by omega),
      decide_eq_false (by omega), decide_eq_true (by omega)]
    simp [BitVec.getLsbD_eq_getElem hi]

/-! The bytes of an operand, put together again, are the operand. -/

theorem join_bytes16 (v : BitVec 16) : v.extractLsb' 8 8 ++ v.extractLsb' 0 8 = v := half_of_bytes v

theorem join_bytes24 (v : BitVec 24) : v.extractLsb' 16 8 ++ (v.extractLsb' 8 8 ++ v.extractLsb' 0 8) = v := by
  ext i hi
  simp only [BitVec.getElem_append, BitVec.getElem_extractLsb']
  split_ifs
  all_goals (rw [← BitVec.getLsbD_eq_getElem]; congr 1; omega)

theorem join_bytes32 (v : BitVec 32) :
    v.extractLsb' 24 8 ++ (v.extractLsb' 16 8 ++ (v.extractLsb' 8 8 ++ v.extractLsb' 0 8)) = v := by
  ext i hi
  simp only [BitVec.getElem_append, BitVec.getElem_extractLsb']
  split_ifs
  all_goals (rw [← BitVec.getLsbD_eq_getElem]; congr 1; omega)

end Sys2Proof
end

