-- ==== Sys2Proof/Laws/Exec.lean ====
section
/-! SUPPORT. Everything an instruction and a step can do, said once (`Effect`, `exec_effect`, `step_effect`), and that each
of these effects keeps the invariant's parts. -/

namespace Sys2Proof.Machine

/-! ### The run of an entry -/

/-- A fold that may stop keeps what each of its steps keeps. -/
theorem runList_keeps {κ β : Type} {f : β → κ → Except Raise β} {P : β → Prop}
    (h : ∀ b k b', P b → f b k = .ok b' → P b') (ks : List κ) {b : β} (hb : P b) : P (runList f ks b).1 := by
  induction ks generalizing b with
  | nil => exact hb
  | cons k ks ih =>
    rw [runList]
    cases hk : f b k with
    | error r => exact hb
    | ok b' => exact ih (h b k b' hb hk)

/-- A pixel of the entry in progress is nothing, or one pixel write. -/
theorem entryPixel_ok {s : State} {fb fb' : List Host.Cell} {k : BitVec 3 × BitVec 3}
    (h : entryPixel s fb k = .ok fb') : fb' = fb ∨ ∃ px py c a, fb' = writePixel s.cfg fb px py c a := by
  have h0 := pixelBody_atPixel s fb k
  rw [h] at h0
  rcases pixelBody_ok h0 with h1 | ⟨px, py, c, a, h1⟩
  · exact .inl (congrArg State.fb h1)
  · exact .inr ⟨px, py, c, a, congrArg State.fb h1⟩

/-- The pixels of an entry keep the canonical form of `FB`. -/
theorem entryFold_wf {s : State} (h : FrameBuffer.wf s.cfg s.fb) (ks : List (BitVec 3 × BitVec 3)) :
    FrameBuffer.wf s.cfg (runList (entryPixel s) ks s.fb).1 :=
  runList_keeps (P := FrameBuffer.wf s.cfg)
    (fun b k b' hb hk => by
      rcases entryPixel_ok hk with rfl | ⟨px, py, c, a, rfl⟩
      · exact hb
      · exact writePixel_wf hb px py c a) ks h

/-- The entry is over: every pixel done, or the first raise. `fb` is the framebuffer it leaves. -/
theorem runEntry_cases {s : State} (h : s.seq.phase = .map ∨ s.seq.phase = .sprite) :
    ∃ fb, (FrameBuffer.wf s.cfg s.fb → FrameBuffer.wf s.cfg fb) ∧
      (runEntry s = advanceEntry (atPixel s fb (0, 0)) ∨ ∃ r k, runEntry s = enterFault (atPixel s fb k) r false) := by
  refine ⟨(runList (entryPixel s) blockPixels s.fb).1, fun hw => entryFold_wf hw _, ?_⟩
  rw [runEntry_eq h]
  rcases runList (entryPixel s) blockPixels s.fb with ⟨fb, _ | ⟨r, k⟩⟩
  · exact .inl rfl
  · exact .inr ⟨r, k, rfl⟩

/-- The advance to the next entry leaves both memories, the configuration, the fault record and the inputs alone. -/
theorem advanceEntry_keep (s : State) :
    (advanceEntry s).cfg = s.cfg ∧ (advanceEntry s).mem = s.mem ∧ (advanceEntry s).fb = s.fb ∧
      (advanceEntry s).port = s.port ∧ (advanceEntry s).finfo = s.finfo ∧ (advanceEntry s).epoch = s.epoch ∧
      (advanceEntry s).latch = s.latch := by
  unfold advanceEntry
  split <;> (try split) <;> simp [completeFrame]

/-! ### What an instruction can do -/

/-- Everything an instruction can make of a state. -/
inductive Effect (s : State) : State → Prop
  /-- Nothing: a command held while a frame executes, a unit operation in `FAULT`, an entry outside its own pass. -/
  | nothing : Effect s s
  /-- An answer to the host and nothing else. -/
  | answer (r : Response) (h : s.seq.phase = .idle ∨ s.seq.phase = .fault) : Effect s (respond s r)
  /-- A host command's write to `MEM`. -/
  | write (t : State) (h : s.seq.phase = .idle) (w : WroteMem s t) : Effect s (respond t .ok)
  /-- The fault entry. -/
  | fault (r : Raise) (host : Bool) (h : s.seq.phase ≠ .fault) : Effect s (enterFault s r host)
  /-- A frame is started. -/
  | frame (h : s.seq.phase = .idle) : Effect s (startFrame s)
  /-- The `RESET` command. -/
  | reset : Effect s (respond (resetEvent s) .ok)
  /-- A unit delivers its result. -/
  | unit (u : UnitResult) : Effect s { s with unitOut := u }
  /-- A pixel write on its own. -/
  | pixel (px py : Nat) (c : Channels) (a : Bool) : Effect s (fbWrite s px py c a)
  /-- A display-list entry runs to its end. -/
  | entry (l : Latch) (fb : List Host.Cell) (h : s.seq.phase = .map ∨ s.seq.phase = .sprite)
      (w : FrameBuffer.wf s.cfg s.fb → FrameBuffer.wf s.cfg fb) :
      Effect s (advanceEntry (atPixel { s with latch := l } fb (0, 0)))
  /-- A display-list entry raises at pixel `k`. -/
  | raise (l : Latch) (fb : List Host.Cell) (r : Raise) (k : BitVec 3 × BitVec 3)
      (h : s.seq.phase = .map ∨ s.seq.phase = .sprite)
      (w : FrameBuffer.wf s.cfg s.fb → FrameBuffer.wf s.cfg fb) :
      Effect s (enterFault (atPixel { s with latch := l } fb k) r false)

theorem Effect.ofRun {s : State} (l : Latch) (h : s.seq.phase = .map ∨ s.seq.phase = .sprite) :
    Effect s (runEntry { s with latch := l }) := by
  obtain ⟨fb, hw, he | ⟨r, k, he⟩⟩ := runEntry_cases (s := { s with latch := l }) h
  · rw [he]; exact .entry l fb h hw
  · rw [he]; exact .raise l fb r k h hw

theorem Effect.ofSprite (t : BitVec 8) (p : BitVec 5) (m : BitVec 2) (x y : BitVec 8) (s : State) :
    Effect s (spritePixels t p m x y s) := by
  unfold spritePixels inSpritePass
  cases hp : s.seq.phase
  · exact .nothing
  · exact .nothing
  · exact .ofRun _ (.inr hp)
  · exact .nothing

theorem Effect.ofRead {α : Type} (s : State) (res : Except Raise α) (f : α → Response) :
    Effect s (onCommand s fun s => hostRead s res f) := by
  rcases onCommand_cases s (fun s => hostRead s res f) with ⟨hp, h⟩ | ⟨hp, h⟩ | ⟨hp, h⟩ <;> rw [h]
  · cases res with
    | ok v => exact .answer _ (.inl hp)
    | error r => exact .fault r true (by simp [hp])
  · exact .answer _ (.inr hp)
  · exact .nothing

theorem Effect.ofWrite (s : State) (res : Except Raise State) (w : ∀ t, res = .ok t → WroteMem s t) :
    Effect s (onCommand s fun s => hostWrite s res) := by
  rcases onCommand_cases s (fun s => hostWrite s res) with ⟨hp, h⟩ | ⟨hp, h⟩ | ⟨hp, h⟩ <;> rw [h]
  · cases hr : res with
    | ok t => exact .write t hp (w t hr)
    | error r => exact .fault r true (by simp [hp])
  · exact .answer _ (.inr hp)
  · exact .nothing

theorem Effect.ofUnit {α : Type} (s : State) (res : Except Raise α) (f : α → UnitResult) :
    Effect s (onUnit s fun s => unitDelivers s res f) := by
  rcases onUnit_cases s (fun s => unitDelivers s res f) with ⟨hp, h⟩ | ⟨hp, h⟩ <;> rw [h]
  · cases res with
    | ok v => exact .unit _
    | error r => exact .fault r false hp
  · exact .nothing

/-- Every instruction, in every state, has a next state, and it is one of the effects above. -/
theorem exec_effect (i : Instr) (s : State) : ∃ t, exec i s = .next t ∧ Effect s t := by
  cases i with
  | mapcell t p =>
    refine ⟨_, rfl, ?_⟩
    unfold inMapPass
    cases hp : s.seq.phase
    · exact .nothing
    · exact .ofRun _ (.inl hp)
    · exact .nothing
    · exact .nothing
  | sprOpaque t p x y => exact ⟨_, rfl, .ofSprite ..⟩
  | sprBack t p x y => exact ⟨_, rfl, .ofSprite ..⟩
  | sprFront t p x y => exact ⟨_, rfl, .ofSprite ..⟩
  | sprDisabled =>
    refine ⟨_, rfl, ?_⟩
    unfold inSpritePass
    cases hp : s.seq.phase
    · exact .nothing
    · exact .nothing
    · exact .entry s.latch s.fb (.inr hp) id
    · exact .nothing
  | decodePixel t ly lx => exact ⟨_, rfl, .ofUnit s (decodePixel s t ly lx) _⟩
  | resolveColor p b => exact ⟨_, rfl, .ofUnit s (resolveColor s p b) _⟩
  | expandToChannels c =>
    refine ⟨_, rfl, ?_⟩
    rcases onUnit_cases s (fun s => { s with unitOut := .channels (expand c).r (expand c).g (expand c).b }) with
      ⟨hp, h⟩ | ⟨hp, h⟩ <;> rw [h]
    · exact .unit _
    · exact .nothing
  | fbWrite px py r g b a =>
    refine ⟨_, rfl, ?_⟩
    rcases onUnit_cases s (fun s => fbWrite s px.toNat py.toNat { r := r, g := g, b := b } (a == 1#1)) with
      ⟨hp, h⟩ | ⟨hp, h⟩ <;> rw [h]
    · exact .pixel ..
    · exact .nothing
  | tileRd i => exact ⟨_, rfl, .ofRead s (tileRead s i.toNat) _⟩
  | tileWr i d => exact ⟨_, rfl, .ofWrite s (tileWrite s i.toNat d) fun _ h => tileWrite_wrote h⟩
  | sprRd i => exact ⟨_, rfl, .ofRead s (sprRead s i.toNat) _⟩
  | sprWr i d => exact ⟨_, rfl, .ofWrite s (sprWrite s i.toNat d) fun _ h => sprWrite_wrote h⟩
  | palRd i => exact ⟨_, rfl, .ofRead s (palRead s i.toNat) _⟩
  | palWr i d => exact ⟨_, rfl, .ofWrite s (palWrite s i.toNat d) fun _ h => palWrite_wrote h⟩
  | mapRd i => exact ⟨_, rfl, .ofRead s (mapRead s i.toNat) _⟩
  | mapWr i d => exact ⟨_, rfl, .ofWrite s (mapWrite s i.toNat d) fun _ h => mapWrite_wrote h⟩
  | setMapCell row col t p =>
    exact ⟨_, rfl, .ofWrite s (mapWrite s _ (cellOperand s.cfg.layout t p)) fun _ h => mapWrite_wrote h⟩
  | putSprite slot t p x y m =>
    exact ⟨_, rfl, .ofWrite s (sprWrite s _ (spriteOperand s.cfg.layout t p x y m)) fun _ h => sprWrite_wrote h⟩
  | renderFrame =>
    refine ⟨_, rfl, ?_⟩
    rcases onCommand_cases s startFrame with ⟨hp, h⟩ | ⟨hp, h⟩ | ⟨hp, h⟩ <;> rw [h]
    · exact .frame hp
    · exact .answer _ (.inr hp)
    · exact .nothing
  | fbRd a =>
    refine ⟨_, rfl, ?_⟩
    rcases onCommand_cases s (fun s => if s.cfg.fbSize ≤ a.toNat then respond s .refused
      else respond s (.ok8 (fbByte s a.toNat))) with ⟨hp, h⟩ | ⟨hp, h⟩ | ⟨hp, h⟩ <;> rw [h]
    · split_ifs
      · exact .answer _ (.inl hp)
      · exact .answer _ (.inl hp)
    · exact .answer _ (.inr hp)
    · exact .nothing
  | statusRd =>
    simp only [exec, execStatusRd]
    cases hp : s.seq.phase
    · exact ⟨_, rfl, .answer _ (.inl hp)⟩
    · exact ⟨_, rfl, .nothing⟩
    · exact ⟨_, rfl, .nothing⟩
    · exact ⟨_, rfl, .answer _ (.inr hp)⟩
  | reset => exact ⟨_, rfl, .reset⟩

/-- Two answers of one instruction are one. -/
theorem Effect.of_exec {i : Instr} {s t : State} (h : exec i s = .next t) : Effect s t := by
  obtain ⟨u, hu, he⟩ := exec_effect i s
  rw [hu] at h
  cases h; exact he

/-! ### What a step can do -/

/-- The state an instruction is executed in: the one before the step, with the reset input's level passed and at most the
input it was fetched from taken. -/
structure Took (s t : State) : Prop where
  same : t = { s with resetIn := s.resetIn.tail, port := t.port, unitIn := t.unitIn }
  port : t.port = s.port ∨ ((s.seq.phase = .idle ∨ s.seq.phase = .fault) ∧ t.port = s.port.tail)

/-- What a step without reset does once the state `u` has taken its input: nothing, an instruction, the answer to a record
that is no command, or a raise of the fetch (only outside the display list). -/
def Proceeds (s u : State) : Prop :=
  step s = .next u ∨ (∃ i, step s = exec i u) ∨ step s = .next (answerNotACommand u) ∨
    ∃ r, (s.seq.phase = .map ∨ s.seq.phase = .sprite) ∧ step s = .next (enterFault u r false)

theorem Proceeds.ofItem {s t : State} {e : Encoded} (hr : resetAsserted s = false)
    (h : fetch (clockReset s) = .item e t) : Proceeds s t := by
  have hs : step s = match decode t.cfg.layout e with
      | .ok i => exec i t
      | .error _ => .next (answerNotACommand t) := by
    simp only [step, hr, Bool.false_eq_true, if_false, h] <;> rfl
  unfold Proceeds
  rw [hs]
  cases decode t.cfg.layout e with
  | ok i => exact .inr (.inl ⟨i, rfl⟩)
  | error e => exact .inr (.inr (.inl rfl))

theorem Proceeds.ofNothing {s t : State} (hr : resetAsserted s = false) (h : fetch (clockReset s) = .nothing t) :
    Proceeds s t :=
  .inl (by simp only [step, hr, Bool.false_eq_true, if_false, h])

theorem Proceeds.ofRaise {s t : State} {r : Raise} (hr : resetAsserted s = false)
    (hp : s.seq.phase = .map ∨ s.seq.phase = .sprite) (h : fetch (clockReset s) = .raised r t) : Proceeds s t :=
  .inr (.inr (.inr ⟨r, hp, by simp only [step, hr, Bool.false_eq_true, if_false, h]⟩))

/-- Everything a step can do: the reset event, or, on the state with its input taken, what `Proceeds` lists. -/
theorem step_effect (s : State) :
    (resetAsserted s = true ∧ step s = .next (resetEvent (clockReset s))) ∨
    (resetAsserted s = false ∧ ∃ u, Took s u ∧ Proceeds s u) := by
  by_cases hr : resetAsserted s = true
  · exact .inl ⟨hr, by simp [step, hr]⟩
  rw [Bool.not_eq_true] at hr
  refine .inr ⟨hr, ?_⟩
  cases hu : s.unitIn with
  | some u =>
    exact ⟨{ clockReset s with unitIn := none }, ⟨rfl, .inl rfl⟩, .ofItem (e := .unit u) hr (by simp [fetch, hu])⟩
  | none =>
    have hf : fetch (clockReset s) = fetchByPhase (clockReset s) := by simp [fetch, hu]
    have hport (hp : s.seq.phase = .idle ∨ s.seq.phase = .fault) : ∃ u, Took s u ∧ Proceeds s u := by
      have hf' : fetch (clockReset s) = fetchCommand (clockReset s) := by
        rw [hf]; rcases hp with h | h <;> simp [fetchByPhase, h]
      cases hc : s.port with
      | nil => exact ⟨clockReset s, ⟨rfl, .inl rfl⟩, .ofNothing hr (by rw [hf']; simp [fetchCommand, hc])⟩
      | cons c cs =>
        exact ⟨{ clockReset s with port := cs }, ⟨rfl, .inr ⟨hp, by simp [hc]⟩⟩,
          .ofItem (e := .command c) hr (by rw [hf']; simp [fetchCommand, hc])⟩
    cases hp : s.seq.phase with
    | idle => exact hport (.inl hp)
    | fault => exact hport (.inr hp)
    | map =>
      refine ⟨clockReset s, ⟨rfl, .inl rfl⟩, ?_⟩
      have hf' : fetch (clockReset s) = fetchCell (clockReset s) := by rw [hf]; simp [fetchByPhase, hp]
      unfold fetchCell at hf'
      cases hm : mapRead (clockReset s) (clockReset s).seq.entry with
      | ok b => rw [hm] at hf'; exact .ofItem hr hf'
      | error r => rw [hm] at hf'; exact .ofRaise hr (.inl hp) hf'
    | sprite =>
      refine ⟨clockReset s, ⟨rfl, .inl rfl⟩, ?_⟩
      have hf' : fetch (clockReset s) = fetchSprite (clockReset s) := by rw [hf]; simp [fetchByPhase, hp]
      unfold fetchSprite at hf'
      cases hm : sprRead (clockReset s) (clockReset s).seq.entry with
      | ok w => rw [hm] at hf'; exact .ofItem hr hf'
      | error r => rw [hm] at hf'; exact .ofRaise hr (.inr hp) hf'

end Sys2Proof.Machine
end

