-- ==== Sys2Proof/Laws/Frame.lean ====
section
/-! SUPPORT. The frame as a list of pixel writes. A pixel of the display list either raises or asks for at most one pixel
write, and what it asks for depends on the configuration and `MEM` alone; a framebuffer after a list of writes reads at each
byte what the last write to it left there, or what was there before. -/

namespace Sys2Proof.Machine

/-! ### Lists of pixel writes -/

/-- One `FbWrite`. -/
structure PixelWrite where
  px : Nat
  py : Nat
  c : Channels
  setA : Bool

/-- The framebuffer after a list of writes, the first one first. -/
def applyWrites (cfg : Config) (fb : List Host.Cell) (ws : List PixelWrite) : List Host.Cell :=
  ws.foldl (fun m w => writePixel cfg m w.px w.py w.c w.setA) fb

/-- What a write leaves listed at byte `b`, if it touches that byte: a colour, or nothing for an opacity byte. -/
def touch (cfg : Config) (w : PixelWrite) (b : Nat) : Option (Option Byte) :=
  if cfg.width ≤ w.px ∨ cfg.height ≤ w.py then none
  else if b = cfg.pixelAddr w.px w.py then some (some w.c.r)
  else if b = cfg.pixelAddr w.px w.py + 1 then some (some w.c.g)
  else if b = cfg.pixelAddr w.px w.py + 2 then some (some w.c.b)
  else if b = cfg.pixelAddr w.px w.py + 3 ∧ w.setA = true then some none else none

/-- What the last write of a list that touches byte `b` leaves there. -/
def written (cfg : Config) : List PixelWrite → Nat → Option (Option Byte)
  | [], _ => none
  | w :: ws, b => (written cfg ws b).or (touch cfg w b)

theorem writePixel_lookup (cfg : Config) (m : List Host.Cell) (w : PixelWrite) (b : Nat) :
    cellLookup (writePixel cfg m w.px w.py w.c w.setA) b = (touch cfg w b).getD (cellLookup m b) := by
  unfold writePixel touch
  by_cases h : cfg.width ≤ w.px ∨ cfg.height ≤ w.py
  · simp [h]
  · rw [if_neg h, if_neg h, storePixel_lookup]
    split_ifs <;> rfl

theorem applyWrites_append (cfg : Config) (fb : List Host.Cell) (us ws : List PixelWrite) :
    applyWrites cfg fb (us ++ ws) = applyWrites cfg (applyWrites cfg fb us) ws := by
  simp [applyWrites]

/-- What a byte reads after a list of writes, whatever was there before. -/
theorem applyWrites_lookup (cfg : Config) (ws : List PixelWrite) (fb : List Host.Cell) (b : Nat) :
    cellLookup (applyWrites cfg fb ws) b = (written cfg ws b).getD (cellLookup fb b) := by
  induction ws generalizing fb with
  | nil => rfl
  | cons w ws ih =>
    rw [show applyWrites cfg fb (w :: ws) = applyWrites cfg (writePixel cfg fb w.px w.py w.c w.setA) ws from rfl, ih,
      writePixel_lookup, written]
    cases written cfg ws b <;> rfl

theorem applyWrites_wf {cfg : Config} {fb : List Host.Cell} (h : FrameBuffer.wf cfg fb) (ws : List PixelWrite) :
    FrameBuffer.wf cfg (applyWrites cfg fb ws) := by
  induction ws generalizing fb with
  | nil => exact h
  | cons w ws ih => exact ih (writePixel_wf h w.px w.py w.c w.setA)

theorem written_none {cfg : Config} {ws : List PixelWrite} {b : Nat} (h : ∀ w ∈ ws, touch cfg w b = none) :
    written cfg ws b = none := by
  induction ws with
  | nil => rfl
  | cons w ws ih => simp [written, ih fun w hw => h w (by simp [hw]), h w (by simp)]

/-- Where all the writes that touch a byte leave the same there, the list leaves it. -/
theorem written_some {cfg : Config} {ws : List PixelWrite} {b : Nat} {v : Option Byte}
    (h : ∀ w ∈ ws, touch cfg w b = none ∨ touch cfg w b = some v) (he : ∃ w ∈ ws, touch cfg w b = some v) :
    written cfg ws b = some v := by
  induction ws with
  | nil => simp at he
  | cons w ws ih =>
    have hw := h w (by simp)
    have ht : ∀ u ∈ ws, touch cfg u b = none ∨ touch cfg u b = some v := fun u hu => h u (by simp [hu])
    by_cases hx : ∃ u ∈ ws, touch cfg u b = some v
    · simp [written, ih ht hx]
    · have hn : written cfg ws b = none := written_none fun u hu => (ht u hu).resolve_right fun hs => hx ⟨u, hu, hs⟩
      obtain ⟨u, hu, hs⟩ := he
      rcases List.mem_cons.1 hu with rfl | hu
      · simp [written, hn, hs]
      · exact absurd ⟨u, hu, hs⟩ hx

/-- A byte that some write touches is touched by the list. -/
theorem written_isSome {cfg : Config} {ws : List PixelWrite} {b : Nat} {w : PixelWrite} (hw : w ∈ ws)
    (h : (touch cfg w b).isSome = true) : (written cfg ws b).isSome = true := by
  induction ws with
  | nil => simp at hw
  | cons u ws ih =>
    rcases List.mem_cons.1 hw with rfl | hw
    · simp [written, h]
    · simp [written, ih hw]

/-- A colour byte is never left unlisted. -/
theorem written_colour {cfg : Config} {ws : List PixelWrite} {b : Nat} (hb : b % 4 ≠ 3) : written cfg ws b ≠ some none := by
  have ht : ∀ w, touch cfg w b ≠ some none := by
    intro w
    have := pixelAddr_mod cfg w.px w.py
    unfold touch
    split_ifs with h1 h2 h3 h4 h5
    · simp
    · simp
    · simp
    · simp
    · omega
    · simp
  induction ws with
  | nil => simp [written]
  | cons w ws ih =>
    simp only [written]
    cases h : written cfg ws b with
    | none => simpa using ht w
    | some v => simpa [h] using ih

/-- A write touches only bytes of its own pixel, on the surface. -/
theorem touch_bounds {cfg : Config} {w : PixelWrite} {b : Nat} (h : touch cfg w b ≠ none) :
    w.px < cfg.width ∧ w.py < cfg.height ∧ cfg.pixelAddr w.px w.py ≤ b ∧ b < cfg.pixelAddr w.px w.py + 4 ∧
      (w.setA = false → b < cfg.pixelAddr w.px w.py + 3) := by
  unfold touch at h
  split_ifs at h with h1 h2 h3 h4 h5
  · exact absurd rfl h
  · refine ⟨by omega, by omega, by omega, by omega, fun _ => by omega⟩
  · refine ⟨by omega, by omega, by omega, by omega, fun _ => by omega⟩
  · refine ⟨by omega, by omega, by omega, by omega, fun _ => by omega⟩
  · refine ⟨by omega, by omega, by omega, by omega, fun hf => by simp [hf] at h5⟩
  · exact absurd rfl h

/-- Two writes that touch one byte write one pixel. -/
theorem touch_same_pixel {cfg : Config} {v w : PixelWrite} {b : Nat} (hv : touch cfg v b ≠ none)
    (hw : touch cfg w b ≠ none) : v.px = w.px ∧ v.py = w.py := by
  obtain ⟨a1, a2, a3, a4, _⟩ := touch_bounds hv
  obtain ⟨b1, b2, b3, b4, _⟩ := touch_bounds hw
  have m1 := pixelAddr_mod cfg v.px v.py
  have m2 := pixelAddr_mod cfg w.px w.py
  exact pixelAddr_inj cfg a1 b1 (by omega)

/-- What a write on the surface leaves at its pixel's bytes. -/
theorem touch_pixel (cfg : Config) (w : PixelWrite) (hx : w.px < cfg.width) (hy : w.py < cfg.height) :
    touch cfg w (cfg.pixelAddr w.px w.py) = some (some w.c.r) ∧
      touch cfg w (cfg.pixelAddr w.px w.py + 1) = some (some w.c.g) ∧
      touch cfg w (cfg.pixelAddr w.px w.py + 2) = some (some w.c.b) ∧
      (w.setA = true → touch cfg w (cfg.pixelAddr w.px w.py + 3) = some none) := by
  have hn : ¬ (cfg.width ≤ w.px ∨ cfg.height ≤ w.py) := by omega
  unfold touch
  simp only [if_neg hn]
  exact ⟨by simp, by simp, by simp, fun h => by simp [h]⟩

/-- Where the writes of a list go to different pixels, each leaves what it writes. -/
theorem written_distinct {cfg : Config} {ws : List PixelWrite}
    (hd : ∀ v ∈ ws, ∀ w ∈ ws, v.px = w.px → v.py = w.py → v = w) {w : PixelWrite} (hw : w ∈ ws) {b : Nat}
    {v : Option Byte} (ht : touch cfg w b = some v) : written cfg ws b = some v := by
  refine written_some (fun u hu => ?_) ⟨w, hw, ht⟩
  by_cases hn : touch cfg u b = none
  · exact .inl hn
  · obtain ⟨h1, h2⟩ := touch_same_pixel hn (show touch cfg w b ≠ none by simp [ht])
    rw [hd u hu w hw h1 h2]; exact .inr ht

/-! ### What the display list asks for -/

/-- A stage that only adds writes: what it asks for does not depend on the framebuffer. -/
def Planned {κ : Type} (cfg : Config) (f : List Host.Cell → κ → Except Raise (List Host.Cell))
    (plan : κ → Except Raise (List PixelWrite)) : Prop :=
  ∀ fb k, f fb k = (plan k).map (applyWrites cfg fb)

/-- A stage made of planned stages is planned, as the writes of its parts one after another. -/
theorem foldlM_planned {κ : Type} {cfg : Config} {f : List Host.Cell → κ → Except Raise (List Host.Cell)}
    {plan : κ → Except Raise (List PixelWrite)} (h : Planned cfg f plan) (ks : List κ) (fb : List Host.Cell) :
    ks.foldlM f fb = (ks.mapM plan).map fun wss => applyWrites cfg fb wss.flatten := by
  induction ks generalizing fb with
  | nil => rfl
  | cons k ks ih =>
    rw [List.foldlM_cons, List.mapM_cons, h]
    cases plan k with
    | error r => rfl
    | ok ws =>
      refine (ih (applyWrites cfg fb ws)).trans ?_
      cases ks.mapM plan with
      | error r => rfl
      | ok wss =>
        exact congrArg Except.ok (by simp only [List.flatten_cons, applyWrites_append])

/-- What one pixel of a map cell asks for (R132). -/
def cellPixelPlan (s : State) (entry : Nat) (t : BitVec 8) (p : BitVec 5) (k : BitVec 3 × BitVec 3) :
    Except Raise (List PixelWrite) :=
  match decodePixel s t k.1 k.2 with
  | .error r => .error r
  | .ok bit =>
    match resolveColor s p bit with
    | .error r => .error r
    | .ok c => .ok [⟨8 * cellCol s entry + k.2.toNat, 8 * cellRow s entry + k.1.toNat, expand c, false⟩]

/-- What one pixel of a sprite asks for (R139). -/
def spritePixelPlan (s : State) (t : BitVec 8) (p : BitVec 5) (m : BitVec 2) (x y : BitVec 8)
    (k : BitVec 3 × BitVec 3) : Except Raise (List PixelWrite) :=
  match decodePixel s t k.1 k.2 with
  | .error r => .error r
  | .ok bit =>
    if transparent m bit then .ok []
    else
      match resolveColor s p bit with
      | .error r => .error r
      | .ok c => .ok [⟨x.toNat + k.2.toNat, y.toNat + k.1.toNat, expand c, true⟩]

theorem cellPixel_planned (s : State) (entry : Nat) (t : BitVec 8) (p : BitVec 5) :
    Planned s.cfg (cellPixel s entry t p) (cellPixelPlan s entry t p) := by
  intro fb k
  unfold cellPixel cellPixelPlan
  cases decodePixel s t k.1 k.2 with
  | error r => rfl
  | ok bit =>
    simp only
    cases resolveColor s p bit <;> rfl

theorem spritePixel_planned (s : State) (t : BitVec 8) (p : BitVec 5) (m : BitVec 2) (x y : BitVec 8) :
    Planned s.cfg (spritePixel s t p m x y) (spritePixelPlan s t p m x y) := by
  intro fb k
  unfold spritePixel spritePixelPlan
  cases decodePixel s t k.1 k.2 with
  | error r => rfl
  | ok bit =>
    simp only
    cases transparent m bit
    · simp only [Bool.false_eq_true, if_false]
      cases resolveColor s p bit <;> rfl
    · rfl

/-- The pixels of a map cell lie on the surface (R162: "cannot happen in the map pass"). -/
theorem cell_on_surface {s : State} {e : Nat} (he : e < s.cfg.cellCount) (k : BitVec 3 × BitVec 3) :
    8 * cellCol s e + k.2.toNat < s.cfg.width ∧ 8 * cellRow s e + k.1.toNat < s.cfg.height := by
  have h1 := k.1.isLt
  have h2 := k.2.isLt
  have hc : 0 < s.cfg.cols := by
    rcases Nat.eq_zero_or_pos s.cfg.cols with h | h
    · simp [Config.cellCount, h] at he
    · exact h
  have hcol : cellCol s e < s.cfg.cols := Nat.mod_lt _ hc
  have hrow : cellRow s e < s.cfg.rows := Nat.div_lt_of_lt_mul (by rw [Nat.mul_comm]; exact he)
  simp only [Config.width, Config.height]; omega

/-- `MAPCELL` in its pass is the fold of its block's pixels. -/
theorem execMapcell_run {s : State} (t : BitVec 6) (p : BitVec 2) (h : s.seq.phase = .map) :
    execMapcell t p s = .next (entryEnd (latchCell s t p)
      (runList (cellPixel s s.seq.entry (t.setWidth 8) (p.setWidth 5)) blockPixels s.fb)) := by
  have hf : entryPixel (latchCell s t p) = cellPixel s s.seq.entry (t.setWidth 8) (p.setWidth 5) := by
    funext fb k
    simp only [entryPixel, latchCell, h]; rfl
  simp only [execMapcell, inMapPass, h]
  rw [runEntry_eq (s := latchCell s t p) (.inl h), hf]; rfl

/-- A drawing sprite in its pass is the fold of its block's pixels. -/
theorem spritePixels_run {s : State} (t : BitVec 8) (p : BitVec 5) (m : BitVec 2) (x y : BitVec 8)
    (h : s.seq.phase = .sprite) :
    spritePixels t p m x y s =
      entryEnd (latchSprite s t p m x y) (runList (spritePixel s t p m x y) blockPixels s.fb) := by
  have hf : entryPixel (latchSprite s t p m x y) = spritePixel s t p m x y := by
    funext fb k
    simp only [entryPixel, latchSprite, h]; rfl
  simp only [spritePixels, inSpritePass, h]
  rw [runEntry_eq (s := latchSprite s t p m x y) (.inr h), hf]; rfl

/-! ### Runs that complete and runs that raise -/

/-- A run in which every pixel asks for writes completes with them. -/
theorem runList_ok {κ : Type} {cfg : Config} {f : List Host.Cell → κ → Except Raise (List Host.Cell)}
    {plan : κ → Except Raise (List PixelWrite)} (h : Planned cfg f plan) {W : κ → List PixelWrite} (ks : List κ)
    (hk : ∀ k ∈ ks, plan k = .ok (W k)) (fb : List Host.Cell) :
    runList f ks fb = (applyWrites cfg fb (ks.flatMap W), none) := by
  induction ks generalizing fb with
  | nil => rfl
  | cons k ks ih =>
    rw [runList, h, hk k (by simp)]
    simp only [Except.map]
    rw [ih (fun j hj => hk j (by simp [hj])), List.flatMap_cons, applyWrites_append]

/-- A run whose first pixels ask for nothing and whose next one raises stops there, with nothing written. -/
theorem runList_raise {κ : Type} {cfg : Config} {f : List Host.Cell → κ → Except Raise (List Host.Cell)}
    {plan : κ → Except Raise (List PixelWrite)} (h : Planned cfg f plan) {pre post : List κ} {k : κ} {r : Raise}
    (hp : ∀ j ∈ pre, plan j = .ok []) (hk : plan k = .error r) (fb : List Host.Cell) :
    runList f (pre ++ k :: post) fb = (fb, some (r, k)) := by
  induction pre generalizing fb with
  | nil => rw [List.nil_append, runList, h, hk]; rfl
  | cons j pre ih =>
    rw [List.cons_append, runList, h, hp j (by simp)]
    exact ih (fun i hi => hp i (by simp [hi])) fb

/-- Every pixel of a block is in the list, and the list is in raster order. -/
theorem mem_blockPixels (k : BitVec 3 × BitVec 3) : k ∈ blockPixels := by
  obtain ⟨a, b⟩ := k
  revert a b
  decide

theorem blockPixels_rise : blockPixels.Pairwise fun j k => 8 * j.1.toNat + j.2.toNat < 8 * k.1.toNat + k.2.toNat := by
  decide

/-- The first pixel of a block with a property, and that every earlier one is without it. -/
theorem blockPixels_first {P : BitVec 3 × BitVec 3 → Prop} (h : ∃ k, P k) :
    ∃ pre k post, blockPixels = pre ++ k :: post ∧ P k ∧ (∀ j ∈ pre, ¬ P j) ∧
      ∀ j : BitVec 3 × BitVec 3, 8 * j.1.toNat + j.2.toNat < 8 * k.1.toNat + k.2.toNat → ¬ P j := by
  have first : ∀ ks : List (BitVec 3 × BitVec 3), (∃ k ∈ ks, P k) →
      ∃ pre k post, ks = pre ++ k :: post ∧ P k ∧ ∀ j ∈ pre, ¬ P j := by
    intro ks
    induction ks with
    | nil => simp
    | cons k ks ih =>
      intro hk
      by_cases hp : P k
      · exact ⟨[], k, ks, rfl, hp, by simp⟩
      · obtain ⟨j, hj, hpj⟩ := hk
        rcases List.mem_cons.1 hj with rfl | hj
        · exact absurd hpj hp
        · obtain ⟨pre, i, post, rfl, hi, hpre⟩ := ih ⟨j, hj, hpj⟩
          refine ⟨k :: pre, i, post, rfl, hi, fun l hl => ?_⟩
          rcases List.mem_cons.1 hl with rfl | hl
          · exact hp
          · exact hpre l hl
  obtain ⟨k0, hk0⟩ := h
  obtain ⟨pre, k, post, he, hk, hpre⟩ := first blockPixels ⟨k0, mem_blockPixels k0, hk0⟩
  refine ⟨pre, k, post, he, hk, hpre, fun j hj => ?_⟩
  have hm := mem_blockPixels j
  have hr := blockPixels_rise
  rw [he] at hm hr
  have hr2 := (List.pairwise_cons.1 (List.pairwise_append.1 hr).2.1).1
  rcases List.mem_append.1 hm with hm | hm
  · exact hpre j hm
  · rcases List.mem_cons.1 hm with rfl | hm
    · omega
    · have := hr2 j hm; omega

/-! ### The frame and its steps -/

/-- The frame reads the configuration and `MEM` alone. -/
theorem frameCell_congr {s t : State} (hc : t.cfg = s.cfg) (hm : t.mem = s.mem) : frameCell t = frameCell s := by
  have h2 : ∀ e a b, cellPixel t e a b = cellPixel s e a b := by
    intro e a b; funext fb k
    simp [cellPixel, decodePixel_congr hc hm, resolveColor_congr hc hm, cellCol, cellRow, hc]
  funext fb e
  simp only [frameCell, mapRead, memByte, hm, h2, hc]

theorem frameSprite_congr {s t : State} (hc : t.cfg = s.cfg) (hm : t.mem = s.mem) : frameSprite t = frameSprite s := by
  have h2 : ∀ a b c d f, spritePixel t a b c d f = spritePixel s a b c d f := by
    intro a b c d f; funext fb k
    simp [spritePixel, decodePixel_congr hc hm, resolveColor_congr hc hm, hc]
  funext fb e
  simp only [frameSprite, sprRead, memWord, memHalf, memByte, hm, h2, hc]

theorem renderFrame_congr {s t : State} (hc : t.cfg = s.cfg) (hm : t.mem = s.mem) : renderFrame t = renderFrame s := by
  funext fb; simp only [renderFrame, frameCell_congr hc hm, frameSprite_congr hc hm, hc]

theorem stepN_add {m n : Nat} {s t : State} (h : stepN m s = .next t) : stepN (m + n) s = stepN n t := by
  induction m generalizing s with
  | zero => cases h; simp
  | succ m ih =>
    rw [show m + 1 + n = (m + n) + 1 by omega]
    simp only [stepN] at h ⊢
    cases hs : step s with
    | next u => rw [hs] at h; exact ih h
    | fault r => rw [hs] at h; cases h
    | refused r => rw [hs] at h; cases h

/-- A configuration of the spec has at least one cell and one slot (R6). -/
theorem config_counts_pos {c : Config} (h : c.WellFormed = true) : 0 < c.cellCount ∧ 0 < c.spriteCount := by
  simp only [Config.WellFormed, Config.countsFit, Config.gridFits, Bool.and_eq_true, decide_eq_true_eq] at h
  exact ⟨Nat.mul_pos (by omega) (by omega), by omega⟩

end Sys2Proof.Machine
end

