-- ==== Sys2Proof/Laws/Inputs.lean ====
section
/-! SUPPORT. The reset input while it stays low: an instruction does not look at its coming levels, so a step, and a run of
steps, under levels that are all low is the step, or the run, with none listed (log entry 5). -/

namespace Sys2Proof.Machine

/-- `s` with other coming levels of the reset input. -/
def setResets (r : List Bool) (s : State) : State := { s with resetIn := r }

@[simp] theorem setResets_seq (r : List Bool) (s : State) : (setResets r s).seq = s.seq := rfl
@[simp] theorem setResets_latch (r : List Bool) (s : State) : (setResets r s).latch = s.latch := rfl
@[simp] theorem setResets_cfg (r : List Bool) (s : State) : (setResets r s).cfg = s.cfg := rfl
@[simp] theorem setResets_mem (r : List Bool) (s : State) : (setResets r s).mem = s.mem := rfl
@[simp] theorem setResets_fb (r : List Bool) (s : State) : (setResets r s).fb = s.fb := rfl
@[simp] theorem setResets_flags (r : List Bool) (s : State) : (setResets r s).flags = s.flags := rfl
@[simp] theorem setResets_finfo (r : List Bool) (s : State) : (setResets r s).finfo = s.finfo := rfl
@[simp] theorem setResets_resp (r : List Bool) (s : State) : (setResets r s).resp = s.resp := rfl
@[simp] theorem setResets_presented (r : List Bool) (s : State) : (setResets r s).presented = s.presented := rfl
@[simp] theorem setResets_unitOut (r : List Bool) (s : State) : (setResets r s).unitOut = s.unitOut := rfl
@[simp] theorem setResets_epoch (r : List Bool) (s : State) : (setResets r s).epoch = s.epoch := rfl
@[simp] theorem setResets_resetIn (r : List Bool) (s : State) : (setResets r s).resetIn = r := rfl
@[simp] theorem setResets_unitIn (r : List Bool) (s : State) : (setResets r s).unitIn = s.unitIn := rfl
@[simp] theorem setResets_port (r : List Bool) (s : State) : (setResets r s).port = s.port := rfl
@[simp] theorem setResets_setResets (r q : List Bool) (s : State) : setResets r (setResets q s) = setResets r s := rfl

/-! ### The building blocks -/

theorem onCommand_setResets (r : List Bool) (s : State) {k : State → State}
    (hk : k (setResets r s) = setResets r (k s)) : onCommand (setResets r s) k = setResets r (onCommand s k) := by
  unfold onCommand
  cases hp : s.seq.phase <;> simp only [setResets_seq, hp]
  · exact hk
  · rfl

theorem onUnit_setResets (r : List Bool) (s : State) {k : State → State}
    (hk : k (setResets r s) = setResets r (k s)) : onUnit (setResets r s) k = setResets r (onUnit s k) := by
  unfold onUnit
  cases hp : s.seq.phase <;> simp only [setResets_seq, hp] <;> exact hk

theorem hostRead_setResets {α : Type} (r : List Bool) (s : State) (res : Except Raise α) (f : α → Response) :
    hostRead (setResets r s) res f = setResets r (hostRead s res f) := by cases res <;> rfl

/-- A checked write whose new state only carries the levels along. -/
theorem hostWrite_setResets (r : List Bool) (s : State) {res res' : Except Raise State}
    (h : res' = res.map (setResets r)) : hostWrite (setResets r s) res' = setResets r (hostWrite s res) := by
  subst h; cases res <;> rfl

theorem unitDelivers_setResets {α : Type} (r : List Bool) (s : State) (res : Except Raise α) (f : α → UnitResult) :
    unitDelivers (setResets r s) res f = setResets r (unitDelivers s res f) := by cases res <;> rfl

theorem advanceEntry_setResets (r : List Bool) (s : State) :
    advanceEntry (setResets r s) = setResets r (advanceEntry s) := by
  unfold advanceEntry
  cases hp : s.seq.phase <;> simp only [setResets_seq, setResets_cfg, hp]
  case map => by_cases h : s.seq.entry + 1 < s.cfg.cellCount <;> simp only [h, if_true, if_false] <;> rfl
  case sprite => by_cases h : s.seq.entry + 1 < s.cfg.spriteCount <;> simp only [h, if_true, if_false] <;> rfl

theorem advancePixel_setResets (r : List Bool) (s : State) :
    advancePixel (setResets r s) = setResets r (advancePixel s) := by
  simp only [advancePixel, setResets_seq]
  by_cases hx : s.seq.lx ≠ 7#3
  · simp only [hx, if_true, not_false_eq_true, ne_eq]; rfl
  by_cases hy : s.seq.ly ≠ 7#3
  · simp only [hx, hy, if_true, if_false, not_false_eq_true, ne_eq]; rfl
  simp only [hx, hy, if_false]
  exact advanceEntry_setResets r { s with seq := { s.seq with ly := 0, lx := 0 } }

theorem drawPixel_setResets (r : List Bool) (s : State) (bit : BitVec 1) :
    drawPixel (setResets r s) bit = (drawPixel s bit).map (setResets r) := by
  unfold drawPixel
  rw [show resolveColor (setResets r s) (setResets r s).latch.palId bit = resolveColor s s.latch.palId bit from rfl]
  cases resolveColor s s.latch.palId bit <;> rfl

theorem pixelBody_setResets (r : List Bool) (s : State) :
    pixelBody (setResets r s) = (pixelBody s).map (setResets r) := by
  unfold pixelBody
  rw [show decodePixel (setResets r s) (setResets r s).latch.tileId (setResets r s).seq.ly (setResets r s).seq.lx =
    decodePixel s s.latch.tileId s.seq.ly s.seq.lx from rfl]
  cases decodePixel s s.latch.tileId s.seq.ly s.seq.lx with
  | error e => rfl
  | ok bit =>
    simp only [show skipsPixel (setResets r s) bit = skipsPixel s bit from rfl]
    cases skipsPixel s bit with
    | true => rfl
    | false => exact drawPixel_setResets r s bit

theorem pixelStep_setResets (r : List Bool) (s : State) : pixelStep (setResets r s) = setResets r (pixelStep s) := by
  have hw : pixelWork (setResets r s) = setResets r (pixelWork s) := by
    unfold pixelWork
    rw [pixelBody_setResets]
    cases pixelBody s with
    | error e => rfl
    | ok t => exact advancePixel_setResets r t
  unfold pixelStep
  cases hp : s.seq.phase <;> simp only [setResets_seq, hp, hw]

theorem runPixels_setResets (r : List Bool) (n : Nat) (s : State) :
    runPixels n (setResets r s) = setResets r (runPixels n s) := by
  induction n generalizing s with
  | zero => rfl
  | succ n ih => rw [runPixels, pixelStep_setResets, ih, runPixels]

theorem runEntry_setResets (r : List Bool) (s : State) : runEntry (setResets r s) = setResets r (runEntry s) :=
  runPixels_setResets r 64 { s with seq := { s.seq with ly := 0, lx := 0 } }

theorem inMapPass_setResets (r : List Bool) (s : State) {k : State → State}
    (hk : k (setResets r s) = setResets r (k s)) : inMapPass (setResets r s) k = setResets r (inMapPass s k) := by
  unfold inMapPass
  cases hp : s.seq.phase <;> simp only [setResets_seq, hp]
  exact hk

theorem inSpritePass_setResets (r : List Bool) (s : State) {k : State → State}
    (hk : k (setResets r s) = setResets r (k s)) : inSpritePass (setResets r s) k = setResets r (inSpritePass s k) := by
  unfold inSpritePass
  cases hp : s.seq.phase <;> simp only [setResets_seq, hp]
  exact hk

theorem spritePixels_setResets (r : List Bool) (s : State) (t : BitVec 8) (p : BitVec 5) (m : BitVec 2)
    (x y : BitVec 8) : spritePixels t p m x y (setResets r s) = setResets r (spritePixels t p m x y s) :=
  inSpritePass_setResets r s (runEntry_setResets r (latchSprite s t p m x y))

/-! A checked write carries the levels along. -/

theorem tileWrite_setResets (r : List Bool) (s : State) (i : Nat) (v : Byte) :
    tileWrite (setResets r s) i v = (tileWrite s i v).map (setResets r) := by
  by_cases h : s.cfg.tileBytes ≤ i <;> simp only [tileWrite, setResets_cfg, h, if_true, if_false] <;> rfl

theorem sprWrite_setResets (r : List Bool) (s : State) (i : Nat) (v : Word) :
    sprWrite (setResets r s) i v = (sprWrite s i v).map (setResets r) := by
  by_cases h : s.cfg.spriteCount ≤ i <;> simp only [sprWrite, setResets_cfg, h, if_true, if_false] <;> rfl

theorem palWrite_setResets (r : List Bool) (s : State) (i : Nat) (v : Half) :
    palWrite (setResets r s) i v = (palWrite s i v).map (setResets r) := by
  by_cases h : s.cfg.paletteCount ≤ i <;> simp only [palWrite, setResets_cfg, h, if_true, if_false] <;> rfl

theorem mapWrite_setResets (r : List Bool) (s : State) (i : Nat) (v : Byte) :
    mapWrite (setResets r s) i v = (mapWrite s i v).map (setResets r) := by
  by_cases h : s.cfg.cellCount ≤ i <;> simp only [mapWrite, setResets_cfg, h, if_true, if_false] <;> rfl

/-! ### An instruction, a step, a run -/

/-- An instruction does not look at the reset input's coming levels: it only carries them along. -/
theorem exec_setResets {i : Instr} {s t : State} (r : List Bool) (h : exec i s = .next t) :
    exec i (setResets r s) = .next (setResets r t) := by
  cases i <;> simp only [exec] at h ⊢ <;> try (cases h; refine congrArg Host.Outcome.next ?_)
  case mapcell t p => exact inMapPass_setResets r s (runEntry_setResets r (latchCell s t p))
  case sprOpaque => exact spritePixels_setResets r s _ _ _ _ _
  case sprBack => exact spritePixels_setResets r s _ _ _ _ _
  case sprFront => exact spritePixels_setResets r s _ _ _ _ _
  case sprDisabled => exact inSpritePass_setResets r s (advanceEntry_setResets r { s with seq := { s.seq with ly := 0, lx := 0 } })
  case decodePixel => exact onUnit_setResets r s (unitDelivers_setResets r s _ _)
  case resolveColor => exact onUnit_setResets r s (unitDelivers_setResets r s _ _)
  case expandToChannels => exact onUnit_setResets r s rfl
  case fbWrite => exact onUnit_setResets r s rfl
  case tileRd => exact onCommand_setResets r s (hostRead_setResets r s _ _)
  case sprRd => exact onCommand_setResets r s (hostRead_setResets r s _ _)
  case palRd => exact onCommand_setResets r s (hostRead_setResets r s _ _)
  case mapRd => exact onCommand_setResets r s (hostRead_setResets r s _ _)
  case tileWr => exact onCommand_setResets r s (hostWrite_setResets r s (tileWrite_setResets r s _ _))
  case sprWr => exact onCommand_setResets r s (hostWrite_setResets r s (sprWrite_setResets r s _ _))
  case palWr => exact onCommand_setResets r s (hostWrite_setResets r s (palWrite_setResets r s _ _))
  case mapWr => exact onCommand_setResets r s (hostWrite_setResets r s (mapWrite_setResets r s _ _))
  case setMapCell => exact onCommand_setResets r s (hostWrite_setResets r s (mapWrite_setResets r s _ _))
  case putSprite => exact onCommand_setResets r s (hostWrite_setResets r s (sprWrite_setResets r s _ _))
  case renderFrame => exact onCommand_setResets r s rfl
  case fbRd addr =>
    refine onCommand_setResets r s ?_
    by_cases h : s.cfg.fbSize ≤ addr.toNat <;> simp only [setResets_cfg, h, if_true, if_false] <;> rfl
  case statusRd =>
    unfold execStatusRd at h ⊢
    cases hp : s.seq.phase <;> simp only [hp, setResets_seq] at h ⊢ <;> cases h <;> rfl
  case reset => rfl

/-- What a fetch finds, in a state with other coming levels. -/
def fetchedResets (r : List Bool) : Fetched → Fetched
  | .nothing s => .nothing (setResets r s)
  | .raised e s => .raised e (setResets r s)
  | .item e s => .item e (setResets r s)

theorem fetch_setResets (r : List Bool) (s : State) : fetch (setResets r s) = fetchedResets r (fetch s) := by
  unfold fetch
  cases hu : s.unitIn with
  | some u => simp only [setResets_unitIn, hu]; rfl
  | none =>
    simp only [setResets_unitIn, hu]
    unfold fetchByPhase
    have hc : fetchCommand (setResets r s) = fetchedResets r (fetchCommand s) := by
      unfold fetchCommand
      cases hp : s.port <;> simp only [setResets_port, hp] <;> rfl
    cases hp : s.seq.phase <;> simp only [setResets_seq, hp]
    · exact hc
    · unfold fetchCell
      rw [show mapRead (setResets r s) (setResets r s).seq.entry = mapRead s s.seq.entry from rfl]
      cases mapRead s s.seq.entry <;> rfl
    · unfold fetchSprite
      rw [show sprRead (setResets r s) (setResets r s).seq.entry = sprRead s s.seq.entry from rfl]
      cases sprRead s s.seq.entry <;> rfl
    · exact hc

/-- A step under a low level does what the step with no level listed does, the level passed. -/
theorem step_setResets {s t : State} {r : List Bool} (hs : s.resetIn = []) (hr : r.headD false = false)
    (h : step s = .next t) : step (setResets r s) = .next (setResets r.tail t) := by
  have h0 : clockReset s = s := by cases s; cases hs; rfl
  have h1 : clockReset (setResets r s) = setResets r.tail s := rfl
  have h2 : resetAsserted (setResets r s) = false := hr
  have h3 : resetAsserted s = false := by simp [resetAsserted, hs]
  simp only [step, h0, h1, h2, h3, Bool.false_eq_true, if_false, fetch_setResets] at h ⊢
  cases hf : fetch s with
  | nothing u => simp only [hf] at h; cases h; rfl
  | raised e u => simp only [hf] at h; cases h; rfl
  | item e u =>
    simp only [hf, fetchedResets, setResets_cfg] at h ⊢
    cases hd : decode u.cfg.layout e with
    | ok i => simp only [hd] at h ⊢; exact exec_setResets r.tail h
    | error d =>
      simp only [hd] at h ⊢
      cases h
      exact congrArg _ (onCommand_setResets r.tail u rfl)

/-- With no coming level listed none is listed after a step. -/
theorem step_resetIn_nil {s t : State} (hs : s.resetIn = []) (h : step s = .next t) : t.resetIn = [] := by
  have h1 : setResets [] s = s := by cases s; cases hs; rfl
  have h2 := step_setResets (r := []) hs rfl h
  rw [h1, h] at h2
  exact congrArg State.resetIn (Host.Outcome.next.inj h2)

/-- A run under levels that are all low is the run with none listed: what is shown of the latter holds of the former. -/
theorem stepN_setResets {n : Nat} {s t : State} {r : List Bool} (hs : s.resetIn = []) (hr : ∀ b ∈ r, b = false)
    (h : stepN n s = .next t) : stepN n (setResets r s) = .next (setResets (r.drop n) t) := by
  induction n generalizing s r with
  | zero => cases h; rfl
  | succ n ih =>
    simp only [stepN] at h ⊢
    cases hu : step s with
    | fault e => rw [hu] at h; cases h
    | refused e => rw [hu] at h; cases h
    | next u =>
      rw [hu] at h
      have hl : r.headD false = false := by cases r with
        | nil => rfl
        | cons b r => exact hr b List.mem_cons_self
      rw [step_setResets hs hl hu]
      have := ih (r := r.tail) (step_resetIn_nil hs hu) (fun b hb => hr b (List.mem_of_mem_tail hb)) h
      simpa using this

end Sys2Proof.Machine
end

