-- ==== Sys2Proof/Laws/PerInstr.lean ====
section
/-! SUPPORT. The per-instruction family `EncodingFormat`: every instruction's encoding, under the default layout, is of its
row's format and matches its row's mask and match or its command code (spec/30_encoding.md R80, R87, R88, R96). -/

namespace Sys2Proof

/-- `e` is a command record with code `code` and `n` operand bytes (R87). -/
def isRecord (e : Encoded) (code : Byte) (n : Nat) : Prop := ∃ ops, e = .command (code :: ops) ∧ ops.length = n

/-- `e` is a sprite word whose layer mode is `m` and whose unused bit 8 is 0 (R83, R96). -/
def isSpriteWord (e : Encoded) (m : BitVec 2) : Prop :=
  ∃ w, e = .sprite w ∧ w.extractLsb' 17 2 = m ∧ w.getLsbD 8 = false

/-- The format, and the selecting bits, of an instruction's encoding. -/
def Laws.EncodingFormat.Statement : Instr → Prop
  | .mapcell t p => ∃ b, encode Layout.default (.mapcell t p) = .cell b
  | .sprOpaque t p x y => isSpriteWord (encode Layout.default (.sprOpaque t p x y)) 0b00#2
  | .sprBack t p x y => isSpriteWord (encode Layout.default (.sprBack t p x y)) 0b01#2
  | .sprFront t p x y => isSpriteWord (encode Layout.default (.sprFront t p x y)) 0b10#2
  | .sprDisabled => isSpriteWord (encode Layout.default .sprDisabled) 0b11#2
  | .decodePixel t ly lx => ∃ w, encode Layout.default (.decodePixel t ly lx) = .unit (.decodePixel w)
  | .resolveColor p b => ∃ w, encode Layout.default (.resolveColor p b) = .unit (.resolveColor w)
  | .expandToChannels c => ∃ w, encode Layout.default (.expandToChannels c) = .unit (.expandToChannels w)
  | .fbWrite px py r g b a => ∃ w, encode Layout.default (.fbWrite px py r g b a) = .unit (.fbWrite w)
  | .tileRd i => isRecord (encode Layout.default (.tileRd i)) 0x01 3
  | .tileWr i d => isRecord (encode Layout.default (.tileWr i d)) 0x02 4
  | .sprRd i => isRecord (encode Layout.default (.sprRd i)) 0x03 3
  | .sprWr i d => isRecord (encode Layout.default (.sprWr i d)) 0x04 7
  | .palRd i => isRecord (encode Layout.default (.palRd i)) 0x05 3
  | .palWr i d => isRecord (encode Layout.default (.palWr i d)) 0x06 5
  | .mapRd i => isRecord (encode Layout.default (.mapRd i)) 0x07 3
  | .mapWr i d => isRecord (encode Layout.default (.mapWr i d)) 0x08 4
  | .setMapCell row col t p => isRecord (encode Layout.default (.setMapCell row col t p)) 0x09 6
  | .putSprite s t p x y m => isRecord (encode Layout.default (.putSprite s t p x y m)) 0x0A 13
  | .renderFrame => isRecord (encode Layout.default .renderFrame) 0x0B 0
  | .fbRd a => isRecord (encode Layout.default (.fbRd a)) 0x0C 3
  | .statusRd => isRecord (encode Layout.default .statusRd) 0x0D 0
  | .reset => isRecord (encode Layout.default .reset) 0x0E 0

/-- A packed sprite word shows the mode packed and has bit 8 clear. -/
theorem packSprite_isSpriteWord (t : BitVec 8) (p : BitVec 5) (m : BitVec 2) (x y : BitVec 8) :
    isSpriteWord (.sprite (packSprite Layout.default t p m x y)) m := by
  refine ⟨_, rfl, (packSprite_fields Layout.default rfl rfl t p m x y).2.2.1, ?_⟩
  unfold packSprite Layout.default
  simp only [BitVec.getLsbD_or, field_bit _ 24 _ (show 24 + 8 ≤ 32 by decide), field_bit _ 19 _ (show 19 + 5 ≤ 32 by decide),
    field_bit _ 17 _ (show 17 + 2 ≤ 32 by decide), field_bit _ 9 _ (show 9 + 8 ≤ 32 by decide),
    field_bit _ 0 _ (show 0 + 8 ≤ 32 by decide)]
  simp

namespace Laws.EncodingFormat

theorem mapcell (t : BitVec 6) (p : BitVec 2) : Statement (.mapcell t p) := ⟨_, rfl⟩

theorem sprOpaque (t : BitVec 8) (p : BitVec 5) (x y : BitVec 8) : Statement (.sprOpaque t p x y) :=
  packSprite_isSpriteWord ..

theorem sprBack (t : BitVec 8) (p : BitVec 5) (x y : BitVec 8) : Statement (.sprBack t p x y) :=
  packSprite_isSpriteWord ..

theorem sprFront (t : BitVec 8) (p : BitVec 5) (x y : BitVec 8) : Statement (.sprFront t p x y) :=
  packSprite_isSpriteWord ..

theorem sprDisabled : Statement .sprDisabled := packSprite_isSpriteWord ..

theorem decodePixel (t : BitVec 8) (ly lx : BitVec 3) : Statement (.decodePixel t ly lx) := ⟨_, rfl⟩

theorem resolveColor (p : BitVec 5) (b : BitVec 1) : Statement (.resolveColor p b) := ⟨_, rfl⟩

theorem expandToChannels (c : BitVec 8) : Statement (.expandToChannels c) := ⟨_, rfl⟩

theorem fbWrite (px py : BitVec 11) (r g b : BitVec 8) (a : BitVec 1) : Statement (.fbWrite px py r g b a) := ⟨_, rfl⟩

theorem tileRd (i : BitVec 24) : Statement (.tileRd i) := ⟨_, rfl, rfl⟩

theorem tileWr (i : BitVec 24) (d : BitVec 8) : Statement (.tileWr i d) := ⟨_, rfl, rfl⟩

theorem sprRd (i : BitVec 24) : Statement (.sprRd i) := ⟨_, rfl, rfl⟩

theorem sprWr (i : BitVec 24) (d : BitVec 32) : Statement (.sprWr i d) := ⟨_, rfl, rfl⟩

theorem palRd (i : BitVec 24) : Statement (.palRd i) := ⟨_, rfl, rfl⟩

theorem palWr (i : BitVec 24) (d : BitVec 16) : Statement (.palWr i d) := ⟨_, rfl, rfl⟩

theorem mapRd (i : BitVec 24) : Statement (.mapRd i) := ⟨_, rfl, rfl⟩

theorem mapWr (i : BitVec 24) (d : BitVec 8) : Statement (.mapWr i d) := ⟨_, rfl, rfl⟩

theorem setMapCell (row col : BitVec 8) (t p : BitVec 16) : Statement (.setMapCell row col t p) := ⟨_, rfl, rfl⟩

theorem putSprite (s : BitVec 24) (t p x y m : BitVec 16) : Statement (.putSprite s t p x y m) := ⟨_, rfl, rfl⟩

theorem renderFrame : Statement .renderFrame := ⟨_, rfl, rfl⟩

theorem fbRd (a : BitVec 24) : Statement (.fbRd a) := ⟨_, rfl, rfl⟩

theorem statusRd : Statement .statusRd := ⟨_, rfl, rfl⟩

theorem reset : Statement .reset := ⟨_, rfl, rfl⟩

end Laws.EncodingFormat

end Sys2Proof
end

