-- ==== Sys2Proof/Tests/Slice0.lean ====
section
/-! SUPPORT. The model's own tests: the WellFormed smoke tests, decoding by words written out from spec/30_encoding.md,
single steps against spec/95_test_vectors.md (whose values are the spec's, not this model's), and a witness for the
hypotheses of every obligation. -/

namespace Sys2Proof.Tests

open Sys2Proof.Machine

set_option Elab.async false

/-! ### Small states -/

/-- The 60 bytes of the image of program P1 (spec/95_test_vectors.md, Part 3), as `SEED` of `CFG_SMALL`. -/
def p1Tiles : List Byte :=
  [0x00, 0x00, 0x00, 0x00, 0x00, 0x00, 0x00, 0x00, 0xFF, 0xFF, 0xFF, 0xFF, 0xFF, 0xFF, 0xFF, 0xFF] ++
  [0x88, 0x44, 0x22, 0x11, 0x88, 0x44, 0x22, 0x11, 0x7E, 0x40, 0x40, 0x7C, 0x40, 0x40, 0x40, 0x00]

/-- Its sprite, palette and map segments. -/
def p1Rest : List Byte :=
  [0x00, 0x00, 0x06, 0x00, 0x00, 0x00, 0x06, 0x00, 0x00, 0x00, 0x06, 0x00, 0x00, 0x00, 0x06, 0x00] ++
  [0xE0, 0x1C, 0x00, 0xFF, 0xA7, 0x03, 0x80, 0x5B, 0x04, 0x09, 0x0E, 0x03]

/-- `CFG_SMALL` with that image, right after reset. -/
def small : State := State.resetWith (Config.small (p1Tiles ++ p1Rest))

/-- `CFG_REF` right after reset (V-H: "State `IDLE`, `CFG_REF`"). -/
def refIdle : State := State.reset

/-- `small` with a frame at map element `e`. -/
def atCell (e : Nat) : State :=
  { small with seq := { phase := .map, entry := e, ly := 0, lx := 0 }, flags := { busy := true, done := false, fault := false } }

/-- `small` with a frame at sprite slot `e`. -/
def atSlot (e : Nat) : State :=
  { small with seq := { phase := .sprite, entry := e, ly := 0, lx := 0 }, flags := { busy := true, done := false, fault := false } }

/-- `small` in `FAULT`. -/
def faulted : State := enterFault small ⟨.tile, 32⟩ true

/-- One tile, one sprite, one palette, one cell: tile 0 all ones, slot 0 and cell 0 as given. -/
def tiny (slot : List Byte) (cell : Byte) : State :=
  State.resetWith { tileCount := 1, spriteCount := 1, paletteCount := 1, rows := 1, cols := 1, layout := Layout.default
                    seed := List.replicate 8 0xFF ++ slot ++ [0xE0, 0x1C] ++ [cell] }

/-- `tiny` with an opaque sprite at `(4, 4)`, all names existing. -/
def tinyGood : State := tiny [0x04, 0x08, 0x00, 0x00] 0x00

/-- `tiny` with a cell that names tile 1, which does not exist. -/
def tinyBad : State := tiny [0x04, 0x08, 0x00, 0x00] 0x04

/-- A field of the next state, where there is one. -/
def seen {α : Type} (o : Host.Outcome State Fault Refusal) (f : State → α) : Option α :=
  match o with
  | .next s => some (f s)
  | .fault _ => none
  | .refused _ => none

/-- The bytes `a` and the three after it of the framebuffer, as listed. -/
def fbFour (s : State) (a : Nat) : List (Option Byte) :=
  [cellLookup s.fb a, cellLookup s.fb (a + 1), cellLookup s.fb (a + 2), cellLookup s.fb (a + 3)]

/-! ### WellFormed refuses -/

theorem test_wf_accepts : (Config.ref (List.replicate 960 0)).WellFormed = true ∧ small.cfg.WellFormed = true ∧
    Instr.WellFormed (.mapcell 63 3) = true := by decide +kernel

theorem test_wf_counts_refused :
    ({ small.cfg with tileCount := 0 }).countsFit = false ∧ ({ small.cfg with tileCount := 2 ^ 21 + 1 }).countsFit = false ∧
    ({ small.cfg with spriteCount := 0 }).countsFit = false ∧ ({ small.cfg with spriteCount := 2 ^ 24 + 1 }).countsFit = false ∧
    ({ small.cfg with paletteCount := 0 }).countsFit = false ∧
    ({ small.cfg with paletteCount := 2 ^ 24 + 1 }).countsFit = false := by decide +kernel

theorem test_wf_grid_refused :
    ({ small.cfg with rows := 0 }).gridFits = false ∧ ({ small.cfg with rows := 257 }).gridFits = false ∧
    ({ small.cfg with cols := 0 }).gridFits = false ∧ ({ small.cfg with cols := 257 }).gridFits = false := by decide

theorem test_wf_sprite_fields_refused :
    ({ Layout.default with sprTile := 25 }).spriteFits = false ∧ ({ Layout.default with sprPal := 28 }).spriteFits = false ∧
    ({ Layout.default with sprMode := 31 }).spriteFits = false ∧ ({ Layout.default with sprX := 25 }).spriteFits = false ∧
    ({ Layout.default with sprY := 25 }).spriteFits = false := by decide

theorem test_wf_sprite_overlap_refused :
    ({ Layout.default with sprTile := 23 }).spriteApart = false ∧ ({ Layout.default with sprMode := 24 }).spriteApart = false ∧
    ({ Layout.default with sprX := 24 }).spriteApart = false ∧ ({ Layout.default with sprY := 24 }).spriteApart = false ∧
    ({ Layout.default with sprMode := 18 }).spriteApart = false ∧ ({ Layout.default with sprX := 12 }).spriteApart = false ∧
    ({ Layout.default with sprPal := 4 }).spriteApart = false ∧ ({ Layout.default with sprX := 10 }).spriteApart = false ∧
    ({ Layout.default with sprMode := 7 }).spriteApart = false ∧ ({ Layout.default with sprX := 7 }).spriteApart = false := by
  decide

theorem test_wf_cell_fields_refused :
    ({ Layout.default with mapTile := 3 }).cellFits = false ∧ ({ Layout.default with mapPal := 7 }).cellFits = false ∧
    ({ Layout.default with mapPal := 1 }).cellFits = false := by decide

theorem test_wf_seed_refused : ({ small.cfg with seed := [0x00] }).seedFits = false := by decide

/-! ### Decoding: words written out bit by bit from spec/30_encoding.md -/

/-- R84: tile `000110`, palette `01`. -/
theorem test_decode_cell : decode Layout.default (.cell 0b000110_01#8) = .ok (.mapcell 6 1) := by decide

/-- R83: tile, palette, mode, x, bit 8, y. -/
theorem test_decode_sprites :
    decode Layout.default (.sprite 0b00000011_00001_00_00000100_0_00000100#32) = .ok (.sprOpaque 3 1 4 4) ∧
    decode Layout.default (.sprite 0b00000010_00010_01_00000110_0_00000110#32) = .ok (.sprBack 2 2 6 6) ∧
    decode Layout.default (.sprite 0b11011110_10101_10_11011111_0_11101111#32) = .ok (.sprFront 222 21 223 239) ∧
    decode Layout.default (.sprite 0b11001000_01001_11_00000000_0_00000000#32) = .ok .sprDisabled := by decide

/-- R88: the operand bundles, in the order of the table's encoding strings. -/
theorem test_decode_units :
    decode Layout.default (.unit (.decodePixel 0b00000011_101_010#14)) = .ok (.decodePixel 3 5 2) ∧
    decode Layout.default (.unit (.resolveColor 0b00010_1#6)) = .ok (.resolveColor 2 1) ∧
    decode Layout.default (.unit (.expandToChannels 0b101_001_11#8)) = .ok (.expandToChannels 0xA7) ∧
    decode Layout.default (.unit (.fbWrite 0b00000001101_00000001100_11100000_00000000_00000001_1#47)) =
      .ok (.fbWrite 13 12 224 0 1 1) := by decide

/-- R87: the eight view commands. -/
theorem test_decode_view_commands :
    decode Layout.default (.command [0x01, 0x18, 0x00, 0x00]) = .ok (.tileRd 24) ∧
    decode Layout.default (.command [0x02, 0x13, 0x00, 0x00, 0x7C]) = .ok (.tileWr 19 0x7C) ∧
    decode Layout.default (.command [0x03, 0x03, 0x00, 0x00]) = .ok (.sprRd 3) ∧
    decode Layout.default (.command [0x04, 0x03, 0x00, 0x00, 0x28, 0x40, 0x24, 0x04]) = .ok (.sprWr 3 0x04244028) ∧
    decode Layout.default (.command [0x05, 0x02, 0x00, 0x00]) = .ok (.palRd 2) ∧
    decode Layout.default (.command [0x06, 0x02, 0x00, 0x00, 0xA7, 0x03]) = .ok (.palWr 2 0x03A7) ∧
    decode Layout.default (.command [0x07, 0xFF, 0x00, 0x00]) = .ok (.mapRd 255) ∧
    decode Layout.default (.command [0x08, 0x00, 0x01, 0x00, 0x19]) = .ok (.mapWr 256 0x19) := by decide

/-- R87: the other six commands. -/
theorem test_decode_other_commands :
    decode Layout.default (.command [0x09, 0x0F, 0x10, 0x46, 0x00, 0x01, 0x00]) = .ok (.setMapCell 15 16 70 1) ∧
    decode Layout.default (.command [0x0A, 0x03, 0x00, 0x00, 0x04, 0x00, 0x05, 0x00, 0x20, 0x00, 0x28, 0x00, 0x02, 0x01]) =
      .ok (.putSprite 3 4 5 32 40 0x0102) ∧
    decode Layout.default (.command [0x0B]) = .ok .renderFrame ∧
    decode Layout.default (.command [0x0C, 0xFF, 0xFF, 0x00]) = .ok (.fbRd 65535) ∧
    decode Layout.default (.command [0x0D]) = .ok .statusRd ∧ decode Layout.default (.command [0x0E]) = .ok .reset := by
  decide

/-- R98 (b): what is no command. -/
theorem test_decode_refuses : decodeCommand [0x00] = .error (.notACommand 0x00) ∧
    decodeCommand [0x0F] = .error (.notACommand 0x0F) ∧ decodeCommand [0xFF, 0x00] = .error (.notACommand 0xFF) ∧
    decodeCommand [0x0B, 0x00] = .error (.wrongLength 0x0B) ∧ decodeCommand [] = .error .noCode := by decide

/-- V-E: the packing vectors. -/
theorem test_pack : cellOperand Layout.default 70 1 = 0x19 ∧ cellOperand Layout.default 63 3 = 0xFF ∧
    cellOperand Layout.default 5 6 = 0x16 ∧ spriteOperand Layout.default 4 4 32 40 2 = 0x04244028 ∧
    spriteOperand Layout.default 0x1FF 0x3F 0x1FF 0x1FF 7 = 0xFFFFFEFF ∧
    spriteOperand Layout.default 0 0 0 0 3 = 0x00060000 := by decide

/-- Table words, and that the next step runs the word placed. -/
theorem test_table_words : decodeTableWord 32 0x00020000 = some (.sprBack 0 0 0 0) ∧
    decodeTableWord 32 0x00060000 = some .sprDisabled ∧ decodeTableWord 8 0x00 = some (.mapcell 0 0) ∧
    decodeTableWord 8 0x0A = some (.putSprite 0 0 0 0 0 0) ∧ decodeTableWord 16 0x00EA = some (.decodePixel 3 5 2) ∧
    decodeTableWord 48 1 = some (.fbWrite 0 0 0 0 0 1) := by decide

theorem test_placed_word_runs : seen (step (State.reset.withFetchWord 8 0x0D)) (·.resp) = some (.ok32 0) ∧
    seen (step (State.reset.withFetchWord 32 0x00060000)) (·.seq.entry) = some 1 := by decide +kernel

/-! ### Addresses and memory -/

/-- V-M. -/
theorem test_addresses : small.cfg.sprAddr 3 = 44 ∧ small.cfg.palAddr 3 = 54 ∧ small.cfg.mapAddr 3 = 59 ∧
    small.cfg.memSize = 60 ∧ refIdle.cfg.sprAddr 31 = 636 ∧ refIdle.cfg.palAddr 4 = 648 ∧ refIdle.cfg.mapAddr 255 = 959 ∧
    refIdle.cfg.memSize = 960 ∧ refIdle.cfg.fbSize = 65536 := by decide

/-- V-M: `spr_wr 3, 0x04244028` makes bytes 524..527 = `28 40 24 04`. -/
theorem test_sprWr_bytes : seen (exec (.sprWr 3 0x04244028) refIdle) (·.mem) =
    some [(524, 0x28), (525, 0x40), (526, 0x24), (527, 0x04)] := by decide +kernel

/-- V-M: `pal_wr 0, 0x1CE0` makes bytes 640..641 = `E0 1C`. -/
theorem test_palWr_bytes : seen (exec (.palWr 0 0x1CE0) refIdle) (·.mem) = some [(640, 0xE0), (641, 0x1C)] := by
  decide +kernel

/-- Writing back the byte of `SEED` leaves nothing listed (the canonical form). -/
theorem test_tileWr_seed_byte : seen (exec (.tileWr 24 0x7E) small) (·.mem) = some [] := by decide +kernel

/-! ### Unit operations -/

/-- V-T: tile 3 rows 0 and 3. -/
theorem test_decodePixel : seen (exec (.decodePixel 3 0 1) small) (·.unitOut) = some (.bit 1) ∧
    seen (exec (.decodePixel 3 3 6) small) (·.unitOut) = some (.bit 0) := by decide +kernel

/-- V-T: tile 4 raises at index 32. -/
theorem test_decodePixel_raises : seen (exec (.decodePixel 4 0 0) small) (fun s => (s.finfo.findex, s.flags.fault)) =
    some (32, true) := by decide +kernel

/-- V-P1: palette 2. -/
theorem test_resolveColor : seen (exec (.resolveColor 2 0) small) (·.unitOut) = some (.color 0xA7) ∧
    seen (exec (.resolveColor 2 1) small) (·.unitOut) = some (.color 0x03) := by decide +kernel

/-- V-P1: palette 31 raises. -/
theorem test_resolveColor_raises : seen (exec (.resolveColor 31 1) small) (fun s => (s.finfo.fview, s.finfo.findex)) =
    some (2, 31) := by decide +kernel

/-- V-P2. -/
theorem test_expand : seen (exec (.expandToChannels 0xA7) small) (·.unitOut) = some (.channels 160 32 192) ∧
    seen (exec (.expandToChannels 0xFF) small) (·.unitOut) = some (.channels 224 224 192) := by decide +kernel

/-- V-F: `FbWrite(13, 12, 224, 0, 0, 1)` writes bytes 820..823. -/
theorem test_fbWrite : seen (exec (.fbWrite 13 12 224 0 0 1) small) (fun s => (fbFour s 820, fbByte s 823)) =
    some ([some 224, some 0, some 0, none], 255) := by decide +kernel

/-- V-F: `FbWrite(16, 0, ...)` is suppressed. -/
theorem test_fbWrite_outside : seen (exec (.fbWrite 16 0 1 2 3 1) small) (·.fb) = some [] := by decide +kernel

/-! ### The display list -/

/-- R132's example: entry 1 is `0x09`, tile 2 with palette 1 at cell (0, 1): pixels (8, 0) and (9, 0). -/
theorem test_mapcell : seen (exec (.mapcell 2 1) (atCell 1)) (fun s => (cellLookup s.fb 34, s.seq.entry)) =
    some (some 192, 2) ∧ seen (exec (.mapcell 2 1) (atCell 1)) (fun s => cellLookup s.fb 36) = some (some 0) := by
  decide +kernel

/-- V-X: `MAP[3] = 0x10` raises at entry 3 with index 32; `STATUS` is `0x00002024`. -/
theorem test_mapcell_raises : seen (exec (.mapcell 4 0) (atCell 3)) (fun s => (statusWord s, s.seq.phase, s.presented)) =
    some (0x00002024, .fault, 0) := by decide +kernel

/-- R135's example: row 0 of `SPR[0] = 0x03080804`: `00` at (4, 4), `FF` at (5, 4). -/
theorem test_sprOpaque : seen (exec (.sprOpaque 3 1 4 4) (atSlot 0)) (fun s => cellLookup s.fb 272) = some (some 0) ∧
    seen (exec (.sprOpaque 3 1 4 4) (atSlot 0)) (fun s => cellLookup s.fb 278) = some (some 192) := by decide +kernel

/-- R136's example: row 0 draws (6, 6) with `0x03` and leaves (7, 6) alone. -/
theorem test_sprBack : seen (exec (.sprBack 2 2 6 6) (atSlot 1)) (fun s => (fbFour s 408, fbFour s 412)) =
    some ([some 0, some 0, some 192, none], [none, none, none, none]) := by decide +kernel

/-- R137's example: (12, 12) is skipped, (13, 12) gets `0xE0`, column 16 does not wrap to (0, 13). -/
theorem test_sprFront : seen (exec (.sprFront 2 0 12 12) (atSlot 2)) (fun s => (fbFour s 816, fbFour s 820, fbFour s 832)) =
    some ([none, none, none, none], [some 224, some 0, some 0, none], [none, none, none, none]) := by decide +kernel

/-- V-X: `SPR[1] = 0x014A0000` (`BACK`, tile 1, palette 9) raises `OutOfRangeIndex(PAL, 9)`: `STATUS` `0x00000934`. -/
theorem test_sprBack_raises : seen (exec (.sprBack 1 9 0 0) (atSlot 1)) statusWord = some 0x00000934 := by decide +kernel

/-- V-X: `FRONT` of tile 1 with palette 9 completes, the palette never read. -/
theorem test_sprFront_no_palette : seen (exec (.sprFront 1 9 0 0) (atSlot 1)) (fun s => (s.fb, s.seq.entry)) =
    some ([], 2) := by decide +kernel

/-- R138, R141: the last slot completes the frame: `STATUS` is `0x00000002`, one `PRESENT`. -/
theorem test_sprDisabled_completes :
    seen (exec .sprDisabled (atSlot 3)) (fun s => (statusWord s, s.seq.phase, s.presented, s.resp)) =
      some (0x00000002, .idle, 1, .ok) := by decide +kernel

/-! ### Host commands, V-H -/

theorem test_tileRd : seen (exec (.tileRd 24) small) (·.resp) = some (.ok8 0x7E) ∧
    seen (exec (.tileRd 512) refIdle) (fun s => (statusWord s, s.resp)) = some (0x000200A4, .raised) := by decide +kernel

theorem test_tileWr_raises : seen (exec (.tileWr 32 0) small) (fun s => (s.mem, s.finfo.findex)) = some ([], 32) := by
  decide +kernel

theorem test_sprRd : seen (exec (.sprRd 3) small) (·.resp) = some (.ok32 0x00060000) := by decide +kernel

theorem test_sprWr_raises : seen (exec (.sprWr 32 0) refIdle) statusWord = some 0x000020AC := by decide +kernel

theorem test_palRd : seen (exec (.palRd 2) small) (·.resp) = some (.ok16 0x03A7) := by decide +kernel

theorem test_palWr_raises : seen (exec (.palWr 32 0) refIdle) statusWord = some 0x000020B4 := by decide +kernel

theorem test_mapRd : seen (exec (.mapRd 1) small) (·.resp) = some (.ok8 0x09) ∧
    seen (exec (.mapRd 256) refIdle) statusWord = some 0x000100BC := by decide +kernel

theorem test_mapWr : seen (exec (.mapWr 255 0xFF) refIdle) (·.mem) = some [(959, 0xFF)] := by decide +kernel

theorem test_setMapCell : seen (exec (.setMapCell 0 0 70 1) refIdle) (·.mem) = some [(704, 0x19)] ∧
    seen (exec (.setMapCell 0 17 5 2) refIdle) (·.mem) = some [(721, 0x16)] := by decide +kernel

theorem test_setMapCell_raises : seen (exec (.setMapCell 1 2 0 0) small) statusWord = some 0x000004BC := by decide +kernel

theorem test_putSprite : seen (exec (.putSprite 3 4 4 32 40 2) refIdle) (fun s => memWord s 524) = some 0x04244028 := by
  decide +kernel

theorem test_putSprite_masks : seen (exec (.putSprite 0 256 32 256 256 4) refIdle) (·.mem) = some [] := by decide +kernel

theorem test_renderFrame : seen (exec .renderFrame small) (fun s => (s.seq.phase, s.flags.busy, s.flags.done)) =
    some (.map, true, false) := by decide +kernel

theorem test_fbRd : seen (exec (.fbRd 65535) refIdle) (·.resp) = some (.ok8 255) ∧
    seen (exec (.fbRd 65536) refIdle) (fun s => (s.resp, s.flags.fault)) = some (.refused, false) := by decide +kernel

theorem test_statusRd : seen (exec .statusRd small) (·.resp) = some (.ok32 0) ∧
    seen (exec .statusRd faulted) (·.resp) = some (.ok32 0x000020A4) := by decide +kernel

theorem test_reset : seen (exec .reset faulted) (fun s => (statusWord s, s.resp, s.seq.phase)) = some (0, .ok, .idle) := by
  decide +kernel

theorem test_faulted_answer : seen (exec (.fbRd 3) faulted) (·.resp) = some .faulted := by decide +kernel

/-- V-H: code `0x0F` is answered `REFUSED`. -/
theorem test_step_refuses : seen (step { small with port := [[0x0F]] }) (fun s => (s.resp, s.port)) = some (.refused, []) := by
  decide +kernel

/-- R170: a command offered while a frame executes waits. -/
theorem test_step_holds : seen (step { atSlot 0 with port := [[0x0D]] }) (fun s => (s.port, s.seq.entry)) =
    some ([[0x0D]], 1) := by decide +kernel

/-- R230: the reset input ends a frame. -/
theorem test_step_reset_input : seen (step { atCell 2 with resetIn := [true] }) (fun s => (s.seq.phase, statusWord s)) =
    some (.idle, 0) := by decide +kernel

/-! ### Witnesses: for each obligation with hypotheses, states and operands that meet them -/

theorem exists_next {o : Host.Outcome State Fault Refusal} (h : (seen o fun _ => ()).isSome = true) :
    ∃ t, o = .next t := by
  cases o with
  | next s => exact ⟨s, rfl⟩
  | fault r => cases r
  | refused r => simp [seen] at h

theorem exists_ok {α ε : Type} {x : Except ε α} (h : x.isOk = true) : ∃ a, x = .ok a := by
  cases x with
  | ok a => exact ⟨a, rfl⟩
  | error e => simp [Except.isOk, Except.toBool] at h

theorem exists_error {α ε : Type} {x : Except ε α} (h : x.isOk = false) : ∃ e, x = .error e := by
  cases x with
  | ok a => simp [Except.isOk, Except.toBool] at h
  | error e => exact ⟨e, rfl⟩

/-- DecodeOfEncodeIsTheInstruction, at the default layout and at another. -/
theorem test_witness_layout : Layout.default.WellFormed = true ∧
    ({ sprTile := 0, sprPal := 8, sprMode := 13, sprX := 15, sprY := 24, mapTile := 0, mapPal := 6 } : Layout).WellFormed =
      true := by decide

/-- DisplayWordsPackBackUpToTheSpareBit. -/
theorem test_witness_enabled_word : (0x00000100#32).extractLsb' 17 2 ≠ 0b11#2 := by decide

/-- OnlyTheFourteenCodesAreCommands, at both ends of the range. -/
theorem test_witness_codes : 1 ≤ (0x01#8).toNat ∧ (0x01#8).toNat ≤ 0x0E ∧
    ([0x00, 0x00, 0x00] : List Byte).length = operandBytes (0x01#8).toNat ∧ 1 ≤ (0x0E#8).toNat ∧ (0x0E#8).toNat ≤ 0x0E ∧
    ([] : List Byte).length = operandBytes (0x0E#8).toNat := by decide

/-- ViewElementsAreDisjointAndAligned, at the last element of each view. -/
theorem test_witness_elements : 31 < small.cfg.tileBytes ∧ 3 < small.cfg.spriteCount ∧ 3 < small.cfg.paletteCount ∧
    3 < small.cfg.cellCount ∧ (30 : Nat) < 31 := by decide

/-- TileAndSpriteWritesAreReadBack, PaletteAndMapWritesAreReadBack, at the last element of each view. -/
theorem test_witness_view_writes : (∃ t, tileWrite small 31 0x55 = .ok t) ∧ (∃ t, sprWrite small 3 0x100 = .ok t) ∧
    (∃ t, palWrite small 3 0xFFFF = .ok t) ∧ ∃ t, mapWrite small 3 0xFF = .ok t :=
  ⟨exists_ok (by decide +kernel), exists_ok (by decide +kernel), exists_ok (by decide +kernel),
    exists_ok (by decide +kernel)⟩

/-- PixelsHaveTheirOwnFourBytes: two corners of the surface. -/
theorem test_witness_pixels : 15 < small.cfg.width ∧ 15 < small.cfg.height ∧ 0 < small.cfg.width ∧ 0 < small.cfg.height ∧
    ((15, 15) : Nat × Nat) ≠ (0, 0) := by decide

/-- UnitsDeliverOrRaise, DecodePixelDeliversTheTilesBit, ResolveColorDeliversThePalettesHalf,
ExpandDeliversTheShiftedFields, FbWriteStoresOnePixelOrNothing: both sides of each bound. -/
theorem test_witness_units : small.seq.phase ≠ .fault ∧ (3#8).toNat < small.cfg.tileCount ∧
    small.cfg.tileCount ≤ (4#8).toNat ∧ (3#5).toNat < small.cfg.paletteCount ∧ small.cfg.paletteCount ≤ (4#5).toNat ∧
    (15#11).toNat < small.cfg.width ∧ (15#11).toNat < small.cfg.height ∧ small.cfg.width ≤ (16#11).toNat ∧
    small.cfg.height ≤ (16#11).toNat := by decide

/-- WrittenTileRowIsDecodedBack, WrittenPaletteIsResolvedBack. -/
theorem test_witness_written_back : small.seq.phase = .idle ∧ (3#8).toNat < small.cfg.tileCount ∧
    (3#5).toNat < small.cfg.paletteCount := by decide

/-- `atSlot 0` with entry fields latched. -/
def latched (s : State) (t : BitVec 8) (p : BitVec 5) (m : BitVec 2) (x y : BitVec 8) : State := latchSprite s t p m x y

/-- PixelChecksComeInOrder: a tile that does not exist; a transparent pixel; a drawn pixel without palette; a drawn pixel
off the surface; a map pixel. -/
theorem test_witness_pixel_checks :
    ((latched (atCell 0) 4 0 0 0 0).seq.phase = .map ∧ small.cfg.tileCount ≤ (latched (atCell 0) 4 0 0 0 0).latch.tileId.toNat) ∧
    ((latched (atSlot 0) 1 9 2 0 0).seq.phase = .sprite ∧ (latched (atSlot 0) 1 9 2 0 0).latch.tileId.toNat < small.cfg.tileCount ∧
      (latched (atSlot 0) 1 9 2 0 0).latch.mode.getLsbD (tileBit (latched (atSlot 0) 1 9 2 0 0) 1 0 0).toNat = true) ∧
    ((latched (atSlot 0) 1 9 1 0 0).latch.mode.getLsbD (tileBit (latched (atSlot 0) 1 9 1 0 0) 1 0 0).toNat = false ∧
      small.cfg.paletteCount ≤ (latched (atSlot 0) 1 9 1 0 0).latch.palId.toNat) ∧
    ((latched (atSlot 0) 1 3 1 16 0).latch.mode.getLsbD (tileBit (latched (atSlot 0) 1 3 1 16 0) 1 0 0).toNat = false ∧
      (latched (atSlot 0) 1 3 1 16 0).latch.palId.toNat < small.cfg.paletteCount ∧
      small.cfg.width ≤ pixelX (latched (atSlot 0) 1 3 1 16 0)) := by decide +kernel

/-- MapcellPaintsItsBlock: the last cell, both names at their bounds; a palette that does not exist needs a configuration
with fewer than four. -/
theorem test_witness_mapcell : (atCell 3).seq.phase = .map ∧ (atCell 3).seq.entry < (atCell 3).cfg.cellCount ∧
    (3#6).toNat < (atCell 3).cfg.tileCount ∧ (3#2).toNat < (atCell 3).cfg.paletteCount ∧
    (atCell 3).cfg.tileCount ≤ (4#6).toNat ∧ (0#6).toNat < tinyGood.cfg.tileCount ∧
    tinyGood.cfg.paletteCount ≤ (1#2).toNat ∧ 0 < tinyGood.cfg.cellCount := by decide

/-- OpaqueSpriteDrawsItsBlock, BackSpriteDrawsItsOnes, FrontSpriteDrawsItsZeros, DisabledSpriteOnlyAdvances: names at
their bounds; a tile without and with 1 bits, and without and with 0 bits. -/
theorem test_witness_sprites : (atSlot 0).seq.phase = .sprite ∧ (3#8).toNat < (atSlot 0).cfg.tileCount ∧
    (atSlot 0).cfg.tileCount ≤ (4#8).toNat ∧ (3#5).toNat < (atSlot 0).cfg.paletteCount ∧
    (atSlot 0).cfg.paletteCount ≤ (4#5).toNat ∧ (∀ ly lx : BitVec 3, tileBit (atSlot 0) 0 ly lx = 0#1) ∧
    (∀ ly lx : BitVec 3, tileBit (atSlot 0) 1 ly lx = 1#1) ∧ tileBit (atSlot 0) 2 0 0 = 1#1 ∧
    tileBit (atSlot 0) 2 0 1 = 0#1 := by decide +kernel

/-- EntriesFollowInStorageOrder: inside each pass, and at the last slot. -/
theorem test_witness_entries : (atCell 3).seq.phase = .map ∧ (atSlot 2).seq.phase = .sprite ∧
    (atSlot 2).seq.entry + 1 < (atSlot 2).cfg.spriteCount ∧ (atSlot 3).cfg.spriteCount ≤ (atSlot 3).seq.entry + 1 := by
  decide

/-- TileCommandsReadAndStore, SpriteCommandsReadAndStore, PaletteCommandsReadAndStore, MapCommandsReadAndStore,
PutSpriteStoresThePackedWord: the last index inside and the first outside. -/
theorem test_witness_view_commands : small.seq.phase = .idle ∧ (31#24).toNat < small.cfg.tileBytes ∧
    small.cfg.tileBytes ≤ (32#24).toNat ∧ (3#24).toNat < small.cfg.spriteCount ∧ small.cfg.spriteCount ≤ (4#24).toNat ∧
    (3#24).toNat < small.cfg.paletteCount ∧ small.cfg.paletteCount ≤ (4#24).toNat ∧ (3#24).toNat < small.cfg.cellCount ∧
    small.cfg.cellCount ≤ (4#24).toNat := by decide

/-- SetMapCellStoresThePackedByte: linear index 3 (a column past the grid), and 4. -/
theorem test_witness_setMapCell :
    (0#8).toNat * small.cfg.cols + (3#8).toNat < small.cfg.rows * small.cfg.cols ∧
    small.cfg.rows * small.cfg.cols ≤ (1#8).toNat * small.cfg.cols + (2#8).toNat := by decide

/-- FbRdAnswersTheByteOrRefuses: the last byte and the first outside. -/
theorem test_witness_fbRd : (1023#24).toNat < small.cfg.width * small.cfg.height * 4 ∧
    small.cfg.width * small.cfg.height * 4 ≤ (1024#24).toNat := by decide

/-- StatusRdAnswersTheRegister: both phases, the flags agreeing with them. -/
theorem test_witness_statusRd : small.seq.phase = .idle ∧ FlagsMatch small ∧ faulted.seq.phase = .fault ∧
    FlagsMatch faulted := by decide +kernel

/-- ResetPutsEveryPieceOfStateBack, for the reset input. -/
theorem test_witness_reset_input : ({ atCell 1 with resetIn := [true] }).resetIn = true :: [] := by decide

/-- RenderFrameStartsAFrame, RenderFrameCompletesWhenNamesExist. -/
theorem test_witness_frame : Inv small ∧ Quiet small ∧ Quiet { small with resetIn := [false, false] } ∧
    small.seq.phase = .idle ∧ NamesExist small := by decide +kernel

/-- FaultStateAnswersFaulted. -/
theorem test_witness_fault_state : isHostCommand (.fbRd 0) = true ∧ Instr.fbRd 0 ≠ .statusRd ∧ Instr.fbRd 0 ≠ .reset ∧
    faulted.seq.phase = .fault := by decide

/-- NonCommandIsAnsweredAndChangesNothing, in `IDLE` with no level of the reset input listed, in `FAULT` with a low one. -/
theorem test_witness_non_command : decodeCommand [0x0F] = .error (.notACommand 0x0F) ∧
    (({ small with port := [[0x0F]] }).resetIn.headD false = false ∧ small.unitIn = none ∧ small.seq.phase = .idle) ∧
    ({ faulted with port := [[0x0F]], resetIn := [false] }).resetIn.headD false = false ∧ faulted.unitIn = none ∧
    faulted.seq.phase = .fault := by decide

/-- StepRunsTheDecodedInstruction: the reset input asserted; low, by a listed level and with none listed, with a unit bundle,
a cell, a slot, nothing offered, a command. -/
theorem test_witness_step : ({ atCell 1 with resetIn := [true] }).resetIn.headD false = true ∧
    (∃ u, (({ small with resetIn := [false], unitIn := some u }).resetIn.headD false = false ∧
      ({ small with resetIn := [false], unitIn := some u }).unitIn = some u)) ∧
    ((atCell 3).resetIn.headD false = false ∧ (atCell 3).unitIn = none ∧ (atCell 3).seq.phase = .map ∧
      (atCell 3).seq.entry < (atCell 3).cfg.cellCount) ∧
    ((atSlot 3).resetIn.headD false = false ∧ (atSlot 3).unitIn = none ∧ (atSlot 3).seq.phase = .sprite ∧
      (atSlot 3).seq.entry < (atSlot 3).cfg.spriteCount) ∧
    (small.resetIn.headD false = false ∧ small.unitIn = none ∧ small.seq.phase = .idle ∧ small.port = []) ∧
    decodeCommand [0x0D] = .ok .statusRd ∧
    (({ faulted with resetIn := [false], port := [[0x0D]] }).resetIn.headD false = false ∧ faulted.unitIn = none ∧
      faulted.seq.phase = .fault) :=
  ⟨by decide, ⟨.resolveColor 0, rfl, rfl⟩, by decide, by decide, by decide, by decide, by decide⟩

/-- ResetHasTheInvariant. -/
theorem test_witness_configuration : small.cfg.WellFormed = true := by decide +kernel

/-- EveryStepKeepsTheInvariant, NoStepChangesTheConfiguration, OpacityIsAlwaysFull: in the middle of a frame. -/
theorem test_witness_inv_step : Inv (atCell 3) ∧ ∃ t, step (atCell 3) = .next t :=
  ⟨by decide +kernel, exists_next (by decide +kernel)⟩

/-- TheEngineNeverWritesMem. -/
theorem test_witness_engine : isHostCommand (.mapcell 2 1) = false ∧ ∃ t, exec (.mapcell 2 1) (atCell 1) = .next t :=
  ⟨by decide, exists_next (by decide +kernel)⟩

/-- EachViewHasItsOwnWriters: an instruction that changes each view. -/
theorem test_witness_writers :
    seen (exec (.tileWr 0 1) small) (fun t => decide (memByte t 0 ≠ memByte small 0)) = some true ∧
    seen (exec (.sprWr 0 1) small) (fun t => decide (memWord t 32 ≠ memWord small 32)) = some true ∧
    seen (exec (.putSprite 1 1 0 0 0 0) small) (fun t => decide (memWord t 36 ≠ memWord small 36)) = some true ∧
    seen (exec (.palWr 0 1) small) (fun t => decide (memHalf t 48 ≠ memHalf small 48)) = some true ∧
    seen (exec (.mapWr 0 1) small) (fun t => decide (memByte t 56 ≠ memByte small 56)) = some true ∧
    seen (exec (.setMapCell 0 3 1 1) small) (fun t => decide (memByte t 59 ≠ memByte small 59)) = some true := by
  decide +kernel

/-- HostCommandsLeaveTheFramebuffer. -/
theorem test_witness_host_command : isHostCommand (.fbRd 0) = true ∧ Instr.fbRd 0 ≠ .reset ∧
    ∃ t, exec (.fbRd 1024) small = .next t := ⟨by decide, by decide, exists_next (by decide +kernel)⟩

/-- CommandsAreHeldWhileAFrameExecutes, in both passes. -/
theorem test_witness_held : ((atCell 0).seq.phase = .map ∧ ∃ t, step { atCell 0 with port := [[0x0D]] } = .next t) ∧
    (atSlot 0).seq.phase = .sprite ∧ ∃ t, step { atSlot 0 with port := [[0x0D]] } = .next t :=
  ⟨⟨by decide, exists_next (by decide +kernel)⟩, by decide, exists_next (by decide +kernel)⟩

/-- FaultHoldsUntilReset: a command other than `RESET` is offered. -/
theorem test_witness_fault_holds : faulted.seq.phase = .fault ∧ faulted.resetIn.headD false = false ∧
    decodeCommand [0x0C, 0x00, 0x00, 0x00] ≠ .ok .reset ∧
    ∃ t, step { faulted with port := [[0x0C, 0x00, 0x00, 0x00]] } = .next t :=
  ⟨by decide, by decide, by decide, exists_next (by decide +kernel)⟩

/-- StatusCombinationsThatNeverOccur: with and without `FAULT`. -/
theorem test_witness_flags : Inv small ∧ small.flags.fault = false ∧ Inv faulted ∧ faulted.flags.fault = true := by
  decide +kernel

/-- FrameStepsComputeTheFrameFunction: a frame that completes and one that raises. -/
theorem test_witness_frame_function :
    (Inv tinyGood ∧ Quiet tinyGood ∧ tinyGood.seq.phase = .idle ∧ (∃ a, exec .renderFrame tinyGood = .next a) ∧
      ∃ fb, renderFrame tinyGood tinyGood.fb = .ok fb) ∧
    Inv tinyBad ∧ Quiet tinyBad ∧ tinyBad.seq.phase = .idle ∧ (∃ a, exec .renderFrame tinyBad = .next a) ∧
      ∃ r, renderFrame tinyBad tinyBad.fb = .error r :=
  ⟨⟨by decide +kernel, by decide, by decide, ⟨_, rfl⟩, exists_ok (by decide +kernel)⟩,
    by decide +kernel, by decide, by decide, ⟨_, rfl⟩, exists_error (by decide +kernel)⟩

/-- CompletedFrameRepaintsEveryColourByte: two framebuffers, and the last colour byte. -/
theorem test_witness_repaint : (∃ f, renderFrame tinyGood [] = .ok f) ∧ (∃ g, renderFrame tinyGood [(0, 7)] = .ok g) ∧
    254 < tinyGood.cfg.fbSize ∧ 254 % 4 ≠ 3 :=
  ⟨exists_ok (by decide +kernel), exists_ok (by decide +kernel), by decide, by decide⟩

/-- RenderingTwiceIsBitIdentical: the two steps of a frame of one cell and one slot, and the frame issued again. -/
theorem test_witness_twice : ∃ a t b, exec .renderFrame tinyGood = .next a ∧
    stepN (tinyGood.cfg.cellCount + tinyGood.cfg.spriteCount) a = .next t ∧ t.flags.done = true ∧
    exec .renderFrame t = .next b ∧ Inv tinyGood ∧ Quiet tinyGood ∧ tinyGood.port = [] := by
  refine ⟨startFrame tinyGood, ?_⟩
  have h : seen (stepN 2 (startFrame tinyGood)) (·.flags.done) = some true := by decide +kernel
  cases ho : stepN 2 (startFrame tinyGood) with
  | next t =>
    rw [ho] at h
    exact ⟨t, _, rfl, ho, by simpa [seen] using h, rfl, by decide +kernel, by decide, rfl⟩
  | fault r => cases r
  | refused r => rw [ho] at h; simp [seen] at h

/-- The states of these tests have the invariant. -/
theorem test_inv : Inv (atSlot 3) ∧ Inv tinyGood := by decide +kernel

end Sys2Proof.Tests
end

section
/-! PROOFS. The reading and expanding units as arithmetic on the bytes and words they read
(spec/40_tile_decoder.md R110, spec/41_palette_resolver.md R120, R121): the laws of `Laws/Units.lean` say when a unit
raises and what it answers otherwise; these lemmas give the answer's value. -/

namespace Sys2Proof.Machine

/-- Selecting bit `7 - lx` of the tile's row is R110's shift, of which one bit is kept. -/
theorem tileBit_eq_shiftRight (s : State) (t : BitVec 8) (ly lx : BitVec 3) :
    tileBit s t ly lx = BitVec.ofNat 1
      ((memByte s (s.cfg.tileAddr (t.toNat * 8 + ly.toNat))).toNat >>> (7 - lx.toNat) % 2) := by
  rw [tileBit, Nat.mul_comm 8]
  apply BitVec.eq_of_toNat_eq
  simp [BitVec.getLsbD, Nat.toNat_testBit, Nat.shiftRight_eq_div_pow]

/-- Choosing a half of the palette word by the pixel value is R120's `(word >> (bit * 8)) & 0xFF`. -/
theorem paletteColor_eq_shiftRight (s : State) (p : BitVec 5) (bit : BitVec 1) :
    paletteColor s p bit = BitVec.ofNat 8
      ((memHalf s (s.cfg.palAddr p.toNat)).toNat >>> (bit.toNat * 8) % 256) := by
  apply BitVec.eq_of_toNat_eq
  rcases BitVec.eq_zero_or_eq_one bit with rfl | rfl <;> simp [paletteColor]

@[simp] theorem toNat_expand_r (c : Byte) : (expand c).r.toNat = c.toNat / 32 * 32 := by
  have := c.isLt
  simp only [expand, BitVec.toNat_shiftLeft, BitVec.toNat_ushiftRight, Nat.shiftRight_eq_div_pow, Nat.shiftLeft_eq]
  omega

@[simp] theorem toNat_expand_g (c : Byte) : (expand c).g.toNat = c.toNat / 4 % 8 * 32 := by
  have hmask : c.toNat / 4 &&& 7 = c.toNat / 4 % 8 := Nat.and_two_pow_sub_one_eq_mod _ 3
  simp only [expand, BitVec.toNat_shiftLeft, BitVec.toNat_and, BitVec.toNat_ushiftRight, BitVec.toNat_ofNat,
    Nat.shiftRight_eq_div_pow, Nat.shiftLeft_eq, Nat.reducePow, Nat.reduceMod, hmask]
  omega

@[simp] theorem toNat_expand_b (c : Byte) : (expand c).b.toNat = c.toNat % 4 * 64 := by
  have hmask : c.toNat &&& 3 = c.toNat % 4 := Nat.and_two_pow_sub_one_eq_mod _ 2
  simp only [expand, BitVec.toNat_shiftLeft, BitVec.toNat_and, BitVec.toNat_ofNat, Nat.shiftLeft_eq, Nat.reducePow,
    Nat.reduceMod, hmask]
  omega

/-- Settles O13: each unit's law (it answers, or it raises) with the answer's value as arithmetic. -/
theorem unitsDeliverOrRaise : Obligations.UnitsDeliverOrRaise := by
  unfold Obligations.UnitsDeliverOrRaise
  refine ⟨fun s t ly lx => ⟨fun h => ?_, fun h => decodePixel_raises h ly lx⟩,
    fun s p bit => ⟨fun h => ?_, fun h => resolveColor_raises h bit⟩,
    fun c => ⟨toNat_expand_r c, toNat_expand_g c, toNat_expand_b c⟩⟩
  · rw [decodePixel_ok h, tileBit_eq_shiftRight]
  · rw [resolveColor_ok h, paletteColor_eq_shiftRight]

end Sys2Proof.Machine
end

section
/-! PROOFS. `MAPCELL` (spec/42_compositor.md R132): what its 64 pixels ask for when the tile and the palette exist, what the
framebuffer reads after these writes, and the raise at the first pixel otherwise. The run of the block is the fold of
`Laws/Frame.lean`; these lemmas give its two outcomes. -/

namespace Sys2Proof.Machine

/-! ### The framebuffer's bytes after a list of pixel writes -/

theorem fbByte_of_written {u : State} {cfg : Config} {fb : List Host.Cell} {ws : List PixelWrite} {b : Nat} {v : Byte}
    (hfb : u.fb = applyWrites cfg fb ws) (h : written cfg ws b = some (some v)) : fbByte u b = v := by
  simp [fbByte, hfb, applyWrites_lookup, h]

theorem fbByte_of_not_written {s u : State} {cfg : Config} {ws : List PixelWrite} {b : Nat}
    (hfb : u.fb = applyWrites cfg s.fb ws) (he : u.epoch = s.epoch) (h : written cfg ws b = none) :
    fbByte u b = fbByte s b := by
  simp [fbByte, fbUnwritten, hfb, he, applyWrites_lookup, h]

/-- Where the writes of a list go to different pixels, each of them that lands on the surface shows its colour. -/
theorem showsColor_of_distinct {u : State} {cfg : Config} {fb : List Host.Cell} {ws : List PixelWrite} {w : PixelWrite}
    {c : Byte} (hfb : u.fb = applyWrites cfg fb ws) (hd : ∀ v ∈ ws, ∀ w ∈ ws, v.px = w.px → v.py = w.py → v = w)
    (hw : w ∈ ws) (hc : w.c = expand c) (hx : w.px < cfg.width) (hy : w.py < cfg.height) :
    ShowsColor u (cfg.pixelAddr w.px w.py) c := by
  obtain ⟨hr, hg, hb, -⟩ := touch_pixel cfg w hx hy
  rw [hc] at hr hg hb
  exact ⟨fbByte_of_written hfb (written_distinct hd hw hr), fbByte_of_written hfb (written_distinct hd hw hg),
    fbByte_of_written hfb (written_distinct hd hw hb)⟩

/-! ### What a map cell's pixels ask for -/

/-- The write that pixel `k` of map cell `e` asks for, tile and palette existing: its palette colour, no opacity. -/
def cellWrite (s : State) (e : Nat) (t : BitVec 8) (p : BitVec 5) (k : BitVec 3 × BitVec 3) : PixelWrite :=
  ⟨8 * cellCol s e + k.2.toNat, 8 * cellRow s e + k.1.toNat, expand (paletteColor s p (tileBit s t k.1 k.2)), false⟩

/-- The 64 writes of map cell `e`, in the order of its pixels. -/
def cellWrites (s : State) (e : Nat) (t : BitVec 8) (p : BitVec 5) : List PixelWrite :=
  blockPixels.map (cellWrite s e t p)

theorem cellWrite_mem (s : State) (e : Nat) (t : BitVec 8) (p : BitVec 5) (k : BitVec 3 × BitVec 3) :
    cellWrite s e t p k ∈ cellWrites s e t p :=
  List.mem_map_of_mem (mem_blockPixels k)

/-- The 64 writes of a map cell go to 64 different pixels. -/
theorem cellWrites_distinct (s : State) (e : Nat) (t : BitVec 8) (p : BitVec 5) :
    ∀ v ∈ cellWrites s e t p, ∀ w ∈ cellWrites s e t p, v.px = w.px → v.py = w.py → v = w := by
  intro v hv w hw hx hy
  obtain ⟨j, -, rfl⟩ := List.mem_map.1 hv
  obtain ⟨k, -, rfl⟩ := List.mem_map.1 hw
  have hlx : j.2 = k.2 := BitVec.eq_of_toNat_eq (Nat.add_left_cancel hx)
  have hly : j.1 = k.1 := BitVec.eq_of_toNat_eq (Nat.add_left_cancel hy)
  rw [Prod.ext hly hlx]

/-- A byte that is no colour byte of the block is not written by the cell, in particular no opacity byte. -/
theorem cellWrites_not_written {s : State} {e : Nat} {t : BitVec 8} {p : BitVec 5} {b : Nat}
    (h : ∀ (k : BitVec 3 × BitVec 3) (c : Nat), c < 3 →
      b ≠ s.cfg.pixelAddr (8 * cellCol s e + k.2.toNat) (8 * cellRow s e + k.1.toNat) + c) :
    written s.cfg (cellWrites s e t p) b = none := by
  refine written_none fun w hw => ?_
  obtain ⟨k, -, rfl⟩ := List.mem_map.1 hw
  by_contra hn
  obtain ⟨-, -, hlo, -, hhi⟩ := touch_bounds hn
  have hlt := hhi rfl
  exact h k (b - s.cfg.pixelAddr (8 * cellCol s e + k.2.toNat) (8 * cellRow s e + k.1.toNat))
    (by simp only [cellWrite] at hlt; omega) (by simp only [cellWrite] at hlo; omega)

theorem cellPixelPlan_ok {s : State} {t : BitVec 8} {p : BitVec 5} (ht : t.toNat < s.cfg.tileCount)
    (hp : p.toNat < s.cfg.paletteCount) (e : Nat) (k : BitVec 3 × BitVec 3) :
    cellPixelPlan s e t p k = .ok [cellWrite s e t p k] := by
  simp only [cellPixelPlan, decodePixel_ok ht, resolveColor_ok hp, cellWrite]

theorem cellPixelPlan_no_tile {s : State} {t : BitVec 8} (ht : s.cfg.tileCount ≤ t.toNat) (e : Nat) (p : BitVec 5)
    (k : BitVec 3 × BitVec 3) : cellPixelPlan s e t p k = .error ⟨.tile, t.toNat * 8 + k.1.toNat⟩ := by
  simp only [cellPixelPlan, decodePixel_raises ht]

/-- The tile is read before the palette (R204). -/
theorem cellPixelPlan_no_palette {s : State} {t : BitVec 8} {p : BitVec 5} (ht : t.toNat < s.cfg.tileCount)
    (hp : s.cfg.paletteCount ≤ p.toNat) (e : Nat) (k : BitVec 3 × BitVec 3) :
    cellPixelPlan s e t p k = .error ⟨.pal, p.toNat⟩ := by
  simp only [cellPixelPlan, decodePixel_ok ht, resolveColor_raises hp]

/-! ### The run of a map cell's block -/

theorem runList_cell_ok {s : State} {t : BitVec 8} {p : BitVec 5} (ht : t.toNat < s.cfg.tileCount)
    (hp : p.toNat < s.cfg.paletteCount) (e : Nat) (fb : List Host.Cell) :
    runList (cellPixel s e t p) blockPixels fb = (applyWrites s.cfg fb (cellWrites s e t p), none) := by
  rw [runList_ok (cellPixel_planned s e t p) blockPixels (fun k _ => cellPixelPlan_ok ht hp e k), cellWrites,
    List.map_eq_flatMap]

/-- A cell whose first pixel raises writes nothing. -/
theorem runList_cell_raises {s : State} {e : Nat} {t : BitVec 8} {p : BitVec 5} {r : Raise}
    (h : cellPixelPlan s e t p (0, 0) = .error r) (fb : List Host.Cell) :
    runList (cellPixel s e t p) blockPixels fb = (fb, some (r, (0, 0))) :=
  runList_raise (cellPixel_planned s e t p) (pre := []) (post := blockPixels.tail) (by simp) h fb

/-- The advance from the last pixel of a map cell: to the next cell, or to the first slot (R143). -/
theorem advanceEntry_map {s : State} (h : s.seq.phase = .map) :
    advanceEntry s = { s with
      seq := if s.seq.entry + 1 < s.cfg.cellCount then { s.seq with phase := .map, entry := s.seq.entry + 1 }
        else { s.seq with phase := .sprite, entry := 0 } } := by
  simp only [advanceEntry, h]
  split_ifs <;> rfl

/-! ### `MAPCELL` -/

section
variable {s : State} {t : BitVec 6} {p : BitVec 2}

/-- The state after a map cell that names a tile and a palette that exist. -/
def mapcellDone (s : State) (t : BitVec 6) (p : BitVec 2) : State :=
  { s with
    fb := applyWrites s.cfg s.fb (cellWrites s s.seq.entry (t.setWidth 8) (p.setWidth 5))
    latch := { s.latch with tileId := t.setWidth 8, palId := p.setWidth 5 }
    seq := if s.seq.entry + 1 < s.cfg.cellCount then { phase := .map, entry := s.seq.entry + 1, ly := 0, lx := 0 }
      else { phase := .sprite, entry := 0, ly := 0, lx := 0 } }

theorem exec_mapcell_done (h : s.seq.phase = .map) (ht : (t.setWidth 8).toNat < s.cfg.tileCount)
    (hp : (p.setWidth 5).toNat < s.cfg.paletteCount) : exec (.mapcell t p) s = .next (mapcellDone s t p) := by
  rw [exec, execMapcell_run t p h, runList_cell_ok ht hp]
  exact congrArg _ (advanceEntry_map h)

theorem exec_mapcell_raises {r : Raise} (h : s.seq.phase = .map)
    (hr : cellPixelPlan s s.seq.entry (t.setWidth 8) (p.setWidth 5) (0, 0) = .error r) :
    ∃ u, exec (.mapcell t p) s = .next u ∧
      FaultedFrom { s with
        latch := { s.latch with tileId := t.setWidth 8, palId := p.setWidth 5 }
        seq := { s.seq with ly := 0, lx := 0 } } u r.view r.index false := by
  rw [exec, execMapcell_run t p h, runList_cell_raises hr]
  exact ⟨_, rfl, rfl⟩

theorem mapcellDone_showsColor (he : s.seq.entry < s.cfg.cellCount) (ly lx : BitVec 3) :
    ShowsColor (mapcellDone s t p)
      (s.cfg.pixelAddr (8 * cellCol s s.seq.entry + lx.toNat) (8 * cellRow s s.seq.entry + ly.toNat))
      (paletteColor s (p.setWidth 5) (tileBit s (t.setWidth 8) ly lx)) := by
  obtain ⟨hx, hy⟩ := cell_on_surface he (ly, lx)
  exact showsColor_of_distinct rfl (cellWrites_distinct s s.seq.entry _ _) (cellWrite_mem s s.seq.entry _ _ (ly, lx)) rfl
    hx hy

theorem mapcellDone_keeps {b : Nat}
    (h : ∀ (ly lx : BitVec 3) (c : Nat), c < 3 →
      b ≠ s.cfg.pixelAddr (8 * cellCol s s.seq.entry + lx.toNat) (8 * cellRow s s.seq.entry + ly.toNat) + c) :
    fbByte (mapcellDone s t p) b = fbByte s b :=
  fbByte_of_not_written rfl rfl (cellWrites_not_written fun k c hc => h k.1 k.2 c hc)

end

/-- Settles O22: the run of the block is its 64 writes, which go to different pixels of the surface, or stops at the first
pixel on the raise of the tile read, else of the palette read. -/
theorem mapcellPaintsItsBlock : Obligations.MapcellPaintsItsBlock := by
  unfold Obligations.MapcellPaintsItsBlock
  intro s t p hmap he
  have ht : (t.setWidth 8).toNat = t.toNat := BitVec.toNat_setWidth_of_le (by decide)
  have hp : (p.setWidth 5).toNat = p.toNat := BitVec.toNat_setWidth_of_le (by decide)
  refine ⟨fun hT hP => ?_, fun hT => ?_, fun hT hP => ?_⟩
  · exact ⟨mapcellDone s t p, exec_mapcell_done hmap (ht.symm ▸ hT) (hp.symm ▸ hP), rfl, mapcellDone_showsColor he,
      fun _ => mapcellDone_keeps⟩
  · rw [← ht, Nat.mul_comm 8]
    exact exec_mapcell_raises hmap (cellPixelPlan_no_tile (ht.symm ▸ hT) s.seq.entry (p.setWidth 5) (0, 0))
  · rw [← hp]
    exact exec_mapcell_raises hmap (cellPixelPlan_no_palette (ht.symm ▸ hT) (hp.symm ▸ hP) s.seq.entry (0, 0))

end Sys2Proof.Machine
end

section
/-! PROOFS. The host's read and write commands on the TILE, SPR and PAL views in `IDLE` (spec/44_host_commands.md R172 to
R177). Each command is its checked access, answered (the equations below); the laws of `Laws/Memory.lean` say that the
access answers inside the view and raises outside it, and what the bytes read after a write. -/

namespace Sys2Proof.Machine

/-! ### What the commands run in `IDLE` -/

section
variable {s : State} (h : s.seq.phase = .idle)
include h

theorem exec_tileRd_idle (i : BitVec 24) :
    exec (.tileRd i) s = .next (hostRead s (tileRead s i.toNat) .ok8) :=
  congrArg _ (onCommand_idle h _)

theorem exec_tileWr_idle (i : BitVec 24) (d : BitVec 8) :
    exec (.tileWr i d) s = .next (hostWrite s (tileWrite s i.toNat d)) :=
  congrArg _ (onCommand_idle h _)

theorem exec_sprRd_idle (i : BitVec 24) :
    exec (.sprRd i) s = .next (hostRead s (sprRead s i.toNat) .ok32) :=
  congrArg _ (onCommand_idle h _)

theorem exec_sprWr_idle (i : BitVec 24) (d : BitVec 32) :
    exec (.sprWr i d) s = .next (hostWrite s (sprWrite s i.toNat d)) :=
  congrArg _ (onCommand_idle h _)

theorem exec_palRd_idle (i : BitVec 24) :
    exec (.palRd i) s = .next (hostRead s (palRead s i.toNat) .ok16) :=
  congrArg _ (onCommand_idle h _)

theorem exec_palWr_idle (i : BitVec 24) (d : BitVec 16) :
    exec (.palWr i d) s = .next (hostWrite s (palWrite s i.toNat d)) :=
  congrArg _ (onCommand_idle h _)

end

/-! ### An access that raises enters `FAULT` with `FHOST = 1` (R172 to R177, R207) -/

theorem hostRead_faults {α : Type} {s : State} {res : Except Raise α} {r : Raise} (hr : res = .error r)
    (f : α → Response) : FaultedFrom s (hostRead s res f) r.view r.index true := by
  rw [hr, hostRead_error]; rfl

theorem hostWrite_faults {s : State} {res : Except Raise State} {r : Raise} (hr : res = .error r) :
    FaultedFrom s (hostWrite s res) r.view r.index true := by
  rw [hr, hostWrite_error]; rfl

/-! ### The frame of a halfword write and of a word write -/

theorem memByte_memPutHalf_outside (s : State) {a b : Nat} (v : Half) (hb : b < a ∨ a + 2 ≤ b) :
    memByte (memPutHalf s a v) b = memByte s b := by
  rw [memByte_memPutHalf, if_neg (by omega), if_neg (by omega)]

theorem memByte_memPutWord_outside (s : State) {a b : Nat} (v : Word) (hb : b < a ∨ a + 4 ≤ b) :
    memByte (memPutWord s a v) b = memByte s b := by
  rw [memByte_memPutWord, if_neg (by omega), if_neg (by omega), if_neg (by omega), if_neg (by omega)]

/-! ### The three views' commands -/

/-- Settles O28: inside the view the access answers, so the byte read or the one byte written is what `MEM` holds; outside
it the access raises. -/
theorem tileCommandsReadAndStore : Obligations.TileCommandsReadAndStore := by
  unfold Obligations.TileCommandsReadAndStore
  intro s idx d h
  rw [exec_tileRd_idle h, exec_tileWr_idle h]
  refine ⟨fun hin => ?_, fun hout => ?_⟩
  · rw [tileRead_in hin, tileWrite_in hin]
    exact ⟨rfl, _, rfl, rfl, fun b => memByte_memPut s _ b d⟩
  · exact ⟨⟨_, rfl, hostRead_faults (tileRead_out hout) _⟩, _, rfl, hostWrite_faults (tileWrite_out hout d)⟩

/-- Settles O29: inside the view the word written is read back whole and its four bytes are all that changes; outside it the
access raises. -/
theorem spriteCommandsReadAndStore : Obligations.SpriteCommandsReadAndStore := by
  unfold Obligations.SpriteCommandsReadAndStore
  intro s slot d h
  rw [exec_sprRd_idle h, exec_sprWr_idle h]
  refine ⟨fun hin => ?_, fun hout => ?_⟩
  · rw [sprRead_in hin, sprWrite_in hin]
    exact ⟨rfl, _, rfl, rfl, memWord_memPutWord s _ d, fun b => memByte_memPutWord_outside s d⟩
  · exact ⟨⟨_, rfl, hostRead_faults (sprRead_out hout) _⟩, _, rfl, hostWrite_faults (sprWrite_out hout d)⟩

/-- Settles O30: inside the view the halfword written is read back whole and its two bytes are all that changes; outside it
the access raises. -/
theorem paletteCommandsReadAndStore : Obligations.PaletteCommandsReadAndStore := by
  unfold Obligations.PaletteCommandsReadAndStore
  intro s idx d h
  rw [exec_palRd_idle h, exec_palWr_idle h]
  refine ⟨fun hin => ?_, fun hout => ?_⟩
  · rw [palRead_in hin, palWrite_in hin]
    exact ⟨rfl, _, rfl, rfl, memHalf_memPutHalf s _ d, fun b => memByte_memPutHalf_outside s d⟩
  · exact ⟨⟨_, rfl, hostRead_faults (palRead_out hout) _⟩, _, rfl, hostWrite_faults (palWrite_out hout d)⟩

end Sys2Proof.Machine
end

section
/-! PROOFS. The order of one pixel's checks (spec/60_exceptions.md R204): when the pixel body skips a pixel, and what the
body comes to at each check, over the unit laws of `Laws/Units.lean`. -/

namespace Sys2Proof.Machine

/-! ### The transparency test and the bounds check -/

/-- In the sprite pass the pixel of value `bit` is skipped by bit number `bit` of the latched mode (R102, R139). -/
theorem skipsPixel_of_sprite {s : State} (h : s.seq.phase = .sprite) (bit : BitVec 1) :
    skipsPixel s bit = s.latch.mode.getLsbD bit.toNat := by
  simp only [skipsPixel, h, transparent_iff]

/-- A pixel of the map pass, and a sprite pixel whose mode bit is clear, is drawn (R132, R139). -/
theorem skipsPixel_eq_false {s : State} {bit : BitVec 1} (hphase : s.seq.phase = .map ∨ s.seq.phase = .sprite)
    (h : s.seq.phase = .map ∨ s.latch.mode.getLsbD bit.toNat = false) : skipsPixel s bit = false := by
  rcases hphase with hmap | hsprite
  · simp only [skipsPixel, hmap]
  · have hmode : s.latch.mode.getLsbD bit.toNat = false := h.resolve_left (by simp [hsprite])
    rw [skipsPixel_of_sprite hsprite, hmode]

/-- Nothing is stored for a pixel outside the surface (R161). -/
theorem writePixel_outside {cfg : Config} {px py : Nat} (h : cfg.width ≤ px ∨ cfg.height ≤ py) (m : List Host.Cell)
    (c : Channels) (setA : Bool) : writePixel cfg m px py c setA = m :=
  if_pos h

/-! ### The pixel body at each check -/

section
variable {s : State}

theorem pixelBody_no_tile (h : s.cfg.tileCount ≤ s.latch.tileId.toNat) :
    pixelBody s = .error ⟨.tile, s.latch.tileId.toNat * 8 + s.seq.ly.toNat⟩ := by
  rw [pixelBody, decodePixel_raises h]

variable (ht : s.latch.tileId.toNat < s.cfg.tileCount)
include ht

theorem pixelBody_skipped (h : skipsPixel s (tileBit s s.latch.tileId s.seq.ly s.seq.lx) = true) :
    pixelBody s = .ok s := by
  rw [pixelBody, decodePixel_ok ht]
  exact if_pos h

theorem pixelBody_drawn (h : skipsPixel s (tileBit s s.latch.tileId s.seq.ly s.seq.lx) = false) :
    pixelBody s = drawPixel s (tileBit s s.latch.tileId s.seq.ly s.seq.lx) := by
  rw [pixelBody, decodePixel_ok ht]
  exact if_neg (ne_true_of_eq_false h)

end

/-- The palette is read before the bounds check, so the raise does not depend on where the pixel lands. -/
theorem drawPixel_no_palette {s : State} (h : s.cfg.paletteCount ≤ s.latch.palId.toNat) (bit : BitVec 1) :
    drawPixel s bit = .error ⟨.pal, s.latch.palId.toNat⟩ := by
  rw [drawPixel, resolveColor_raises h]

theorem drawPixel_ok {s : State} (h : s.latch.palId.toNat < s.cfg.paletteCount) (bit : BitVec 1) :
    drawPixel s bit =
      .ok (fbWrite s (pixelX s) (pixelY s) (expand (paletteColor s s.latch.palId bit)) (setsOpacity s)) := by
  rw [drawPixel, resolveColor_ok h]

/-- Settles O21: the body runs into the tile read, the transparency test, the palette read and the framebuffer write in
turn, and each of the equations above is the body stopped at one of them. -/
theorem pixelChecksComeInOrder : Obligations.PixelChecksComeInOrder := by
  unfold Obligations.PixelChecksComeInOrder
  intro s hphase
  refine ⟨pixelBody_no_tile, fun ht => ⟨fun hsprite hmode => ?_, fun hdrawn => ?_⟩⟩
  · exact pixelBody_skipped ht ((skipsPixel_of_sprite hsprite _).trans hmode)
  · rw [pixelBody_drawn ht (skipsPixel_eq_false hphase hdrawn)]
    refine ⟨fun hp => drawPixel_no_palette hp _, fun hp => ⟨_, drawPixel_ok hp _, rfl, fun hout => ?_⟩⟩
    exact writePixel_outside hout s.fb _ _

end Sys2Proof.Machine
end

section
/-! PROOFS. Encodings (spec/30_encoding.md): the round trip of every instruction, what the display words decode to and
pack back to, the packed operands as numbers, and which records are commands. -/

namespace Sys2Proof

open Sys2Proof.Machine

/-! ### Decoding what was encoded -/

theorem decodeSprite_packSprite {l : Layout} (h1 : l.spriteFits = true) (h2 : l.spriteApart = true) (t : BitVec 8)
    (p : BitVec 5) (m : BitVec 2) (x y : BitVec 8) :
    decodeSprite l (packSprite l t p m x y) =
      if m = 0b11#2 then .sprDisabled else if m = 0b00#2 then .sprOpaque t p x y
      else if m = 0b01#2 then .sprBack t p x y else .sprFront t p x y := by
  obtain ⟨ht, hp, hm, hx, hy⟩ := packSprite_fields l h1 h2 t p m x y
  rw [decodeSprite, spriteMode, ht, hp, hm, hx, hy]

section
variable (r : List Byte)

theorem take16_bytes (v : BitVec 16) : take16 (bytes16 v ++ r) = some (v, r) :=
  congrArg (fun u => some (u, r)) (join_bytes16 v)

theorem take24_bytes (v : BitVec 24) : take24 (bytes24 v ++ r) = some (v, r) :=
  congrArg (fun u => some (u, r)) (join_bytes24 v)

theorem take32_bytes (v : BitVec 32) : take32 (bytes32 v ++ r) = some (v, r) :=
  congrArg (fun u => some (u, r)) (join_bytes32 v)

end

theorem oneIndex_bytes (f : BitVec 24 → Instr) (i : BitVec 24) : oneIndex f (bytes24 i) = some (f i) := by
  rw [oneIndex, ← List.append_nil (bytes24 i), take24_bytes]; rfl

theorem indexByte_bytes (f : BitVec 24 → BitVec 8 → Instr) (i : BitVec 24) (d : BitVec 8) :
    indexByte f (bytes24 i ++ [d]) = some (f i d) := by
  rw [indexByte, take24_bytes]; rfl

theorem indexHalf_bytes (f : BitVec 24 → BitVec 16 → Instr) (i : BitVec 24) (d : BitVec 16) :
    indexHalf f (bytes24 i ++ bytes16 d) = some (f i d) := by
  rw [indexHalf, take24_bytes, Option.bind_some, ← List.append_nil (bytes16 d), take16_bytes]; rfl

theorem indexWord_bytes (f : BitVec 24 → BitVec 32 → Instr) (i : BitVec 24) (d : BitVec 32) :
    indexWord f (bytes24 i ++ bytes32 d) = some (f i d) := by
  rw [indexWord, take24_bytes, Option.bind_some, ← List.append_nil (bytes32 d), take32_bytes]; rfl

theorem cellOperands_bytes (f : BitVec 8 → BitVec 8 → BitVec 16 → BitVec 16 → Instr) (row col : BitVec 8)
    (t p : BitVec 16) : cellOperands f (row :: col :: (bytes16 t ++ bytes16 p)) = some (f row col t p) := by
  rw [← List.append_nil (bytes16 p)]
  simp only [cellOperands, take8, Option.bind_some, take16_bytes, noMore]

theorem spriteOperands_bytes (f : BitVec 24 → BitVec 16 → BitVec 16 → BitVec 16 → BitVec 16 → BitVec 16 → Instr)
    (slot : BitVec 24) (t p x y m : BitVec 16) :
    spriteOperands f (bytes24 slot ++ (bytes16 t ++ (bytes16 p ++ (bytes16 x ++ (bytes16 y ++ bytes16 m))))) =
      some (f slot t p x y m) := by
  rw [← List.append_nil (bytes16 m)]
  simp only [spriteOperands, take24_bytes, Option.bind_some, take16_bytes, noMore]

theorem decode_command {l : Layout} {code : Byte} {ops : List Byte} {i : Instr}
    (hc : isCommandCode code.toNat = true) (h : commandOperands code.toNat ops = some i) :
    decode l (.command (code :: ops)) = .ok i := by
  simp only [decode, decodeCommand, hc, h, if_true]

theorem decodeUnit_decodePixel (t : BitVec 8) (ly lx : BitVec 3) :
    decodeUnit (.decodePixel (t ++ (ly ++ lx))) = .decodePixel t ly lx := by
  have ht : (t ++ (ly ++ lx)).extractLsb' 6 8 = t := BitVec.extractLsb'_append_eq_left
  have hly : (t ++ (ly ++ lx)).extractLsb' 3 3 = ly :=
    (BitVec.extractLsb'_append_eq_of_add_le (by decide)).trans BitVec.extractLsb'_append_eq_left
  have hlx : (t ++ (ly ++ lx)).extractLsb' 0 3 = lx :=
    (BitVec.extractLsb'_append_eq_of_add_le (by decide)).trans BitVec.extractLsb'_append_eq_right
  exact congr (congr (congrArg _ ht) hly) hlx

theorem decodeUnit_resolveColor (p : BitVec 5) (b : BitVec 1) :
    decodeUnit (.resolveColor (p ++ b)) = .resolveColor p b := by
  have hp : (p ++ b).extractLsb' 1 5 = p := BitVec.extractLsb'_append_eq_left
  have hb : (p ++ b).extractLsb' 0 1 = b := BitVec.extractLsb'_append_eq_right
  exact congr (congrArg _ hp) hb

theorem decodeUnit_fbWrite (px py : BitVec 11) (r g b : BitVec 8) (a : BitVec 1) :
    decodeUnit (.fbWrite (px ++ (py ++ (r ++ (g ++ (b ++ a)))))) = .fbWrite px py r g b a := by
  have low {m n lo k : Nat} (x : BitVec m) {y : BitVec n} {v : BitVec k} (h : lo + k ≤ n)
      (hy : y.extractLsb' lo k = v) : (x ++ y).extractLsb' lo k = v :=
    (BitVec.extractLsb'_append_eq_of_add_le h).trans hy
  have hpx : (px ++ (py ++ (r ++ (g ++ (b ++ a))))).extractLsb' 36 11 = px := BitVec.extractLsb'_append_eq_left
  have hpy : (px ++ (py ++ (r ++ (g ++ (b ++ a))))).extractLsb' 25 11 = py :=
    low px (by decide) BitVec.extractLsb'_append_eq_left
  have hr : (px ++ (py ++ (r ++ (g ++ (b ++ a))))).extractLsb' 17 8 = r :=
    low px (by decide) (low py (by decide) BitVec.extractLsb'_append_eq_left)
  have hg : (px ++ (py ++ (r ++ (g ++ (b ++ a))))).extractLsb' 9 8 = g :=
    low px (by decide) (low py (by decide) (low r (by decide) BitVec.extractLsb'_append_eq_left))
  have hb : (px ++ (py ++ (r ++ (g ++ (b ++ a))))).extractLsb' 1 8 = b :=
    low px (by decide) (low py (by decide) (low r (by decide) (low g (by decide) BitVec.extractLsb'_append_eq_left)))
  have ha : (px ++ (py ++ (r ++ (g ++ (b ++ a))))).extractLsb' 0 1 = a :=
    low px (by decide) (low py (by decide) (low r (by decide) (low g (by decide) BitVec.extractLsb'_append_eq_right)))
  exact congr (congr (congr (congr (congr (congrArg _ hpx) hpy) hr) hg) hb) ha

/-- Settles O1: a display word's fields are the ones packed, a bundle's operands lie side by side, a record's bytes put
together again are its operands. -/
theorem decodeOfEncodeIsTheInstruction : Obligations.DecodeOfEncodeIsTheInstruction := by
  unfold Obligations.DecodeOfEncodeIsTheInstruction
  intro l hl i
  simp only [Layout.WellFormed, Bool.and_eq_true] at hl
  obtain ⟨⟨hfits, hapart⟩, hcell⟩ := hl
  have hsprite := decodeSprite_packSprite hfits hapart
  cases i with
  | mapcell t p => exact congrArg _ (decodeCell_packCell l hcell t p)
  | sprOpaque t p x y => exact congrArg _ (hsprite t p 0b00#2 x y)
  | sprBack t p x y => exact congrArg _ (hsprite t p 0b01#2 x y)
  | sprFront t p x y => exact congrArg _ (hsprite t p 0b10#2 x y)
  | sprDisabled => exact congrArg _ (hsprite 0 0 0b11#2 0 0)
  | decodePixel t ly lx => exact congrArg _ (decodeUnit_decodePixel t ly lx)
  | resolveColor p b => exact congrArg _ (decodeUnit_resolveColor p b)
  | expandToChannels c => rfl
  | fbWrite px py r g b a => exact congrArg _ (decodeUnit_fbWrite px py r g b a)
  | tileRd i | sprRd i | palRd i | mapRd i | fbRd i => exact decode_command rfl (oneIndex_bytes _ i)
  | tileWr i d | mapWr i d => exact decode_command rfl (indexByte_bytes _ i d)
  | sprWr i d => exact decode_command rfl (indexWord_bytes _ i d)
  | palWr i d => exact decode_command rfl (indexHalf_bytes _ i d)
  | setMapCell row col t p => exact decode_command rfl (cellOperands_bytes _ row col t p)
  | putSprite slot t p x y m => exact decode_command rfl (spriteOperands_bytes _ slot t p x y m)
  | renderFrame | statusRd | reset => rfl

/-- Settles O5: seven words, each decoded by evaluation. -/
theorem sampleWordsDecode : Obligations.SampleWordsDecode := by
  unfold Obligations.SampleWordsDecode
  exact ⟨rfl, rfl, rfl, rfl, rfl, rfl, rfl⟩

/-! ### The display words -/

/-- A field cut out of a word and put back at its place is the word's bits there. -/
theorem own_field_bit {W : Nat} (w : BitVec W) {lo k : Nat} (h : lo + k ≤ W) (i : Nat) :
    ((w.extractLsb' lo k).setWidth W <<< lo).getLsbD i = (decide (lo ≤ i ∧ i < lo + k) && w.getLsbD i) := by
  rw [field_bit _ _ _ h, BitVec.getLsbD_extractLsb']
  by_cases hi : lo ≤ i ∧ i < lo + k
  · rw [decide_eq_true (show i - lo < k by omega), Bool.true_and, Nat.add_sub_cancel' hi.1]
  · rw [decide_eq_false hi, Bool.false_and, Bool.false_and]

theorem packCell_decoded (b : Byte) :
    packCell Layout.default (b.extractLsb' 2 6) (b.extractLsb' 0 2) = b := by
  refine BitVec.eq_of_getLsbD_eq fun i hi => ?_
  simp only [packCell, Layout.default, BitVec.getLsbD_or]
  rw [own_field_bit b (by decide), own_field_bit b (by decide)]
  rcases Nat.lt_or_ge i 2 with h | h
  · rw [decide_eq_false (by omega), decide_eq_true (by omega), Bool.false_and, Bool.true_and, Bool.false_or]
  · rw [decide_eq_true (by omega), decide_eq_false (by omega), Bool.false_and, Bool.true_and, Bool.or_false]

/-- The five fields cut out of a word and packed again are the word but for bit 8, which no field covers. -/
theorem packSprite_decoded (w : Word) :
    packSprite Layout.default (w.extractLsb' 24 8) (w.extractLsb' 19 5) (w.extractLsb' 17 2) (w.extractLsb' 9 8)
      (w.extractLsb' 0 8) = w &&& 0xFFFFFEFF#32 := by
  have hmask : ∀ i < 32, (0xFFFFFEFF#32).getLsbD i = decide (i ≠ 8) := by decide
  refine BitVec.eq_of_getLsbD_eq fun i hi => ?_
  simp only [packSprite, Layout.default, BitVec.getLsbD_or, BitVec.getLsbD_and, hmask i hi]
  rw [own_field_bit w (by decide), own_field_bit w (by decide), own_field_bit w (by decide),
    own_field_bit w (by decide), own_field_bit w (by decide), Bool.eq_iff_iff]
  simp only [Bool.or_eq_true, Bool.and_eq_true, decide_eq_true_eq]
  constructor
  · rintro ((((⟨h, hw⟩ | ⟨h, hw⟩) | ⟨h, hw⟩) | ⟨h, hw⟩) | ⟨h, hw⟩)
    all_goals exact ⟨hw, by omega⟩
  · rintro ⟨hw, hne⟩
    simp only [hw, and_true]
    omega

/-- A two-bit mode is one of four. -/
theorem mode_cases : ∀ m : BitVec 2, m = 0b00#2 ∨ m = 0b01#2 ∨ m = 0b10#2 ∨ m = 0b11#2 := by decide

theorem encode_decodeSprite {l : Layout} {w : Word} (h : spriteMode l w ≠ 0b11#2) :
    encode l (decodeSprite l w) = .sprite (packSprite l (w.extractLsb' l.sprTile 8) (w.extractLsb' l.sprPal 5)
      (spriteMode l w) (w.extractLsb' l.sprX 8) (w.extractLsb' l.sprY 8)) := by
  rcases mode_cases (spriteMode l w) with hm | hm | hm | hm
  · simp only [decodeSprite, hm]; rfl
  · simp only [decodeSprite, hm]; rfl
  · simp only [decodeSprite, hm]; rfl
  · exact absurd hm h

/-- Settles O2: every bit of the word but bit 8 lies in one field, and is put back there. -/
theorem displayWordsPackBackUpToTheSpareBit : Obligations.DisplayWordsPackBackUpToTheSpareBit := by
  unfold Obligations.DisplayWordsPackBackUpToTheSpareBit
  exact ⟨fun b => congrArg _ (packCell_decoded b),
    fun w hw => (encode_decodeSprite (l := Layout.default) hw).trans (congrArg _ (packSprite_decoded w))⟩

/-- The opcode map's mask leaves the layer mode at its place (R96). -/
theorem and_modeMask (w : Word) :
    w &&& 0x00060000#32 = (spriteMode Layout.default w).setWidth 32 <<< 17 := by
  have hmask : ∀ i < 32, (0x00060000#32).getLsbD i = decide (17 ≤ i ∧ i < 17 + 2) := by decide
  refine BitVec.eq_of_getLsbD_eq fun i hi => ?_
  rw [BitVec.getLsbD_and, hmask i hi, Bool.and_comm]
  exact (own_field_bit w (by decide) i).symm

/-- Settles O3: the masked word is the layer mode, and the layer mode selects the instruction. -/
theorem everySpriteWordIsOneOfFourInstructions : Obligations.EverySpriteWordIsOneOfFourInstructions := by
  unfold Obligations.EverySpriteWordIsOneOfFourInstructions
  refine ⟨fun b => rfl, fun w => ?_, rfl⟩
  rw [and_modeMask]
  rcases mode_cases (spriteMode Layout.default w) with hm | hm | hm | hm <;> rw [decodeSprite, hm]
  · exact .inl ⟨rfl, rfl⟩
  · exact .inr (.inl ⟨rfl, rfl⟩)
  · exact .inr (.inr (.inl ⟨rfl, rfl⟩))
  · exact .inr (.inr (.inr ⟨rfl, rfl⟩))

/-! ### The packed operands as numbers -/

theorem field_toNat {k W : Nat} (v : BitVec k) {lo : Nat} (h : lo + k ≤ W) :
    (v.setWidth W <<< lo).toNat = v.toNat <<< lo := by
  have hlt : v.toNat <<< lo < 2 ^ W := by
    rw [Nat.shiftLeft_eq]
    calc v.toNat * 2 ^ lo < 2 ^ k * 2 ^ lo := Nat.mul_lt_mul_of_pos_right v.isLt (Nat.two_pow_pos lo)
      _ = 2 ^ (lo + k) := by rw [← Nat.pow_add, Nat.add_comm]
      _ ≤ 2 ^ W := Nat.pow_le_pow_right (by decide) h
  rw [BitVec.toNat_shiftLeft, BitVec.toNat_setWidth_of_le (by omega), Nat.mod_eq_of_lt hlt]

/-- A field over smaller ones adds to them. -/
theorem shiftLeft_or_eq_add {a b i : Nat} (h : b < 2 ^ i) : a <<< i ||| b = a * 2 ^ i + b := by
  rw [← Nat.shiftLeft_add_eq_or_of_lt h, Nat.shiftLeft_eq]

/-- Settles O6: the tile's field lies over the palette's. -/
theorem packedCellHoldsTheMaskedFields : Obligations.PackedCellHoldsTheMaskedFields := by
  unfold Obligations.PackedCellHoldsTheMaskedFields
  refine fun t p => ⟨?_, decodeCell_packCell Layout.default rfl _ _⟩
  simp only [cellOperand, packCell, Layout.default, BitVec.toNat_or]
  rw [field_toNat _ (by decide), field_toNat _ (by decide), Nat.shiftLeft_zero,
    shiftLeft_or_eq_add (BitVec.isLt _), BitVec.toNat_setWidth, BitVec.toNat_setWidth]
  rfl

theorem toNat_packSprite (t : BitVec 8) (p : BitVec 5) (m : BitVec 2) (x y : BitVec 8) :
    (packSprite Layout.default t p m x y).toNat =
      t.toNat * 2 ^ 24 + p.toNat * 2 ^ 19 + m.toNat * 2 ^ 17 + x.toNat * 2 ^ 9 + y.toNat := by
  have hp := p.isLt
  have hm := m.isLt
  have hx := x.isLt
  have hy := y.isLt
  simp only [packSprite, Layout.default, BitVec.toNat_or]
  rw [field_toNat _ (by decide), field_toNat _ (by decide), field_toNat _ (by decide), field_toNat _ (by decide),
    field_toNat _ (by decide), Nat.shiftLeft_zero, Nat.or_assoc, Nat.or_assoc, Nat.or_assoc,
    shiftLeft_or_eq_add (i := 9) (by omega), shiftLeft_or_eq_add (i := 17) (by omega),
    shiftLeft_or_eq_add (i := 19) (by omega), shiftLeft_or_eq_add (i := 24) (by omega)]
  omega

/-- Setting the spare bit changes no field that leaves bit 8 out. -/
theorem extract_or_spareBit (w : Word) {lo k : Nat} (h : lo + k ≤ 8 ∨ 9 ≤ lo) :
    (w ||| 0x00000100#32).extractLsb' lo k = w.extractLsb' lo k := by
  have hbit (i : Nat) (hi : i ≠ 8) : (0x00000100#32).getLsbD i = false := by
    rw [show 0x00000100#32 = BitVec.twoPow 32 8 from rfl, BitVec.getLsbD_twoPow]
    simp [Ne.symm hi]
  ext i hi
  rw [BitVec.getElem_extractLsb', BitVec.getElem_extractLsb', BitVec.getLsbD_or, hbit _ (by omega), Bool.or_false]

/-- Settles O7: the fields lie one over the other with bit 8 left out. -/
theorem packedSpriteHoldsTheMaskedFields : Obligations.PackedSpriteHoldsTheMaskedFields := by
  unfold Obligations.PackedSpriteHoldsTheMaskedFields
  refine ⟨fun t p x y m => ⟨?_, ?_, ?_⟩, fun w => ?_⟩
  · rw [spriteOperand, toNat_packSprite]
    simp only [BitVec.toNat_setWidth]
  · obtain ⟨w, hw, -, hspare⟩ := packSprite_isSpriteWord (t.setWidth 8) (p.setWidth 5) (m.setWidth 2) (x.setWidth 8)
      (y.setWidth 8)
    cases hw
    exact hspare
  · exact packSprite_fields Layout.default rfl rfl _ _ _ _ _
  · have hmode : spriteMode Layout.default (w ||| 0x00000100#32) = spriteMode Layout.default w :=
      extract_or_spareBit w (by decide)
    have htile := extract_or_spareBit w (lo := Layout.default.sprTile) (k := 8) (by decide)
    have hpal := extract_or_spareBit w (lo := Layout.default.sprPal) (k := 5) (by decide)
    have hx := extract_or_spareBit w (lo := Layout.default.sprX) (k := 8) (by decide)
    have hy := extract_or_spareBit w (lo := Layout.default.sprY) (k := 8) (by decide)
    rw [decodeSprite, decodeSprite, hmode, htile, hpal, hx, hy]

/-! ### Which records are commands -/

section
variable {n : Nat} {ops : List Byte}

theorem take8_of_length (h : ops.length = n + 1) : ∃ v r, take8 ops = some (v, r) ∧ r.length = n := by
  match ops, h with
  | a :: r, h => exact ⟨a, r, rfl, by simpa using h⟩

theorem take16_of_length (h : ops.length = n + 2) : ∃ v r, take16 ops = some (v, r) ∧ r.length = n := by
  match ops, h with
  | a :: b :: r, h => exact ⟨_, r, rfl, by simpa using h⟩

theorem take24_of_length (h : ops.length = n + 3) : ∃ v r, take24 ops = some (v, r) ∧ r.length = n := by
  match ops, h with
  | a :: b :: c :: r, h => exact ⟨_, r, rfl, by simpa using h⟩

theorem take32_of_length (h : ops.length = n + 4) : ∃ v r, take32 ops = some (v, r) ∧ r.length = n := by
  match ops, h with
  | a :: b :: c :: d :: r, h => exact ⟨_, r, rfl, by simpa using h⟩

theorem noMore_of_length (i : Instr) (h : ops.length = 0) : noMore i ops = some i := by
  rw [List.length_eq_zero_iff.1 h]; rfl

end

section
variable {ops : List Byte}

theorem oneIndex_of_length (f : BitVec 24 → Instr) (h : ops.length = 3) : ∃ i, oneIndex f ops = some i := by
  obtain ⟨a, r, ha, hr⟩ := take24_of_length (n := 0) h
  simp only [oneIndex, ha, Option.bind_some, noMore_of_length _ hr, Option.some.injEq, exists_eq']

theorem indexByte_of_length (f : BitVec 24 → BitVec 8 → Instr) (h : ops.length = 4) :
    ∃ i, indexByte f ops = some i := by
  obtain ⟨a, r, ha, hr⟩ := take24_of_length (n := 1) h
  obtain ⟨b, r', hb, hr'⟩ := take8_of_length (n := 0) hr
  simp only [indexByte, ha, hb, Option.bind_some, noMore_of_length _ hr', Option.some.injEq, exists_eq']

theorem indexHalf_of_length (f : BitVec 24 → BitVec 16 → Instr) (h : ops.length = 5) :
    ∃ i, indexHalf f ops = some i := by
  obtain ⟨a, r, ha, hr⟩ := take24_of_length (n := 2) h
  obtain ⟨b, r', hb, hr'⟩ := take16_of_length (n := 0) hr
  simp only [indexHalf, ha, hb, Option.bind_some, noMore_of_length _ hr', Option.some.injEq, exists_eq']

theorem indexWord_of_length (f : BitVec 24 → BitVec 32 → Instr) (h : ops.length = 7) :
    ∃ i, indexWord f ops = some i := by
  obtain ⟨a, r, ha, hr⟩ := take24_of_length (n := 4) h
  obtain ⟨b, r', hb, hr'⟩ := take32_of_length (n := 0) hr
  simp only [indexWord, ha, hb, Option.bind_some, noMore_of_length _ hr', Option.some.injEq, exists_eq']

theorem cellOperands_of_length (f : BitVec 8 → BitVec 8 → BitVec 16 → BitVec 16 → Instr) (h : ops.length = 6) :
    ∃ i, cellOperands f ops = some i := by
  obtain ⟨a, r1, ha, h1⟩ := take8_of_length (n := 5) h
  obtain ⟨b, r2, hb, h2⟩ := take8_of_length (n := 4) h1
  obtain ⟨c, r3, hc, h3⟩ := take16_of_length (n := 2) h2
  obtain ⟨d, r4, hd, h4⟩ := take16_of_length (n := 0) h3
  simp only [cellOperands, ha, hb, hc, hd, Option.bind_some, noMore_of_length _ h4, Option.some.injEq, exists_eq']

theorem spriteOperands_of_length (f : BitVec 24 → BitVec 16 → BitVec 16 → BitVec 16 → BitVec 16 → BitVec 16 → Instr)
    (h : ops.length = 13) : ∃ i, spriteOperands f ops = some i := by
  obtain ⟨a, r1, ha, h1⟩ := take24_of_length (n := 10) h
  obtain ⟨b, r2, hb, h2⟩ := take16_of_length (n := 8) h1
  obtain ⟨c, r3, hc, h3⟩ := take16_of_length (n := 6) h2
  obtain ⟨d, r4, hd, h4⟩ := take16_of_length (n := 4) h3
  obtain ⟨e, r5, he, h5⟩ := take16_of_length (n := 2) h4
  obtain ⟨g, r6, hg, h6⟩ := take16_of_length (n := 0) h5
  simp only [spriteOperands, ha, hb, hc, hd, he, hg, Option.bind_some, noMore_of_length _ h6, Option.some.injEq,
    exists_eq']

/-- Operand bytes of a command's length are its operands (log entry 7). -/
theorem commandOperands_of_length {code : Nat} (h1 : 1 ≤ code) (h14 : code ≤ 0x0E)
    (h : ops.length = operandBytes code) : ∃ i, commandOperands code ops = some i := by
  interval_cases code
  · exact oneIndex_of_length _ h
  · exact indexByte_of_length _ h
  · exact oneIndex_of_length _ h
  · exact indexWord_of_length _ h
  · exact oneIndex_of_length _ h
  · exact indexHalf_of_length _ h
  · exact oneIndex_of_length _ h
  · exact indexByte_of_length _ h
  · exact cellOperands_of_length _ h
  · exact spriteOperands_of_length _ h
  · exact ⟨_, noMore_of_length _ h⟩
  · exact oneIndex_of_length _ h
  · exact ⟨_, noMore_of_length _ h⟩
  · exact ⟨_, noMore_of_length _ h⟩

end

theorem isCommandCode_iff (code : Nat) : isCommandCode code = true ↔ 1 ≤ code ∧ code ≤ 0x0E := by
  simp only [isCommandCode, Bool.and_eq_true, decide_eq_true_eq]

theorem decodeCommand_notACommand_iff (code : Byte) (ops : List Byte) :
    decodeCommand (code :: ops) = .error (.notACommand code) ↔ ¬ isCommandCode code.toNat = true := by
  rw [decodeCommand]
  by_cases hc : isCommandCode code.toNat = true
  · rw [if_pos hc]
    cases commandOperands code.toNat ops <;> simp [hc]
  · simp [hc]

/-- Settles O4: the code alone decides whether a record is refused as no command; the length whether it is one. -/
theorem onlyTheFourteenCodesAreCommands : Obligations.OnlyTheFourteenCodesAreCommands := by
  unfold Obligations.OnlyTheFourteenCodesAreCommands
  refine fun code ops => ⟨?_, fun h1 h14 hlen => ?_⟩
  · rw [decodeCommand_notACommand_iff, isCommandCode_iff]
    omega
  · obtain ⟨i, hi⟩ := commandOperands_of_length h1 h14 hlen
    exact ⟨i, decode_command (l := Layout.default) ((isCommandCode_iff _).2 ⟨h1, h14⟩) hi⟩

end Sys2Proof
end

section
/-! PROOFS. The packed memory and the framebuffer's addresses (spec/20_memory.md R50 to R55, R57, R62, R69): the flat
image as numbers, what a write to a range of bytes leaves in each view, and from it the four checked writes. -/

namespace Sys2Proof.Machine

/-! ### Little-endian values -/

theorem toNat_append_byte {n : Nat} (hi : BitVec n) (lo : Byte) : (hi ++ lo).toNat = lo.toNat + 2 ^ 8 * hi.toNat := by
  rw [BitVec.toNat_append, ← Nat.shiftLeft_add_eq_or_of_lt lo.isLt, Nat.shiftLeft_eq]
  omega

theorem toNat_append_half {n : Nat} (hi : BitVec n) (lo : Half) : (hi ++ lo).toNat = lo.toNat + 2 ^ 16 * hi.toNat := by
  rw [BitVec.toNat_append, ← Nat.shiftLeft_add_eq_or_of_lt lo.isLt, Nat.shiftLeft_eq]
  omega

theorem toNat_memHalf (s : State) (a : Nat) :
    (memHalf s a).toNat = (memByte s a).toNat + 2 ^ 8 * (memByte s (a + 1)).toNat :=
  toNat_append_byte _ _

theorem toNat_memWord (s : State) (a : Nat) :
    (memWord s a).toNat = (memByte s a).toNat + 2 ^ 8 * (memByte s (a + 1)).toNat +
      2 ^ 16 * (memByte s (a + 2)).toNat + 2 ^ 24 * (memByte s (a + 3)).toNat := by
  rw [memWord, toNat_append_half, toNat_memHalf, toNat_memHalf, Nat.add_assoc a]
  omega

/-- Settles O11: the reads are numbers in base 256; in the writes each address of the range is one case. -/
theorem flatImageIsLittleEndian : Obligations.FlatImageIsLittleEndian := by
  unfold Obligations.FlatImageIsLittleEndian
  refine ⟨toNat_memHalf, toNat_memWord, fun s a b v => ?_, fun s a b v => ?_⟩
  · by_cases hb : a ≤ b ∧ b < a + 2
    · rw [if_pos hb, memByte_memPutHalf]
      obtain rfl | rfl : b = a ∨ b = a + 1 := by omega
      all_goals simp
    · rw [if_neg hb, memByte_memPutHalf_outside s v (by omega)]
  · by_cases hb : a ≤ b ∧ b < a + 4
    · rw [if_pos hb, memByte_memPutWord]
      obtain rfl | rfl | rfl | rfl : b = a ∨ b = a + 1 ∨ b = a + 2 ∨ b = a + 3 := by omega
      all_goals simp
    · rw [if_neg hb, memByte_memPutWord_outside s v (by omega)]

/-! ### The places of the elements -/

/-- Settles O8: the bases of R51 and the addresses of R52, as numbers. -/
theorem viewElementsAreDisjointAndAligned : Obligations.ViewElementsAreDisjointAndAligned := by
  unfold Obligations.ViewElementsAreDisjointAndAligned
  intro c i j k m
  simp only [Config.tileAddr, Config.tileBase, Config.tileBytes, Config.sprAddr, Config.sprBase, Config.palAddr,
    Config.palBase, Config.mapAddr, Config.mapBase, Config.memSize, Config.cellCount, Nat.mul_zero,
    Nat.add_zero, Nat.zero_add, true_and, and_self]
  refine ⟨?_, fun hi hj => ?_, fun hj hk => ?_, fun hk hm => ?_, fun hi => ?_, fun hj => ?_, fun hk => ?_,
    fun hm => ?_, fun hij => ?_, ?_, ?_⟩ <;> omega

/-- Settles O12: pixel addresses are multiples of 4, and different pixels have different ones. -/
theorem pixelsHaveTheirOwnFourBytes : Obligations.PixelsHaveTheirOwnFourBytes := by
  unfold Obligations.PixelsHaveTheirOwnFourBytes
  intro c px py qx qy hx hy hx' _
  refine ⟨pixelAddr_lt c hx hy, pixelAddr_mod c px py, fun hne => ?_⟩
  have haddr : c.pixelAddr px py ≠ c.pixelAddr qx qy := fun h => hne (Prod.ext_iff.2 (pixelAddr_inj c hx hx' h))
  have hp := pixelAddr_mod c px py
  have hq := pixelAddr_mod c qx qy
  omega

/-! ### A write to a range of bytes, seen through the views -/

/-- `t` is `s` but for the `n` bytes of `MEM` from `a` on. -/
structure WritesOnly (s t : State) (a n : Nat) : Prop where
  cfg : t.cfg = s.cfg
  outside : ∀ b, b < a ∨ a + n ≤ b → memByte t b = memByte s b

theorem memPut_writesOnly (s : State) (a : Nat) (v : Byte) : WritesOnly s (memPut s a v) a 1 :=
  ⟨rfl, fun b hb => by rw [memByte_memPut, if_neg (by omega)]⟩

theorem memPutHalf_writesOnly (s : State) (a : Nat) (v : Half) : WritesOnly s (memPutHalf s a v) a 2 :=
  ⟨rfl, fun _ => memByte_memPutHalf_outside s v⟩

theorem memPutWord_writesOnly (s : State) (a : Nat) (v : Word) : WritesOnly s (memPutWord s a v) a 4 :=
  ⟨rfl, fun _ => memByte_memPutWord_outside s v⟩

section
variable {s t : State} {a n : Nat} (h : WritesOnly s t a n) {j : Nat}
include h

theorem WritesOnly.tileRead
    (hj : j < s.cfg.tileBytes → s.cfg.tileAddr j < a ∨ a + n ≤ s.cfg.tileAddr j) : tileRead t j = tileRead s j := by
  rcases Nat.lt_or_ge j s.cfg.tileBytes with hlt | hge
  · rw [tileRead_in hlt, tileRead_in (h.cfg ▸ hlt), h.cfg, h.outside _ (hj hlt)]
  · rw [tileRead_out hge, tileRead_out (h.cfg ▸ hge)]

theorem WritesOnly.sprRead
    (hj : j < s.cfg.spriteCount → s.cfg.sprAddr j + 4 ≤ a ∨ a + n ≤ s.cfg.sprAddr j) : sprRead t j = sprRead s j := by
  rcases Nat.lt_or_ge j s.cfg.spriteCount with hlt | hge
  · have hplace := hj hlt
    rw [sprRead_in hlt, sprRead_in (h.cfg ▸ hlt), h.cfg, memWord_congr fun b _ _ => h.outside b (by omega)]
  · rw [sprRead_out hge, sprRead_out (h.cfg ▸ hge)]

theorem WritesOnly.palRead
    (hj : j < s.cfg.paletteCount → s.cfg.palAddr j + 2 ≤ a ∨ a + n ≤ s.cfg.palAddr j) : palRead t j = palRead s j := by
  rcases Nat.lt_or_ge j s.cfg.paletteCount with hlt | hge
  · have hplace := hj hlt
    rw [palRead_in hlt, palRead_in (h.cfg ▸ hlt), h.cfg, memHalf_congr fun b _ _ => h.outside b (by omega)]
  · rw [palRead_out hge, palRead_out (h.cfg ▸ hge)]

theorem WritesOnly.mapRead
    (hj : j < s.cfg.cellCount → s.cfg.mapAddr j < a ∨ a + n ≤ s.cfg.mapAddr j) : mapRead t j = mapRead s j := by
  rcases Nat.lt_or_ge j s.cfg.cellCount with hlt | hge
  · rw [mapRead_in hlt, mapRead_in (h.cfg ▸ hlt), h.cfg, h.outside _ (hj hlt)]
  · rw [mapRead_out hge, mapRead_out (h.cfg ▸ hge)]

/-- A write inside the tile segment leaves the other views as they were. -/
theorem WritesOnly.of_tile (ha : a + n ≤ s.cfg.sprBase) (j : Nat) :
    Machine.sprRead t j = Machine.sprRead s j ∧ Machine.palRead t j = Machine.palRead s j ∧
      Machine.mapRead t j = Machine.mapRead s j := by
  obtain ⟨hsp, hpm, -⟩ := bases_rise s.cfg
  refine ⟨h.sprRead fun hj => ?_, h.palRead fun hj => ?_, h.mapRead fun hj => ?_⟩
  · have := sprAddr_bounds s.cfg hj; omega
  · have := palAddr_bounds s.cfg hj; omega
  · have := mapAddr_bounds s.cfg hj; omega

/-- A write inside the sprite segment leaves the other views as they were. -/
theorem WritesOnly.of_spr (hlo : s.cfg.sprBase ≤ a) (hhi : a + n ≤ s.cfg.palBase) (j : Nat) :
    Machine.tileRead t j = Machine.tileRead s j ∧ Machine.palRead t j = Machine.palRead s j ∧
      Machine.mapRead t j = Machine.mapRead s j := by
  obtain ⟨-, hpm, -⟩ := bases_rise s.cfg
  refine ⟨h.tileRead fun hj => ?_, h.palRead fun hj => ?_, h.mapRead fun hj => ?_⟩
  · have := tileAddr_lt s.cfg hj; omega
  · have := palAddr_bounds s.cfg hj; omega
  · have := mapAddr_bounds s.cfg hj; omega

/-- A write inside the palette segment leaves the other views as they were. -/
theorem WritesOnly.of_pal (hlo : s.cfg.palBase ≤ a) (hhi : a + n ≤ s.cfg.mapBase) (j : Nat) :
    Machine.tileRead t j = Machine.tileRead s j ∧ Machine.sprRead t j = Machine.sprRead s j ∧
      Machine.mapRead t j = Machine.mapRead s j := by
  obtain ⟨hsp, -, -⟩ := bases_rise s.cfg
  refine ⟨h.tileRead fun hj => ?_, h.sprRead fun hj => ?_, h.mapRead fun hj => ?_⟩
  · have := tileAddr_lt s.cfg hj; omega
  · have := sprAddr_bounds s.cfg hj; omega
  · have := mapAddr_bounds s.cfg hj; omega

/-- A write inside the map segment leaves the other views as they were. -/
theorem WritesOnly.of_map (hlo : s.cfg.mapBase ≤ a) (j : Nat) :
    Machine.tileRead t j = Machine.tileRead s j ∧ Machine.sprRead t j = Machine.sprRead s j ∧
      Machine.palRead t j = Machine.palRead s j := by
  obtain ⟨hsp, hpm, -⟩ := bases_rise s.cfg
  refine ⟨h.tileRead fun hj => ?_, h.sprRead fun hj => ?_, h.palRead fun hj => ?_⟩
  · have := tileAddr_lt s.cfg hj; omega
  · have := sprAddr_bounds s.cfg hj; omega
  · have := palAddr_bounds s.cfg hj; omega

end

/-! ### The checked writes: the element written, the view's other elements, the other views (R54, R55, R69) -/

theorem memByte_memPut_same (s : State) (a : Nat) (v : Byte) : memByte (memPut s a v) a = v := by
  rw [memByte_memPut, if_pos rfl]

section
variable {s t : State} {i : Nat}

theorem tileWrite_reads {v : Byte} (h : tileWrite s i v = .ok t) :
    tileRead t i = .ok v ∧ (∀ j, j ≠ i → tileRead t j = tileRead s j) ∧
      ∀ j, sprRead t j = sprRead s j ∧ palRead t j = palRead s j ∧ mapRead t j = mapRead s j := by
  obtain ⟨hi, rfl⟩ := tileWrite_ok h
  have hw := memPut_writesOnly s (s.cfg.tileAddr i) v
  refine ⟨?_, fun j hne => hw.tileRead fun _ => ?_, hw.of_tile (tileAddr_lt s.cfg hi)⟩
  · exact (tileRead_in (s := memPut s _ v) hi).trans (congrArg _ (memByte_memPut_same s _ v))
  · simp only [Config.tileAddr]; omega

theorem sprWrite_reads {v : Word} (h : sprWrite s i v = .ok t) :
    sprRead t i = .ok v ∧ (∀ j, j ≠ i → sprRead t j = sprRead s j) ∧
      ∀ j, tileRead t j = tileRead s j ∧ palRead t j = palRead s j ∧ mapRead t j = mapRead s j := by
  obtain ⟨hi, rfl⟩ := sprWrite_ok h
  have hw := memPutWord_writesOnly s (s.cfg.sprAddr i) v
  obtain ⟨hlo, hhi⟩ := sprAddr_bounds s.cfg hi
  refine ⟨?_, fun j hne => hw.sprRead fun _ => ?_, hw.of_spr hlo hhi⟩
  · exact (sprRead_in (s := memPutWord s _ v) hi).trans (congrArg _ (memWord_memPutWord s _ v))
  · simp only [Config.sprAddr]; omega

theorem palWrite_reads {v : Half} (h : palWrite s i v = .ok t) :
    palRead t i = .ok v ∧ (∀ j, j ≠ i → palRead t j = palRead s j) ∧
      ∀ j, tileRead t j = tileRead s j ∧ sprRead t j = sprRead s j ∧ mapRead t j = mapRead s j := by
  obtain ⟨hi, rfl⟩ := palWrite_ok h
  have hw := memPutHalf_writesOnly s (s.cfg.palAddr i) v
  obtain ⟨hlo, hhi⟩ := palAddr_bounds s.cfg hi
  refine ⟨?_, fun j hne => hw.palRead fun _ => ?_, hw.of_pal hlo hhi⟩
  · exact (palRead_in (s := memPutHalf s _ v) hi).trans (congrArg _ (memHalf_memPutHalf s _ v))
  · simp only [Config.palAddr]; omega

theorem mapWrite_reads {v : Byte} (h : mapWrite s i v = .ok t) :
    mapRead t i = .ok v ∧ (∀ j, j ≠ i → mapRead t j = mapRead s j) ∧
      ∀ j, tileRead t j = tileRead s j ∧ sprRead t j = sprRead s j ∧ palRead t j = palRead s j := by
  obtain ⟨hi, rfl⟩ := mapWrite_ok h
  have hw := memPut_writesOnly s (s.cfg.mapAddr i) v
  refine ⟨?_, fun j hne => hw.mapRead fun _ => ?_, hw.of_map (mapAddr_bounds s.cfg hi).1⟩
  · exact (mapRead_in (s := memPut s _ v) hi).trans (congrArg _ (memByte_memPut_same s _ v))
  · simp only [Config.mapAddr]; omega

end

/-- Settles O9: a write to one element touches that element's bytes alone, and elements have disjoint bytes. -/
theorem tileAndSpriteWritesAreReadBack : Obligations.TileAndSpriteWritesAreReadBack := by
  unfold Obligations.TileAndSpriteWritesAreReadBack
  exact ⟨fun _ _ _ _ => tileWrite_reads, fun _ _ _ _ => sprWrite_reads⟩

/-- Settles O10: likewise for the palette and the map view. -/
theorem paletteAndMapWritesAreReadBack : Obligations.PaletteAndMapWritesAreReadBack := by
  unfold Obligations.PaletteAndMapWritesAreReadBack
  exact ⟨fun _ _ _ _ => palWrite_reads, fun _ _ _ _ => mapWrite_reads⟩

end Sys2Proof.Machine
end

section
/-! PROOFS. The unit operations run on their own (spec/40_tile_decoder.md, spec/41_palette_resolver.md,
spec/43_framebuffer_writer.md; log entry 12), and the host's writes seen through them. -/

namespace Sys2Proof.Machine

/-! ### What a unit delivers -/

section
variable {s : State} (h : s.seq.phase ≠ .fault)
include h

theorem exec_decodePixel_ok {t : BitVec 8} (ht : t.toNat < s.cfg.tileCount) (ly lx : BitVec 3) :
    exec (.decodePixel t ly lx) s = .next { s with unitOut := .bit (tileBit s t ly lx) } :=
  congrArg _ ((onUnit_run h _).trans (by rw [decodePixel_ok ht, unitDelivers]))

theorem exec_decodePixel_raises {t : BitVec 8} (ht : s.cfg.tileCount ≤ t.toNat) (ly lx : BitVec 3) :
    exec (.decodePixel t ly lx) s = .next (enterFault s ⟨.tile, t.toNat * 8 + ly.toNat⟩ false) :=
  congrArg _ ((onUnit_run h _).trans (by rw [decodePixel_raises ht, unitDelivers]))

theorem exec_resolveColor_ok {p : BitVec 5} (hp : p.toNat < s.cfg.paletteCount) (bit : BitVec 1) :
    exec (.resolveColor p bit) s = .next { s with unitOut := .color (paletteColor s p bit) } :=
  congrArg _ ((onUnit_run h _).trans (by rw [resolveColor_ok hp, unitDelivers]))

theorem exec_resolveColor_raises {p : BitVec 5} (hp : s.cfg.paletteCount ≤ p.toNat) (bit : BitVec 1) :
    exec (.resolveColor p bit) s = .next (enterFault s ⟨.pal, p.toNat⟩ false) :=
  congrArg _ ((onUnit_run h _).trans (by rw [resolveColor_raises hp, unitDelivers]))

theorem exec_expandToChannels (c : BitVec 8) :
    exec (.expandToChannels c) s =
      .next { s with unitOut := .channels (expand c).r (expand c).g (expand c).b } :=
  congrArg _ (onUnit_run h _)

theorem exec_fbWrite (px py : BitVec 11) (r g b : BitVec 8) (a : BitVec 1) :
    exec (.fbWrite px py r g b a) s =
      .next (fbWrite s px.toNat py.toNat { r := r, g := g, b := b } (a == 1#1)) :=
  congrArg _ (onUnit_run h _)

end

/-- Settles O14: the tile's bit as R110's shift, or the raise of the tile read. -/
theorem decodePixelDeliversTheTilesBit : Obligations.DecodePixelDeliversTheTilesBit := by
  unfold Obligations.DecodePixelDeliversTheTilesBit
  refine fun s t ly lx h => ⟨fun ht => ?_, fun ht => ⟨_, exec_decodePixel_raises h ht ly lx, rfl⟩⟩
  have hlow (n : Nat) : BitVec.ofNat 1 (n % 2) = BitVec.ofNat 1 n := BitVec.eq_of_toNat_eq (by simp)
  rw [exec_decodePixel_ok h ht, tileBit_eq_shiftRight, hlow]

/-- Settles O15: the palette's half as R120's shift, or the raise of the palette read. -/
theorem resolveColorDeliversThePalettesHalf : Obligations.ResolveColorDeliversThePalettesHalf := by
  unfold Obligations.ResolveColorDeliversThePalettesHalf
  refine fun s p bit h => ⟨fun hp => ?_, fun hp => ⟨_, exec_resolveColor_raises h hp bit, rfl⟩⟩
  rw [exec_resolveColor_ok h hp, paletteColor_eq_shiftRight]

/-- Settles O16: each channel is the number its law gives. -/
theorem expandDeliversTheShiftedFields : Obligations.ExpandDeliversTheShiftedFields := by
  unfold Obligations.ExpandDeliversTheShiftedFields
  intro s c h
  rw [exec_expandToChannels h, ← toNat_expand_r, ← toNat_expand_g, ← toNat_expand_b, BitVec.ofNat_toNat,
    BitVec.ofNat_toNat, BitVec.ofNat_toNat, BitVec.setWidth_eq, BitVec.setWidth_eq, BitVec.setWidth_eq]

/-- A colour byte is its three shifted fields put together again (R123). -/
theorem expand_recovers : ∀ c : Byte,
    c = ((expand c).r >>> 5) <<< 5 ||| ((expand c).g >>> 5) <<< 2 ||| (expand c).b >>> 6 := by
  decide

/-- Settles O17: the channels as numbers give the value sets, and a byte is its three fields put together again. -/
theorem expandedColoursAreRecovered : Obligations.ExpandedColoursAreRecovered := by
  unfold Obligations.ExpandedColoursAreRecovered
  refine fun c => ⟨?_, ?_, ?_, expand_recovers c⟩
  · rw [toNat_expand_r]; omega
  · rw [toNat_expand_g]; omega
  · rw [toNat_expand_b]; omega

/-! ### `FB_WRITE` -/

/-- Where the writes of a list go to different pixels, each one with `setA` that lands on the surface leaves its pixel
fully opaque (R160). -/
theorem opacity_of_distinct {u : State} {cfg : Config} {fb : List Host.Cell} {ws : List PixelWrite} {w : PixelWrite}
    (hfb : u.fb = applyWrites cfg fb ws) (hd : ∀ v ∈ ws, ∀ w ∈ ws, v.px = w.px → v.py = w.py → v = w) (hw : w ∈ ws)
    (ha : w.setA = true) (hx : w.px < cfg.width) (hy : w.py < cfg.height) :
    fbByte u (cfg.pixelAddr w.px w.py + 3) = 255#8 := by
  obtain ⟨-, -, -, hopaque⟩ := touch_pixel cfg w hx hy
  have hnone : cellLookup u.fb (cfg.pixelAddr w.px w.py + 3) = none := by
    rw [hfb, applyWrites_lookup, written_distinct hd hw (hopaque ha)]; rfl
  have hmod := pixelAddr_mod cfg w.px w.py
  rw [fbByte_unlisted hnone, fbUnwritten, if_pos (by omega)]

theorem written_singleton (cfg : Config) (w : PixelWrite) (b : Nat) : written cfg [w] b = touch cfg w b :=
  Option.none_or

/-- A byte outside a write's pixel, or its opacity byte where `setA` is 0, is not touched. -/
theorem touch_eq_none {cfg : Config} {w : PixelWrite} {b : Nat}
    (h : b < cfg.pixelAddr w.px w.py ∨ cfg.pixelAddr w.px w.py + 3 < b ∨
      (w.setA = false ∧ b = cfg.pixelAddr w.px w.py + 3)) : touch cfg w b = none := by
  by_contra hn
  obtain ⟨-, -, hlo, hhi, hcolour⟩ := touch_bounds hn
  rcases h with h | h | ⟨ha, h⟩
  · omega
  · omega
  · have := hcolour ha; omega

/-- Settles O18: off the surface nothing is stored; on it the bytes read what the one write touches. -/
theorem fbWriteStoresOnePixelOrNothing : Obligations.FbWriteStoresOnePixelOrNothing := by
  unfold Obligations.FbWriteStoresOnePixelOrNothing
  intro s px py r g b a h
  refine ⟨_, exec_fbWrite h px py r g b a, rfl, fun hout => writePixel_outside hout s.fb _ _, fun hx hy => ?_⟩
  obtain ⟨w, hw⟩ : ∃ w : PixelWrite, w = ⟨px.toNat, py.toNat, { r := r, g := g, b := b }, a == 1#1⟩ := ⟨_, rfl⟩
  have hfb : (fbWrite s px.toNat py.toNat { r := r, g := g, b := b } (a == 1#1)).fb = applyWrites s.cfg s.fb [w] := by
    rw [hw]; rfl
  obtain ⟨hr, hg, hb, -⟩ := touch_pixel s.cfg w (hw ▸ hx) (hw ▸ hy)
  rw [← written_singleton, hw] at hr hg hb
  subst hw
  refine ⟨fbByte_of_written hfb hr, fbByte_of_written hfb hg, fbByte_of_written hfb hb, ?_, fun b hout => ?_⟩
  · split_ifs with ha
    · exact opacity_of_distinct hfb (by simp) (List.mem_singleton_self _) (by simp [ha]) hx hy
    · refine fbByte_of_not_written hfb rfl ((written_singleton ..).trans (touch_eq_none (.inr (.inr ⟨?_, rfl⟩))))
      exact beq_eq_false_iff_ne.2 ha
  · refine fbByte_of_not_written hfb rfl ((written_singleton ..).trans (touch_eq_none ?_))
    exact hout.imp id .inl

/-! ### The host's writes seen through the units -/

theorem tileBit_of_written (s : State) (r : Response) (t : BitVec 8) (ly lx : BitVec 3) (v : Byte) :
    tileBit (respond (memPut s (s.cfg.tileAddr (8 * t.toNat + ly.toNat)) v) r) t ly lx =
      BitVec.ofBool (v.getLsbD (7 - lx.toNat)) := by
  rw [tileBit, memByte_respond, respond_cfg, memPut_cfg, memByte_memPut_same]

theorem paletteColor_of_written (s : State) (r : Response) (p : BitVec 5) (bit : BitVec 1) (v : Half) :
    paletteColor (respond (memPutHalf s (s.cfg.palAddr p.toNat) v) r) p bit =
      if bit = 1#1 then v.extractLsb' 8 8 else v.extractLsb' 0 8 := by
  rw [paletteColor, memHalf_respond, respond_cfg, memPutHalf_cfg, memHalf_memPutHalf]

/-- Settles O19: the byte written is the row decoded. -/
theorem writtenTileRowIsDecodedBack : Obligations.WrittenTileRowIsDecodedBack := by
  unfold Obligations.WrittenTileRowIsDecodedBack
  intro s t ly lx v h ht
  have hidx : 8 * t.toNat + ly.toNat < s.cfg.tileBytes := by
    rw [Nat.mul_comm]; exact (tile_index_lt s.cfg t ly).2 ht
  have hnat : (BitVec.ofNat 24 (8 * t.toNat + ly.toNat)).toNat = 8 * t.toNat + ly.toNat := by
    have := t.isLt
    have := ly.isLt
    rw [BitVec.toNat_ofNat, Nat.mod_eq_of_lt (by omega)]
  obtain ⟨u, hu⟩ : ∃ u, u = respond (memPut s (s.cfg.tileAddr (8 * t.toNat + ly.toNat)) v) .ok := ⟨_, rfl⟩
  refine ⟨u, ?_, ?_⟩
  · rw [exec_tileWr_idle h, hnat, tileWrite_in hidx, hostWrite_ok, hu]
  · have hphase : u.seq.phase ≠ .fault := by simp [hu, h]
    rw [exec_decodePixel_ok hphase (by rw [hu]; exact ht), hu, tileBit_of_written]

/-- Settles O20: the halfword written is read back whole, and its halves are the colours resolved. -/
theorem writtenPaletteIsResolvedBack : Obligations.WrittenPaletteIsResolvedBack := by
  unfold Obligations.WrittenPaletteIsResolvedBack
  intro s p v h hp
  have hnat : (p.setWidth 24).toNat = p.toNat := BitVec.toNat_setWidth_of_le (by decide)
  obtain ⟨u, hu⟩ : ∃ u, u = respond (memPutHalf s (s.cfg.palAddr p.toNat) v) .ok := ⟨_, rfl⟩
  have hphase : u.seq.phase = .idle := by rw [hu]; exact h
  have hpal : p.toNat < u.cfg.paletteCount := by rw [hu]; exact hp
  refine ⟨u, ?_, ?_, ?_, ?_⟩
  · rw [exec_palWr_idle h, hnat, palWrite_in hp, hostWrite_ok, hu]
  · rw [exec_palRd_idle hphase, hnat, palRead_in hpal, hostRead_ok, hu, memHalf_respond, respond_cfg, memPutHalf_cfg,
      memHalf_memPutHalf]
    rfl
  · rw [exec_resolveColor_ok (by simp [hphase]) hpal, hu, paletteColor_of_written, if_neg (by decide)]
  · rw [exec_resolveColor_ok (by simp [hphase]) hpal, hu, paletteColor_of_written, if_pos rfl]

end Sys2Proof.Machine
end

section
/-! PROOFS. The sprite pass (spec/42_compositor.md R135 to R139): what the 64 pixels of a drawing sprite ask for under a
layer mode, the ways its run ends, and from them the three drawing instructions as one mode each; the disabled sprite and
the order of entries. -/

namespace Sys2Proof.Machine

/-! ### What a sprite's pixels ask for -/

section
variable (s : State) (t : BitVec 8) (p : BitVec 5) (m : BitVec 2) (x y : BitVec 8)

/-- The write that pixel `k` of a sprite asks for where it is drawn: its palette colour, and opacity. -/
def spriteWrite (k : BitVec 3 × BitVec 3) : PixelWrite :=
  ⟨x.toNat + k.2.toNat, y.toNat + k.1.toNat, expand (paletteColor s p (tileBit s t k.1 k.2)), true⟩

/-- What pixel `k` asks for: nothing where the mode makes it transparent. -/
def spriteWritesAt (k : BitVec 3 × BitVec 3) : List PixelWrite :=
  if m.getLsbD (tileBit s t k.1 k.2).toNat then [] else [spriteWrite s t p x y k]

/-- The writes of a sprite, in the order of its pixels. -/
def spriteWrites : List PixelWrite := blockPixels.flatMap (spriteWritesAt s t p m x y)

end

section
variable {s : State} {t : BitVec 8} {p : BitVec 5} {m : BitVec 2} {x y : BitVec 8}

theorem mem_spriteWrites {w : PixelWrite} :
    w ∈ spriteWrites s t p m x y ↔
      ∃ k, m.getLsbD (tileBit s t k.1 k.2).toNat = false ∧ w = spriteWrite s t p x y k := by
  simp only [spriteWrites, List.mem_flatMap, mem_blockPixels, true_and]
  refine exists_congr fun k => ?_
  cases h : m.getLsbD (tileBit s t k.1 k.2).toNat <;> simp [spriteWritesAt, h]

/-- The writes of a sprite go to different pixels. -/
theorem spriteWrites_distinct :
    ∀ v ∈ spriteWrites s t p m x y, ∀ w ∈ spriteWrites s t p m x y, v.px = w.px → v.py = w.py → v = w := by
  intro v hv w hw hx hy
  obtain ⟨j, -, rfl⟩ := mem_spriteWrites.1 hv
  obtain ⟨k, -, rfl⟩ := mem_spriteWrites.1 hw
  have hlx : j.2 = k.2 := BitVec.eq_of_toNat_eq (Nat.add_left_cancel hx)
  have hly : j.1 = k.1 := BitVec.eq_of_toNat_eq (Nat.add_left_cancel hy)
  rw [Prod.ext hly hlx]

theorem spritePixelPlan_no_tile (ht : s.cfg.tileCount ≤ t.toNat) (k : BitVec 3 × BitVec 3) :
    spritePixelPlan s t p m x y k = .error ⟨.tile, t.toNat * 8 + k.1.toNat⟩ := by
  simp only [spritePixelPlan, decodePixel_raises ht]

/-- The palette is read for drawn pixels only. -/
theorem spritePixelPlan_ok (ht : t.toNat < s.cfg.tileCount) {k : BitVec 3 × BitVec 3}
    (hp : m.getLsbD (tileBit s t k.1 k.2).toNat = false → p.toNat < s.cfg.paletteCount) :
    spritePixelPlan s t p m x y k = .ok (spriteWritesAt s t p m x y k) := by
  simp only [spritePixelPlan, decodePixel_ok ht, transparent_iff, spriteWritesAt]
  cases hb : m.getLsbD (tileBit s t k.1 k.2).toNat with
  | true => rfl
  | false => simp only [Bool.false_eq_true, if_false, resolveColor_ok (hp hb), spriteWrite]

theorem spritePixelPlan_no_palette (ht : t.toNat < s.cfg.tileCount) (hp : s.cfg.paletteCount ≤ p.toNat)
    {k : BitVec 3 × BitVec 3} (hk : m.getLsbD (tileBit s t k.1 k.2).toNat = false) :
    spritePixelPlan s t p m x y k = .error ⟨.pal, p.toNat⟩ := by
  simp only [spritePixelPlan, decodePixel_ok ht, transparent_iff, hk, Bool.false_eq_true, if_false,
    resolveColor_raises hp]

/-- A sprite whose tile exists, and whose palette exists if any pixel is drawn, completes. -/
theorem runList_sprite_ok (ht : t.toNat < s.cfg.tileCount)
    (hp : ∀ k : BitVec 3 × BitVec 3, m.getLsbD (tileBit s t k.1 k.2).toNat = false → p.toNat < s.cfg.paletteCount)
    (fb : List Host.Cell) :
    runList (spritePixel s t p m x y) blockPixels fb = (applyWrites s.cfg fb (spriteWrites s t p m x y), none) :=
  runList_ok (spritePixel_planned s t p m x y) blockPixels (fun k _ => spritePixelPlan_ok ht (hp k)) fb

/-! ### The run of a drawing sprite -/

variable {i : Instr} (hi : exec i s = .next (spritePixels t p m x y s)) (hphase : s.seq.phase = .sprite)
include hi hphase

theorem exec_sprite_run :
    exec i s = .next (entryEnd (latchSprite s t p m x y) (runList (spritePixel s t p m x y) blockPixels s.fb)) := by
  rw [hi, spritePixels_run t p m x y hphase]

theorem raisesTile_of_no_tile (ht : s.cfg.tileCount ≤ t.toNat) : RaisesTile i m t p x y s := by
  have hrun : runList (spritePixel s t p m x y) blockPixels s.fb =
      (s.fb, some (⟨.tile, t.toNat * 8 + 0⟩, (0, 0))) :=
    runList_raise (spritePixel_planned s t p m x y) (pre := []) (post := blockPixels.tail) (by simp)
      (spritePixelPlan_no_tile ht (0, 0)) s.fb
  rw [RaisesTile, exec_sprite_run hi hphase, hrun, Nat.mul_comm 8]
  exact ⟨_, rfl, rfl⟩

theorem raisesPalette_of_drawn (ht : t.toNat < s.cfg.tileCount) (hp : s.cfg.paletteCount ≤ p.toNat)
    (hk : ∃ k : BitVec 3 × BitVec 3, m.getLsbD (tileBit s t k.1 k.2).toNat = false) : RaisesPalette i m t p x y s := by
  obtain ⟨pre, k, post, hb, hdrawn, hpre, hfirst⟩ := blockPixels_first hk
  have hskip (j : BitVec 3 × BitVec 3) (hj : j ∈ pre) : spritePixelPlan s t p m x y j = .ok [] := by
    have hclear := hpre j hj
    rw [spritePixelPlan_ok ht fun h => absurd h hclear, spriteWritesAt, if_pos (eq_true_of_ne_false hclear)]
  have hrun : runList (spritePixel s t p m x y) blockPixels s.fb = (s.fb, some (⟨.pal, p.toNat⟩, k)) := by
    rw [hb]
    exact runList_raise (spritePixel_planned s t p m x y) hskip (spritePixelPlan_no_palette ht hp hdrawn) s.fb
  refine ⟨enterFault (atPixel (latchSprite s t p m x y) s.fb k) ⟨.pal, p.toNat⟩ false, k.1, k.2, ?_, hdrawn,
    fun ly lx hlt => eq_true_of_ne_false (hfirst (ly, lx) hlt), rfl⟩
  rw [exec_sprite_run hi hphase, hrun]; rfl

theorem drawsSprite_of_names (ht : t.toNat < s.cfg.tileCount)
    (hp : ∀ k : BitVec 3 × BitVec 3, m.getLsbD (tileBit s t k.1 k.2).toNat = false → p.toNat < s.cfg.paletteCount) :
    DrawsSprite i m t p x y s := by
  obtain ⟨u, hu⟩ : ∃ u, u = advanceEntry (atPixel (latchSprite s t p m x y)
      (applyWrites s.cfg s.fb (spriteWrites s t p m x y)) (0, 0)) := ⟨_, rfl⟩
  obtain ⟨-, -, hfb, -, -, hepoch, -⟩ := advanceEntry_keep (atPixel (latchSprite s t p m x y)
      (applyWrites s.cfg s.fb (spriteWrites s t p m x y)) (0, 0))
  rw [← hu] at hfb hepoch
  refine ⟨u, ?_, ?_, fun ly lx hk hx hy => ?_, fun b hb => ?_⟩
  · rw [exec_sprite_run hi hphase, runList_sprite_ok ht hp, hu]; rfl
  · rw [hfb]; exact hu
  · have hw : spriteWrite s t p x y (ly, lx) ∈ spriteWrites s t p m x y := mem_spriteWrites.2 ⟨(ly, lx), hk, rfl⟩
    exact ⟨showsColor_of_distinct hfb spriteWrites_distinct hw rfl hx hy,
      opacity_of_distinct hfb spriteWrites_distinct hw rfl hx hy⟩
  · refine fbByte_of_not_written hfb hepoch (written_none fun w hw => ?_)
    obtain ⟨k, hk, rfl⟩ := mem_spriteWrites.1 hw
    by_contra hn
    obtain ⟨hx, hy, hlo, hhi, -⟩ := touch_bounds hn
    have := hb k.1 k.2 hk hx hy
    simp only [spriteWrite] at hlo hhi
    omega

end

/-! ### The layer modes -/

theorem opaque_mode_draws (b : BitVec 1) : (0b00#2).getLsbD b.toNat = false := by revert b; decide

theorem back_mode_draws_iff (b : BitVec 1) : (0b01#2).getLsbD b.toNat = false ↔ b = 1#1 := by revert b; decide

theorem front_mode_draws_iff (b : BitVec 1) : (0b10#2).getLsbD b.toNat = false ↔ b = 0#1 := by revert b; decide

/-- Settles O23: mode `0b00` makes no pixel transparent, so the palette is read at the first one. -/
theorem opaqueSpriteDrawsItsBlock : Obligations.OpaqueSpriteDrawsItsBlock := by
  unfold Obligations.OpaqueSpriteDrawsItsBlock
  exact fun s t p x y h => ⟨raisesTile_of_no_tile rfl h, fun ht =>
    ⟨fun hp => drawsSprite_of_names rfl h ht fun _ _ => hp,
      fun hp => raisesPalette_of_drawn rfl h ht hp ⟨(0, 0), opaque_mode_draws _⟩⟩⟩

/-- Settles O24: mode `0b01` draws exactly the pixels of value 1, so without one the palette is not read. -/
theorem backSpriteDrawsItsOnes : Obligations.BackSpriteDrawsItsOnes := by
  unfold Obligations.BackSpriteDrawsItsOnes
  refine fun s t p x y h => ⟨raisesTile_of_no_tile rfl h, fun ht =>
    ⟨fun hp => drawsSprite_of_names rfl h ht fun k hk => ?_,
      fun hp ⟨ly, lx, hk⟩ => raisesPalette_of_drawn rfl h ht hp ⟨(ly, lx), (back_mode_draws_iff _).2 hk⟩⟩⟩
  have hone : tileBit s t k.1 k.2 = 1#1 := (back_mode_draws_iff _).1 hk
  exact hp.resolve_right fun hzero => absurd (hone.symm.trans (hzero k.1 k.2)) (by decide)

/-- Settles O25: mode `0b10` draws exactly the pixels of value 0, so without one the palette is not read. -/
theorem frontSpriteDrawsItsZeros : Obligations.FrontSpriteDrawsItsZeros := by
  unfold Obligations.FrontSpriteDrawsItsZeros
  refine fun s t p x y h => ⟨raisesTile_of_no_tile rfl h, fun ht =>
    ⟨fun hp => drawsSprite_of_names rfl h ht fun k hk => ?_,
      fun hp ⟨ly, lx, hk⟩ => raisesPalette_of_drawn rfl h ht hp ⟨(ly, lx), (front_mode_draws_iff _).2 hk⟩⟩⟩
  have hzero : tileBit s t k.1 k.2 = 0#1 := (front_mode_draws_iff _).1 hk
  exact hp.resolve_right fun hone => absurd (hzero.symm.trans (hone k.1 k.2)) (by decide)

/-! ### The advance -/

theorem advanceEntry_next_slot {s : State} (h : s.seq.phase = .sprite) (he : s.seq.entry + 1 < s.cfg.spriteCount) :
    advanceEntry s = { s with seq := { s.seq with entry := s.seq.entry + 1 } } := by
  simp only [advanceEntry, h, if_pos he]

theorem advanceEntry_last_slot {s : State} (h : s.seq.phase = .sprite) (he : s.cfg.spriteCount ≤ s.seq.entry + 1) :
    advanceEntry s = completeFrame s := by
  simp only [advanceEntry, h, if_neg (Nat.not_lt.2 he)]

/-- Settles O27: the three equations of the advance. -/
theorem entriesFollowInStorageOrder : Obligations.EntriesFollowInStorageOrder := by
  unfold Obligations.EntriesFollowInStorageOrder
  refine fun s => ⟨fun h => ?_, advanceEntry_next_slot, advanceEntry_last_slot⟩
  simp only [advanceEntry_map h, h]

theorem exec_sprDisabled {s : State} (h : s.seq.phase = .sprite) :
    exec .sprDisabled s = .next (advanceEntry { s with seq := { s.seq with ly := 0, lx := 0 } }) := by
  simp only [exec, execSprDisabled, inSpritePass, h]

/-- In the sprite pass the advance leaves the pass only by completing the frame. -/
theorem advanceEntry_sprite_phase {s : State} (h : s.seq.phase = .sprite) :
    ((advanceEntry s).seq.phase = .sprite ∨ (advanceEntry s).seq.phase = .idle) ∧
      (advanceEntry s).flags.fault = s.flags.fault := by
  rcases Nat.lt_or_ge (s.seq.entry + 1) s.cfg.spriteCount with he | he
  · rw [advanceEntry_next_slot h he]; exact ⟨.inl h, rfl⟩
  · rw [advanceEntry_last_slot h he]; exact ⟨.inr rfl, rfl⟩

/-- Settles O26: the disabled sprite is the advance, which keeps all but the sequencer, flags and outputs. -/
theorem disabledSpriteOnlyAdvances : Obligations.DisabledSpriteOnlyAdvances := by
  unfold Obligations.DisabledSpriteOnlyAdvances
  intro s h
  obtain ⟨-, hmem, hfb, -, hfinfo, -, hlatch⟩ := advanceEntry_keep { s with seq := { s.seq with ly := 0, lx := 0 } }
  obtain ⟨hphase, hfault⟩ := advanceEntry_sprite_phase (s := { s with seq := { s.seq with ly := 0, lx := 0 } }) h
  exact ⟨_, exec_sprDisabled h, rfl, hfb, hmem, hlatch, hfinfo, hfault, hphase⟩

end Sys2Proof.Machine
end

section
/-! PROOFS. What a step fetches and runs (spec/42_compositor.md R131, R134, R143; spec/44_host_commands.md R170): one
equation per place an instruction comes from, and one per outcome of the fetch. -/

namespace Sys2Proof.Machine

/-! ### The fetch, by place -/

section
variable {s : State}

theorem fetch_unit {u : UnitBundle} (h : s.unitIn = some u) :
    fetch s = .item (.unit u) { s with unitIn := none } := by
  simp only [fetch, h]

variable (hu : s.unitIn = none)
include hu

theorem fetch_cell (hp : s.seq.phase = .map) (he : s.seq.entry < s.cfg.cellCount) :
    fetch s = .item (.cell (memByte s (s.cfg.mapAddr s.seq.entry))) s := by
  simp only [fetch, hu, fetchByPhase, hp, fetchCell, mapRead_in he]

theorem fetch_slot (hp : s.seq.phase = .sprite) (he : s.seq.entry < s.cfg.spriteCount) :
    fetch s = .item (.sprite (memWord s (s.cfg.sprAddr s.seq.entry))) s := by
  simp only [fetch, hu, fetchByPhase, hp, fetchSprite, sprRead_in he]

theorem fetch_port (hp : s.seq.phase = .idle ∨ s.seq.phase = .fault) : fetch s = fetchCommand s := by
  rcases hp with hp | hp <;> simp only [fetch, hu, fetchByPhase, hp]

theorem fetch_nothing (hp : s.seq.phase = .idle ∨ s.seq.phase = .fault) (h : s.port = []) :
    fetch s = .nothing s := by
  simp only [fetch_port hu hp, fetchCommand, h]

theorem fetch_command (hp : s.seq.phase = .idle ∨ s.seq.phase = .fault) {c : List Byte} {cs : List (List Byte)}
    (h : s.port = c :: cs) : fetch s = .item (.command c) { s with port := cs } := by
  simp only [fetch_port hu hp, fetchCommand, h]

end

/-! ### The step, by outcome of the fetch -/

theorem step_reset {s : State} (hr : s.resetIn.headD false = true) : step s = .next (resetEvent (clockReset s)) :=
  if_pos hr

section
variable {s t : State} (hr : s.resetIn.headD false = false)
include hr

theorem step_nothing (hf : fetch (clockReset s) = .nothing t) : step s = .next t := by
  simp only [step, resetAsserted, hr, hf, Bool.false_eq_true, if_false]

theorem step_item {e : Encoded} {i : Instr} (hf : fetch (clockReset s) = .item e t)
    (hd : decode t.cfg.layout e = .ok i) : step s = exec i t := by
  simp only [step, resetAsserted, hr, hf, hd, Bool.false_eq_true, if_false]

theorem step_not_a_command {c : List Byte} {e : DecodeError} (hf : fetch (clockReset s) = .item (.command c) t)
    (hd : decodeCommand c = .error e) : step s = .next (answerNotACommand t) := by
  simp only [step, resetAsserted, hr, hf, decode, hd, Bool.false_eq_true, if_false]

end

theorem answerNotACommand_idle {s : State} (h : s.seq.phase = .idle) : answerNotACommand s = respond s .refused :=
  onCommand_idle h _

theorem answerNotACommand_fault {s : State} (h : s.seq.phase = .fault) : answerNotACommand s = respond s .faulted :=
  onCommand_fault h _

/-- Settles O41: the fetch of each place, decoded and executed. -/
theorem stepRunsTheDecodedInstruction : Obligations.StepRunsTheDecodedInstruction := by
  unfold Obligations.StepRunsTheDecodedInstruction
  refine fun s => ⟨step_reset, fun hr => ⟨fun u hu => ?_, fun hu hp he => ?_, fun hu hp he => ?_, fun hu hp =>
    ⟨fun h => ?_, fun c cs i h hd => ?_⟩⟩⟩
  · exact step_item hr (fetch_unit hu) rfl
  · exact step_item hr (fetch_cell (s := clockReset s) hu hp he) rfl
  · exact step_item hr (fetch_slot (s := clockReset s) hu hp he) rfl
  · exact step_nothing hr (fetch_nothing (s := clockReset s) hu hp h)
  · exact step_item hr (fetch_command (s := clockReset s) hu hp h) hd

/-- Settles O40: the record is fetched from the port, decodes to no command, and is answered by the phase. -/
theorem nonCommandIsAnsweredAndChangesNothing : Obligations.NonCommandIsAnsweredAndChangesNothing := by
  unfold Obligations.NonCommandIsAnsweredAndChangesNothing
  intro s c rest e hr hu hport hd
  have hstep (hp : s.seq.phase = .idle ∨ s.seq.phase = .fault) :=
    step_not_a_command hr (fetch_command (s := clockReset s) hu hp hport) hd
  refine ⟨fun hp => ?_, fun hp => ?_⟩
  · exact (hstep (.inl hp)).trans (congrArg _ (answerNotACommand_idle hp))
  · exact (hstep (.inr hp)).trans (congrArg _ (answerNotACommand_fault hp))

end Sys2Proof.Machine
end

section
/-! PROOFS. The remaining host commands (spec/44_host_commands.md R178 to R185): the MAP view and the Mutation API in
`IDLE`, `FB_RD`, `STATUS_RD`, `RENDER_FRAME` and the reset event. -/

namespace Sys2Proof.Machine

/-! ### The MAP view and the Mutation API -/

section
variable {s : State} (h : s.seq.phase = .idle)
include h

theorem exec_mapRd_idle (i : BitVec 24) : exec (.mapRd i) s = .next (hostRead s (mapRead s i.toNat) .ok8) :=
  congrArg _ (onCommand_idle h _)

theorem exec_mapWr_idle (i : BitVec 24) (d : BitVec 8) :
    exec (.mapWr i d) s = .next (hostWrite s (mapWrite s i.toNat d)) :=
  congrArg _ (onCommand_idle h _)

theorem exec_setMapCell_idle (row col : BitVec 8) (t p : BitVec 16) :
    exec (.setMapCell row col t p) s =
      .next (hostWrite s (mapWrite s (s.cfg.cellIndex row.toNat col.toNat) (cellOperand s.cfg.layout t p))) :=
  congrArg _ (onCommand_idle h _)

theorem exec_putSprite_idle (slot : BitVec 24) (t p x y m : BitVec 16) :
    exec (.putSprite slot t p x y m) s =
      .next (hostWrite s (sprWrite s slot.toNat (spriteOperand s.cfg.layout t p x y m))) :=
  congrArg _ (onCommand_idle h _)

theorem exec_renderFrame_idle : exec .renderFrame s = .next (startFrame s) :=
  congrArg _ (onCommand_idle h _)

theorem exec_fbRd_idle (a : BitVec 24) :
    exec (.fbRd a) s = .next
      (if s.cfg.fbSize ≤ a.toNat then respond s .refused else respond s (.ok8 (fbByte s a.toNat))) :=
  congrArg _ (onCommand_idle h _)

end

/-- Settles O31: inside the view the access answers; outside it the access raises. -/
theorem mapCommandsReadAndStore : Obligations.MapCommandsReadAndStore := by
  unfold Obligations.MapCommandsReadAndStore
  intro s idx d h
  rw [exec_mapRd_idle h, exec_mapWr_idle h]
  refine ⟨fun hin => ?_, fun hout => ?_⟩
  · rw [mapRead_in hin, mapWrite_in hin]
    exact ⟨rfl, _, rfl, rfl, fun b => memByte_memPut s _ b d⟩
  · exact ⟨⟨_, rfl, hostRead_faults (mapRead_out hout) _⟩, _, rfl, hostWrite_faults (mapWrite_out hout d)⟩

/-- Settles O32: the packed byte goes through the checked write at the linear index. -/
theorem setMapCellStoresThePackedByte : Obligations.SetMapCellStoresThePackedByte := by
  unfold Obligations.SetMapCellStoresThePackedByte
  intro s row col t p h
  rw [exec_setMapCell_idle h]
  refine ⟨fun hin => ?_, fun hout => ⟨_, rfl, hostWrite_faults (mapWrite_out hout _)⟩⟩
  rw [mapWrite_in (show s.cfg.cellIndex row.toNat col.toNat < s.cfg.cellCount from hin)]
  exact ⟨_, rfl, rfl, fun b => memByte_memPut s _ b (cellOperand s.cfg.layout t p)⟩

/-- Settles O33: the packed word goes through the checked write at the slot. -/
theorem putSpriteStoresThePackedWord : Obligations.PutSpriteStoresThePackedWord := by
  unfold Obligations.PutSpriteStoresThePackedWord
  intro s slot t p x y m h
  rw [exec_putSprite_idle h, spriteOperand]
  refine ⟨fun hin => ?_, fun hout => ⟨_, rfl, hostWrite_faults (sprWrite_out hout _)⟩⟩
  rw [sprWrite_in hin, hostWrite_ok]
  refine ⟨_, rfl, rfl, ?_, fun b hb => ?_⟩
  · rw [memWord_respond, memWord_memPutWord]
  · rw [memByte_respond, memByte_memPutWord_outside s _ hb]

/-! ### `FB_RD`, `RENDER_FRAME`, `STATUS_RD` -/

/-- Settles O34: the two branches of the command's own check. -/
theorem fbRdAnswersTheByteOrRefuses : Obligations.FbRdAnswersTheByteOrRefuses := by
  unfold Obligations.FbRdAnswersTheByteOrRefuses
  intro s addr h
  rw [exec_fbRd_idle h]
  exact ⟨fun hin => congrArg _ (if_neg (Nat.not_le.2 hin)), fun hout => congrArg _ (if_pos hout)⟩

/-- Settles O37: in `IDLE` the command is the start of a frame. -/
theorem renderFrameStartsAFrame : Obligations.RenderFrameStartsAFrame := by
  unfold Obligations.RenderFrameStartsAFrame
  exact fun _ => exec_renderFrame_idle

theorem exec_statusRd {s : State} (h : s.seq.phase = .idle ∨ s.seq.phase = .fault) :
    exec .statusRd s = .next (respond s (.ok32 (statusWord s))) := by
  rcases h with h | h <;> simp only [exec, execStatusRd, h]

/-- The low byte of `STATUS` (R32). -/
def statusByte (host : Bool) (cause view : BitVec 2) (fault done busy : Bool) : Byte :=
  BitVec.ofBool host ++ (cause ++ (view ++ (BitVec.ofBool fault ++ (BitVec.ofBool done ++ BitVec.ofBool busy))))

theorem statusByte_fields : ∀ (host : Bool) (cause view : BitVec 2) (fault done busy : Bool),
    let b := statusByte host cause view fault done busy
    b.getLsbD 0 = busy ∧ b.getLsbD 1 = done ∧ b.getLsbD 2 = fault ∧ b.extractLsb' 3 2 = view ∧
      b.extractLsb' 5 2 = cause ∧ b.getLsbD 7 = host := by
  decide

/-- Each field of `STATUS` lies where R32 puts it. -/
theorem statusWord_fields (s : State) :
    (statusWord s).getLsbD 0 = s.flags.busy ∧ (statusWord s).getLsbD 1 = s.flags.done ∧
      (statusWord s).getLsbD 2 = s.flags.fault ∧ (statusWord s).extractLsb' 3 2 = s.finfo.fview ∧
      (statusWord s).extractLsb' 5 2 = s.finfo.cause ∧ (statusWord s).getLsbD 7 = s.finfo.fhost ∧
      (statusWord s).extractLsb' 8 24 = s.finfo.findex := by
  obtain ⟨hbusy, hdone, hfault, hview, hcause, hhost⟩ := statusByte_fields s.finfo.fhost s.finfo.cause s.finfo.fview
    s.flags.fault s.flags.done s.flags.busy
  have hbit (i : Nat) (hi : i < 8) : (statusWord s).getLsbD i = (statusByte s.finfo.fhost s.finfo.cause s.finfo.fview
      s.flags.fault s.flags.done s.flags.busy).getLsbD i :=
    BitVec.getLsbD_append.trans (if_pos hi)
  have hfield (i k : Nat) (h : i + k ≤ 8) : (statusWord s).extractLsb' i k = (statusByte s.finfo.fhost s.finfo.cause
      s.finfo.fview s.flags.fault s.flags.done s.flags.busy).extractLsb' i k :=
    BitVec.extractLsb'_append_eq_of_add_le h
  exact ⟨(hbit 0 (by decide)).trans hbusy, (hbit 1 (by decide)).trans hdone, (hbit 2 (by decide)).trans hfault,
    (hfield 3 2 (by decide)).trans hview, (hfield 5 2 (by decide)).trans hcause, (hbit 7 (by decide)).trans hhost,
    BitVec.extractLsb'_append_eq_left⟩

/-- Settles O35: the register is its fields side by side. -/
theorem statusRdAnswersTheRegister : Obligations.StatusRdAnswersTheRegister := by
  unfold Obligations.StatusRdAnswersTheRegister
  intro s hphase
  obtain ⟨hbusy, hdone, hfault, hview, hcause, hhost, hindex⟩ := statusWord_fields s
  refine ⟨statusWord s, exec_statusRd hphase, hbusy, hdone, hfault, hview, hcause, hhost, hindex, fun hm => ?_⟩
  rw [hbusy]
  rcases hphase with hp | hp
  · exact (hm.1 hp).1
  · rw [hm.2.2 hp]

/-! ### The reset event -/

/-- With empty cell lists `MEM` reads `SEED` and every opacity byte 255 (R37). -/
theorem resetFrom_resetEvent (s : State) : ResetFrom s (resetEvent s) := by
  refine ⟨rfl, fun a => rfl, fun k => ?_, rfl, rfl, rfl, rfl, rfl⟩
  rw [fbByte_unlisted rfl, fbUnwritten, if_pos (by omega)]

/-- Settles O36: the command answers on top of the reset event, the reset input is the event alone. -/
theorem resetPutsEveryPieceOfStateBack : Obligations.ResetPutsEveryPieceOfStateBack := by
  unfold Obligations.ResetPutsEveryPieceOfStateBack
  refine fun s => ⟨⟨_, rfl, rfl, resetFrom_resetEvent s⟩, fun rest h => ?_⟩
  exact ⟨_, step_reset (by rw [h]; rfl), by rw [resetEvent_resetIn, clockReset_resetIn, h]; rfl, rfl,
    resetFrom_resetEvent (clockReset s)⟩

end Sys2Proof.Machine
end

section
/-! PROOFS. What each instruction leaves alone (spec/10_state.md section 2, spec/42_compositor.md R146,
spec/44_host_commands.md R171, R186): the engine writes no `MEM`, host commands no framebuffer, a command in `FAULT`
nothing, and a view is written by its own commands only. -/

namespace Sys2Proof.Machine

/-! ### A property of states that every way of being accepted keeps -/

section
variable {P : State → Prop} {s : State} {k : State → State}

theorem inMapPass_keeps (h : P s) (hk : s.seq.phase = .map → P (k s)) : P (inMapPass s k) := by
  unfold inMapPass
  cases hp : s.seq.phase
  case map => exact hk hp
  all_goals exact h

theorem inSpritePass_keeps (h : P s) (hk : s.seq.phase = .sprite → P (k s)) : P (inSpritePass s k) := by
  unfold inSpritePass
  cases hp : s.seq.phase
  case sprite => exact hk hp
  all_goals exact h

theorem onUnit_keeps (h : P s) (hk : P (k s)) : P (onUnit s k) := by
  rcases onUnit_cases s k with ⟨-, he⟩ | ⟨-, he⟩ <;> rw [he]
  · exact hk
  · exact h

theorem onCommand_keeps (h : P s) (hf : P (respond s .faulted)) (hk : P (k s)) : P (onCommand s k) := by
  rcases onCommand_cases s k with ⟨-, he⟩ | ⟨-, he⟩ | ⟨-, he⟩ <;> rw [he]
  · exact hk
  · exact hf
  · exact h

end

/-! ### `MEM` -/

/-- `t` has the configuration and the `MEM` of `s`. -/
structure KeepsMem (s t : State) : Prop where
  cfg : t.cfg = s.cfg
  mem : t.mem = s.mem

theorem KeepsMem.ofRun {s : State} (l : Latch) (h : s.seq.phase = .map ∨ s.seq.phase = .sprite) :
    KeepsMem s (runEntry { s with latch := l }) := by
  obtain ⟨fb, -, he | ⟨r, k, he⟩⟩ := runEntry_cases (s := { s with latch := l }) h <;> rw [he]
  · obtain ⟨hcfg, hmem, -⟩ := advanceEntry_keep (atPixel { s with latch := l } fb (0, 0))
    exact ⟨hcfg, hmem⟩
  · exact ⟨rfl, rfl⟩

theorem KeepsMem.ofSprite (t : BitVec 8) (p : BitVec 5) (m : BitVec 2) (x y : BitVec 8) (s : State) :
    KeepsMem s (spritePixels t p m x y s) :=
  inSpritePass_keeps ⟨rfl, rfl⟩ fun hp => .ofRun _ (.inr hp)

theorem KeepsMem.ofUnit {α : Type} (s : State) (res : Except Raise α) (f : α → UnitResult) :
    KeepsMem s (onUnit s fun s => unitDelivers s res f) :=
  onUnit_keeps ⟨rfl, rfl⟩ (by cases res <;> exact ⟨rfl, rfl⟩)

theorem KeepsMem.ofRead {α : Type} (s : State) (res : Except Raise α) (f : α → Response) :
    KeepsMem s (onCommand s fun s => hostRead s res f) :=
  onCommand_keeps ⟨rfl, rfl⟩ ⟨rfl, rfl⟩ (by cases res <;> exact ⟨rfl, rfl⟩)

/-- No display-list entry and no unit operation writes `MEM` (R146). -/
theorem exec_engine_keepsMem {i : Instr} {s t : State} (hi : isHostCommand i = false) (h : exec i s = .next t) :
    KeepsMem s t := by
  cases i with
  | mapcell t p => cases h; exact inMapPass_keeps ⟨rfl, rfl⟩ fun hp => .ofRun _ (.inl hp)
  | sprOpaque t p x y => cases h; exact .ofSprite t p _ x y s
  | sprBack t p x y => cases h; exact .ofSprite t p _ x y s
  | sprFront t p x y => cases h; exact .ofSprite t p _ x y s
  | sprDisabled =>
    cases h
    obtain ⟨hcfg, hmem, -⟩ := advanceEntry_keep { s with seq := { s.seq with ly := 0, lx := 0 } }
    exact inSpritePass_keeps ⟨rfl, rfl⟩ fun _ => ⟨hcfg, hmem⟩
  | decodePixel t ly lx => cases h; exact .ofUnit s _ _
  | resolveColor p b => cases h; exact .ofUnit s _ _
  | expandToChannels c => cases h; exact onUnit_keeps ⟨rfl, rfl⟩ ⟨rfl, rfl⟩
  | fbWrite px py r g b a => cases h; exact onUnit_keeps ⟨rfl, rfl⟩ ⟨rfl, rfl⟩
  | tileRd | tileWr | sprRd | sprWr | palRd | palWr | mapRd | mapWr | setMapCell | putSprite | renderFrame | fbRd
    | statusRd | reset => cases hi

/-- Settles O46: each of the nine engine instructions runs pixels or delivers a unit's result. -/
theorem theEngineNeverWritesMem : Obligations.TheEngineNeverWritesMem := by
  unfold Obligations.TheEngineNeverWritesMem
  exact fun _ _ _ hi h => (exec_engine_keepsMem hi h).mem

/-- The checked write that a host command asks for. -/
def writeOf (s : State) : Instr → Option (Except Raise State)
  | .tileWr i d => some (tileWrite s i.toNat d)
  | .sprWr i d => some (sprWrite s i.toNat d)
  | .palWr i d => some (palWrite s i.toNat d)
  | .mapWr i d => some (mapWrite s i.toNat d)
  | .setMapCell row col t p =>
    some (mapWrite s (s.cfg.cellIndex row.toNat col.toNat) (cellOperand s.cfg.layout t p))
  | .putSprite i t p x y m => some (sprWrite s i.toNat (spriteOperand s.cfg.layout t p x y m))
  | _ => none

theorem onCommand_hostWrite_mem (s : State) (res : Except Raise State) :
    KeepsMem s (onCommand s fun s => hostWrite s res) ∨
      ∃ u, res = .ok u ∧ (onCommand s fun s => hostWrite s res) = respond u .ok := by
  rcases onCommand_cases s (fun s => hostWrite s res) with ⟨-, h⟩ | ⟨-, h⟩ | ⟨-, h⟩ <;> rw [h]
  · cases res with
    | ok u => exact .inr ⟨u, rfl, rfl⟩
    | error r => exact .inl ⟨rfl, rfl⟩
  · exact .inl ⟨rfl, rfl⟩
  · exact .inl ⟨rfl, rfl⟩

/-- `MEM` changes only by the checked write of a command that has one, or by reset. -/
theorem exec_keepsMem_or_writes {i : Instr} {s t : State} (hi : i ≠ .reset) (h : exec i s = .next t) :
    KeepsMem s t ∨ ∃ res u, writeOf s i = some res ∧ res = .ok u ∧ t = respond u .ok := by
  have hwrite {res : Except Raise State} (hw : writeOf s i = some res)
      (ht : t = onCommand s fun s => hostWrite s res) :
      KeepsMem s t ∨ ∃ res u, writeOf s i = some res ∧ res = .ok u ∧ t = respond u .ok := by
    rw [ht]
    exact (onCommand_hostWrite_mem s res).imp id fun ⟨u, hu, he⟩ => ⟨res, u, hw, hu, he⟩
  cases hhost : isHostCommand i with
  | false => exact .inl (exec_engine_keepsMem hhost h)
  | true =>
    cases i with
    | mapcell | sprOpaque | sprBack | sprFront | sprDisabled | decodePixel | resolveColor | expandToChannels
      | fbWrite => cases hhost
    | tileRd | sprRd | palRd | mapRd => cases h; exact .inl (.ofRead s _ _)
    | tileWr | sprWr | palWr | mapWr | setMapCell | putSprite => cases h; exact hwrite rfl rfl
    | renderFrame => cases h; exact .inl (onCommand_keeps ⟨rfl, rfl⟩ ⟨rfl, rfl⟩ ⟨rfl, rfl⟩)
    | fbRd a =>
      cases h
      refine .inl (onCommand_keeps ⟨rfl, rfl⟩ ⟨rfl, rfl⟩ ?_)
      split_ifs <;> exact ⟨rfl, rfl⟩
    | statusRd =>
      rw [exec, execStatusRd] at h
      cases hp : s.seq.phase <;> rw [hp] at h <;> cases h <;> exact .inl ⟨rfl, rfl⟩
    | reset => exact absurd rfl hi

section
variable {s t : State} (h : KeepsMem s t) (j : Nat)
include h

theorem KeepsMem.tileRead : tileRead t j = tileRead s j := by
  simp only [Machine.tileRead, memByte, h.cfg, h.mem]

theorem KeepsMem.sprRead : sprRead t j = sprRead s j := by
  simp only [Machine.sprRead, memWord, memHalf, memByte, h.cfg, h.mem]

theorem KeepsMem.palRead : palRead t j = palRead s j := by
  simp only [Machine.palRead, memHalf, memByte, h.cfg, h.mem]

theorem KeepsMem.mapRead : mapRead t j = mapRead s j := by
  simp only [Machine.mapRead, memByte, h.cfg, h.mem]

end

section
variable {α : Type} {f g : Nat → α}

/-- Where nothing changes, whatever changed has any property. -/
theorem never_of_eq {C : Nat → Prop} (h : ∀ j, f j = g j) (j : Nat) (hj : f j ≠ g j) : C j :=
  absurd (h j) hj

theorem index_of_changed {i : Nat} (hown : ∀ j, j ≠ i → f j = g j) {j : Nat} (hj : f j ≠ g j) : j = i :=
  of_not_not fun hne => hj (hown j hne)

/-- The index of the element that changed, as the command's operand. -/
theorem operand_of_changed {a : BitVec 24} (hown : ∀ j, j ≠ a.toNat → f j = g j) {j : Nat} (hj : f j ≠ g j) :
    a = BitVec.ofNat 24 j := by
  rw [index_of_changed hown hj, BitVec.ofNat_toNat, BitVec.setWidth_eq]

end

/-- Settles O47: only a checked write changes `MEM`, and it changes one element of its own view. -/
theorem eachViewHasItsOwnWriters : Obligations.EachViewHasItsOwnWriters := by
  unfold Obligations.EachViewHasItsOwnWriters
  intro i s t h hi
  rcases exec_keepsMem_or_writes hi h with hk | ⟨res, u, hw, hu, rfl⟩
  · exact ⟨never_of_eq hk.tileRead, never_of_eq hk.sprRead, never_of_eq hk.palRead, never_of_eq hk.mapRead⟩
  cases i with
  | tileWr idx d =>
    cases hw
    obtain ⟨-, hown, hother⟩ := tileWrite_reads hu
    simp only [forall_and] at hother
    obtain ⟨hspr, hpal, hmap⟩ := hother
    exact ⟨fun j hj => ⟨idx, d, rfl, (index_of_changed hown hj).symm⟩, never_of_eq hspr, never_of_eq hpal,
      never_of_eq hmap⟩
  | sprWr slot d =>
    cases hw
    obtain ⟨-, hown, hother⟩ := sprWrite_reads hu
    simp only [forall_and] at hother
    obtain ⟨htile, hpal, hmap⟩ := hother
    exact ⟨never_of_eq htile, fun j hj => .inl ⟨d, congrArg (Instr.sprWr · d) (operand_of_changed hown hj)⟩,
      never_of_eq hpal, never_of_eq hmap⟩
  | putSprite slot n p x y m =>
    cases hw
    obtain ⟨-, hown, hother⟩ := sprWrite_reads hu
    simp only [forall_and] at hother
    obtain ⟨htile, hpal, hmap⟩ := hother
    exact ⟨never_of_eq htile,
      fun j hj => .inr ⟨n, p, x, y, m, congrArg (Instr.putSprite · n p x y m) (operand_of_changed hown hj)⟩,
      never_of_eq hpal, never_of_eq hmap⟩
  | palWr idx d =>
    cases hw
    obtain ⟨-, hown, hother⟩ := palWrite_reads hu
    simp only [forall_and] at hother
    obtain ⟨htile, hspr, hmap⟩ := hother
    exact ⟨never_of_eq htile, never_of_eq hspr,
      fun j hj => ⟨d, congrArg (Instr.palWr · d) (operand_of_changed hown hj)⟩, never_of_eq hmap⟩
  | mapWr idx d =>
    cases hw
    obtain ⟨-, hown, hother⟩ := mapWrite_reads hu
    simp only [forall_and] at hother
    obtain ⟨htile, hspr, hpal⟩ := hother
    exact ⟨never_of_eq htile, never_of_eq hspr, never_of_eq hpal,
      fun j hj => .inl ⟨d, congrArg (Instr.mapWr · d) (operand_of_changed hown hj)⟩⟩
  | setMapCell row col n p =>
    cases hw
    obtain ⟨-, hown, hother⟩ := mapWrite_reads hu
    simp only [forall_and] at hother
    obtain ⟨htile, hspr, hpal⟩ := hother
    exact ⟨never_of_eq htile, never_of_eq hspr, never_of_eq hpal,
      fun j hj => .inr ⟨row, col, n, p, rfl, index_of_changed hown hj⟩⟩
  | mapcell | sprOpaque | sprBack | sprFront | sprDisabled | decodePixel | resolveColor | expandToChannels | fbWrite
    | tileRd | sprRd | palRd | mapRd | renderFrame | fbRd | statusRd | reset => cases hw

/-! ### The framebuffer -/

/-- The framebuffer of `t` reads as that of `s`, written and unwritten bytes alike. -/
structure KeepsFb (s t : State) : Prop where
  fb : t.fb = s.fb
  epoch : t.epoch = s.epoch

theorem KeepsFb.fbByte {s t : State} (h : KeepsFb s t) (a : Nat) : fbByte t a = fbByte s a := by
  simp only [Machine.fbByte, fbUnwritten, h.fb, h.epoch]

theorem KeepsFb.ofRead {α : Type} (s : State) (res : Except Raise α) (f : α → Response) :
    KeepsFb s (onCommand s fun s => hostRead s res f) :=
  onCommand_keeps ⟨rfl, rfl⟩ ⟨rfl, rfl⟩ (by cases res <;> exact ⟨rfl, rfl⟩)

theorem KeepsFb.ofWrite (s : State) {res : Except Raise State} (w : ∀ t, res = .ok t → WroteMem s t) :
    KeepsFb s (onCommand s fun s => hostWrite s res) := by
  refine onCommand_keeps ⟨rfl, rfl⟩ ⟨rfl, rfl⟩ ?_
  cases res with
  | ok t => rw [hostWrite_ok, (w t rfl).rest]; exact ⟨rfl, rfl⟩
  | error r => exact ⟨rfl, rfl⟩

theorem exec_host_keepsFb {i : Instr} {s t : State} (hi : isHostCommand i = true) (hr : i ≠ .reset)
    (h : exec i s = .next t) : KeepsFb s t := by
  cases i with
  | mapcell | sprOpaque | sprBack | sprFront | sprDisabled | decodePixel | resolveColor | expandToChannels
    | fbWrite => cases hi
  | tileRd | sprRd | palRd | mapRd => cases h; exact .ofRead s _ _
  | tileWr idx d => cases h; exact .ofWrite s fun _ => tileWrite_wrote
  | sprWr slot d => cases h; exact .ofWrite s fun _ => sprWrite_wrote
  | palWr idx d => cases h; exact .ofWrite s fun _ => palWrite_wrote
  | mapWr idx d => cases h; exact .ofWrite s fun _ => mapWrite_wrote
  | setMapCell row col t p => cases h; exact .ofWrite s fun _ => mapWrite_wrote
  | putSprite slot t p x y m => cases h; exact .ofWrite s fun _ => sprWrite_wrote
  | renderFrame => cases h; exact onCommand_keeps ⟨rfl, rfl⟩ ⟨rfl, rfl⟩ ⟨rfl, rfl⟩
  | fbRd a =>
    cases h
    refine onCommand_keeps ⟨rfl, rfl⟩ ⟨rfl, rfl⟩ ?_
    split_ifs <;> exact ⟨rfl, rfl⟩
  | statusRd =>
    rw [exec, execStatusRd] at h
    cases hp : s.seq.phase <;> rw [hp] at h <;> cases h <;> exact ⟨rfl, rfl⟩
  | reset => exact absurd rfl hr

/-- Settles O48: a host command reads, writes `MEM` or starts a frame. -/
theorem hostCommandsLeaveTheFramebuffer : Obligations.HostCommandsLeaveTheFramebuffer := by
  unfold Obligations.HostCommandsLeaveTheFramebuffer
  exact fun _ _ _ hi hr h => (exec_host_keepsFb hi hr h).fbByte

/-! ### `FAULT` -/

section
variable {s : State} (hp : s.seq.phase = .fault)
include hp

theorem exec_host_fault {i : Instr} (hi : isHostCommand i = true) (hs : i ≠ .statusRd) (hr : i ≠ .reset) :
    exec i s = .next (respond s .faulted) := by
  cases i with
  | mapcell | sprOpaque | sprBack | sprFront | sprDisabled | decodePixel | resolveColor | expandToChannels
    | fbWrite => cases hi
  | statusRd => exact absurd rfl hs
  | reset => exact absurd rfl hr
  | tileRd | tileWr | sprRd | sprWr | palRd | palWr | mapRd | mapWr | setMapCell | putSprite | renderFrame | fbRd =>
    exact congrArg _ (onCommand_fault hp _)

theorem exec_engine_fault {i : Instr} (hi : isHostCommand i = false) : exec i s = .next s := by
  cases i with
  | mapcell => simp only [exec, execMapcell, inMapPass, hp]
  | sprOpaque | sprBack | sprFront =>
    simp only [exec, execSprOpaque, execSprBack, execSprFront, spritePixels, inSpritePass, hp]
  | sprDisabled => simp only [exec, execSprDisabled, inSpritePass, hp]
  | decodePixel | resolveColor | expandToChannels | fbWrite => exact congrArg _ (onUnit_fault hp _)
  | tileRd | tileWr | sprRd | sprWr | palRd | palWr | mapRd | mapWr | setMapCell | putSprite | renderFrame | fbRd
    | statusRd | reset => cases hi

/-- In `FAULT` an instruction but `RESET` changes at most the response. -/
theorem exec_fault {i : Instr} (hr : i ≠ .reset) : ∃ r, exec i s = .next (respond s r) := by
  by_cases hs : i = .statusRd
  · subst hs; exact ⟨_, exec_statusRd (.inr hp)⟩
  · cases hi : isHostCommand i with
    | false => exact ⟨s.resp, exec_engine_fault hp hi⟩
    | true => exact ⟨_, exec_host_fault hp hi hs hr⟩

end

/-- Settles O39: each of these commands is answered by its acceptance alone. -/
theorem faultStateAnswersFaulted : Obligations.FaultStateAnswersFaulted := by
  unfold Obligations.FaultStateAnswersFaulted
  exact fun _ _ hi hs hr hp => exec_host_fault hp hi hs hr

/-- No unit bundle is the `RESET` command. -/
theorem decodeUnit_ne_reset (u : UnitBundle) : decodeUnit u ≠ .reset := by
  cases u <;> exact Instr.noConfusion

/-- In `FAULT`, without a reset, a step takes at most an input and answers. -/
theorem step_fault {s : State} (hp : s.seq.phase = .fault) (hr : s.resetIn.headD false = false)
    (hport : ∀ c cs, s.port = c :: cs → decodeCommand c ≠ .ok .reset) :
    ∃ p i r, step s = .next (respond { s with resetIn := s.resetIn.tail, port := p, unitIn := i } r) := by
  cases hu : s.unitIn with
  | some u =>
    obtain ⟨r, he⟩ := exec_fault (s := { clockReset s with unitIn := none }) hp (decodeUnit_ne_reset u)
    exact ⟨s.port, none, r, (step_item hr (fetch_unit (s := clockReset s) hu) rfl).trans he⟩
  | none =>
    cases hq : s.port with
    | nil =>
      refine ⟨[], none, s.resp, (step_nothing hr (fetch_nothing (s := clockReset s) hu (.inr hp) hq)).trans ?_⟩
      rw [← hu, ← hq]; rfl
    | cons c cs =>
      have hfetch := fetch_command (s := clockReset s) hu (.inr hp) hq
      cases hd : decodeCommand c with
      | ok i =>
        obtain ⟨r, he⟩ := exec_fault (s := { clockReset s with port := cs }) hp
          (fun hi => hport c cs hq (hd.trans (congrArg _ hi)))
        exact ⟨cs, s.unitIn, r, (step_item hr hfetch hd).trans he⟩
      | error e =>
        exact ⟨cs, s.unitIn, .faulted, (step_not_a_command hr hfetch hd).trans
          (congrArg _ (answerNotACommand_fault hp))⟩

/-- Settles O50: what such a step changes is inputs and the response. -/
theorem faultHoldsUntilReset : Obligations.FaultHoldsUntilReset := by
  unfold Obligations.FaultHoldsUntilReset
  intro s t hp hr hport h
  obtain ⟨p, i, r, hstep⟩ := step_fault hp hr hport
  cases hstep.symm.trans h
  exact ⟨rfl, rfl, rfl, rfl, rfl, rfl, rfl, rfl⟩

end Sys2Proof.Machine
end

section
/-! PROOFS. What every step keeps (spec/10_state.md sections 3 to 5, spec/70_reset_and_hazards.md section 1): the effects
of `Laws/Exec.lean` keep the configuration, the port and the invariant, and a step is a reset event or one of these
effects on the state with its input taken. -/

namespace Sys2Proof.Machine

/-! ### A step is a reset event or an effect -/

theorem Effect.ofNotACommand (s : State) : Effect s (answerNotACommand s) := by
  rcases onCommand_cases s (fun s => respond s .refused) with ⟨hp, h⟩ | ⟨hp, h⟩ | ⟨hp, h⟩ <;> rw [answerNotACommand, h]
  · exact .answer _ (.inl hp)
  · exact .answer _ (.inr hp)
  · exact .nothing

/-- Taking an input leaves all but the inputs. -/
theorem Took.eq {s u : State} (h : Took s u) :
    ∃ p i, u = { s with resetIn := s.resetIn.tail, port := p, unitIn := i } :=
  ⟨_, _, h.same⟩

theorem step_cases {s t : State} (h : step s = .next t) :
    t = resetEvent (clockReset s) ∨ ∃ u, Took s u ∧ Effect u t := by
  rcases step_effect s with ⟨-, hreset⟩ | ⟨-, u, hu, hp⟩
  · exact .inl (Host.Outcome.next.inj (h.symm.trans hreset))
  refine .inr ⟨u, hu, ?_⟩
  rcases hp with hp | ⟨i, hp⟩ | hp | ⟨r, hphase, hp⟩
  · cases h.symm.trans hp; exact .nothing
  · exact .of_exec (hp.symm.trans h)
  · cases h.symm.trans hp; exact .ofNotACommand u
  · cases h.symm.trans hp
    obtain ⟨_, _, rfl⟩ := hu.eq
    exact .fault r false (by rcases hphase with hp | hp <;> simp [hp])

/-- Settles O44: each of the four ways a step proceeds has a next state. -/
theorem everyStepHasANextState : Obligations.EveryStepHasANextState := by
  unfold Obligations.EveryStepHasANextState
  intro s
  rcases step_effect s with ⟨-, h⟩ | ⟨-, u, -, h | ⟨i, h⟩ | h | ⟨r, -, h⟩⟩
  · exact ⟨_, h⟩
  · exact ⟨_, h⟩
  · obtain ⟨t, ht, -⟩ := exec_effect i u
    exact ⟨t, h.trans ht⟩
  · exact ⟨_, h⟩
  · exact ⟨_, h⟩

/-! ### What every effect keeps -/

theorem Effect.keeps {s t : State} (h : Effect s t) : t.cfg = s.cfg ∧ t.port = s.port := by
  cases h with
  | write t hp w => rw [respond_cfg, respond_port, w.rest]; exact ⟨rfl, rfl⟩
  | entry l fb hp w =>
    obtain ⟨hcfg, -, -, hport, -⟩ := advanceEntry_keep (atPixel { s with latch := l } fb (0, 0))
    exact ⟨hcfg, hport⟩
  | nothing | answer | fault | frame | reset | unit | pixel | raise => exact ⟨rfl, rfl⟩

/-- Settles O45: neither a reset event nor taking an input nor an effect changes the configuration. -/
theorem noStepChangesTheConfiguration : Obligations.NoStepChangesTheConfiguration := by
  unfold Obligations.NoStepChangesTheConfiguration
  intro s t h
  rcases step_cases h with rfl | ⟨u, hu, he⟩
  · rfl
  · obtain ⟨_, _, rfl⟩ := hu.eq
    exact he.keeps.1

/-- Settles O49: while a frame executes the step takes its input from the display list or from a unit, and no effect
touches the port. -/
theorem commandsAreHeldWhileAFrameExecutes : Obligations.CommandsAreHeldWhileAFrameExecutes := by
  unfold Obligations.CommandsAreHeldWhileAFrameExecutes
  intro s t hp h
  rcases step_cases h with rfl | ⟨u, hu, he⟩
  · rfl
  rcases hu.port with hport | ⟨hp', -⟩
  · exact he.keeps.2.trans hport
  · rcases hp with hp | hp <;> simp [hp] at hp'

/-! ### The invariant -/

/-- A state with empty cell lists and the reset values of sequencer, flags and fault record has the invariant. -/
theorem inv_of_reset {s : State} (hw : s.cfg.WellFormed = true) (hmem : s.mem = []) (hfb : s.fb = [])
    (hseq : s.seq = Seq.reset) (hflags : s.flags = Flags.reset) (hfinfo : s.finfo = FaultInfo.reset) : Inv s := by
  have hlist : cellsRise [] := List.Pairwise.nil
  refine ⟨hw, ?_, ?_, ⟨?_, ?_, ?_⟩, ⟨?_, ?_⟩, ?_⟩
  · rw [hmem]; exact ⟨hlist, by simp⟩
  · rw [hfb]; exact ⟨hlist, by simp⟩
  all_goals simp [hseq, hflags, hfinfo, Seq.reset, Flags.reset, FaultRecordMatches]

theorem inv_enterFault {s : State} (h : Inv s) (r : Raise) (host : Bool) : Inv (enterFault s r host) := by
  obtain ⟨hw, hmem, hfb, -⟩ := h
  refine ⟨hw, hmem, hfb, ⟨?_, ?_, ?_⟩, ⟨?_, ?_⟩, ?_⟩
  all_goals simp [FaultRecordMatches]

theorem inv_startFrame {s : State} (h : Inv s) (hp : s.seq.phase = .idle) : Inv (startFrame s) := by
  obtain ⟨hw, hmem, hfb, hflags, -, hrec⟩ := h
  obtain ⟨hc, -⟩ := config_counts_pos hw
  have hfault : s.flags.fault = false := (hflags.1 hp).2
  refine ⟨hw, hmem, hfb, ⟨?_, ?_, ?_⟩, ⟨fun _ => hc, ?_⟩, hrec⟩
  all_goals simp [hfault]

/-- The invariant with another framebuffer in canonical form and another place inside the entry. -/
theorem inv_atPixel {s : State} (h : Inv s) (l : Latch) {fb : List Host.Cell} (hfb : FrameBuffer.wf s.cfg fb)
    (k : BitVec 3 × BitVec 3) : Inv (atPixel { s with latch := l } fb k) := by
  obtain ⟨hw, hmem, -, hrest⟩ := h
  exact ⟨hw, hmem, hfb, hrest⟩

theorem inv_advanceEntry {s : State} (h : Inv s) (hp : s.seq.phase = .map ∨ s.seq.phase = .sprite) :
    Inv (advanceEntry s) := by
  obtain ⟨hw, hmem, hfb, hflags, hpos, hrec⟩ := h
  obtain ⟨-, hs⟩ := config_counts_pos hw
  have hbusy := hflags.2.1 hp
  rcases hp with hp | hp
  · rw [advanceEntry_map hp]
    split_ifs with he
    · exact ⟨hw, hmem, hfb, ⟨by simp, fun _ => hbusy, by simp⟩, ⟨fun _ => he, by simp⟩, hrec⟩
    · exact ⟨hw, hmem, hfb, ⟨by simp, fun _ => hbusy, by simp⟩, ⟨by simp, fun _ => hs⟩, hrec⟩
  · rcases Nat.lt_or_ge (s.seq.entry + 1) s.cfg.spriteCount with he | he
    · rw [advanceEntry_next_slot hp he]
      exact ⟨hw, hmem, hfb, hflags, ⟨fun hmap => by simp [hp] at hmap, fun _ => he⟩, hrec⟩
    · rw [advanceEntry_last_slot hp he]
      exact ⟨hw, hmem, hfb, ⟨fun _ => ⟨rfl, by simp [hbusy]⟩, by simp, by simp⟩, ⟨by simp, by simp⟩, hrec⟩

theorem Effect.inv {s t : State} (he : Effect s t) (h : Inv s) : Inv t := by
  have ⟨hw, hmem, hfb, hrest⟩ := h
  cases he with
  | nothing => exact h
  | answer r _ => exact h
  | write t _ w =>
    obtain ⟨m, rfl⟩ : ∃ m, t = { s with mem := m } := ⟨_, w.rest⟩
    exact ⟨hw, w.canonical hmem, hfb, hrest⟩
  | fault r host _ => exact inv_enterFault h r host
  | frame hp => exact inv_startFrame h hp
  | reset => exact inv_of_reset hw rfl rfl rfl rfl rfl
  | unit u => exact h
  | pixel px py c a => exact ⟨hw, hmem, writePixel_wf hfb px py c a, hrest⟩
  | entry l fb hp w => exact inv_advanceEntry (inv_atPixel h l (w hfb) (0, 0)) hp
  | raise l fb r k _ w => exact inv_enterFault (inv_atPixel h l (w hfb) k) r false

theorem step_keeps_inv {s t : State} (h : Inv s) (hstep : step s = .next t) : Inv t := by
  rcases step_cases hstep with rfl | ⟨u, hu, he⟩
  · exact inv_of_reset h.1 rfl rfl rfl rfl rfl
  · obtain ⟨_, _, rfl⟩ := hu.eq
    exact he.inv h

/-- Settles O43: the reset event has the invariant, taking an input does not touch it, and every effect keeps it. -/
theorem everyStepKeepsTheInvariant : Obligations.EveryStepKeepsTheInvariant := by
  unfold Obligations.EveryStepKeepsTheInvariant
  exact fun _ _ => step_keeps_inv

/-- `CFG_REF` with 960 seed bytes meets R6, R8 and R9. -/
theorem config_ref_wellFormed : (Config.ref (List.replicate 960 0)).WellFormed = true := by
  have hseed : (Config.ref (List.replicate 960 0)).seedFits = true := decide_eq_true List.length_replicate
  rw [Config.WellFormed, hseed]; rfl

/-- Settles O42: a state right after reset has empty cell lists and the reset values. -/
theorem resetHasTheInvariant : Obligations.ResetHasTheInvariant := by
  unfold Obligations.ResetHasTheInvariant
  have hreset (c : Config) (hw : c.WellFormed = true) : Inv (State.resetWith c) := inv_of_reset hw rfl rfl rfl rfl rfl
  exact ⟨hreset, hreset _ config_ref_wellFormed⟩

theorem cellLookup_eq_none_of_unlisted {m : List Host.Cell} {a : Nat} (h : ∀ e ∈ m, e.1 ≠ a) :
    cellLookup m a = none := by
  induction m with
  | nil => rfl
  | cons c m ih => rw [cellLookup_cons, if_neg (h c (by simp)), ih fun e he => h e (by simp [he])]

/-- In the canonical form no opacity byte is listed, and an unlisted one reads 255. -/
theorem opacity_of_inv {s : State} (h : Inv s) (k : Nat) : fbByte s (4 * k + 3) = 255#8 := by
  obtain ⟨-, -, ⟨-, hcells⟩, -⟩ := h
  have hnone : cellLookup s.fb (4 * k + 3) = none :=
    cellLookup_eq_none_of_unlisted fun e he ha => (hcells e he).2 (by omega)
  rw [fbByte_unlisted hnone, fbUnwritten, if_pos (by omega)]

/-- Settles O51: the invariant has it, and every step keeps the invariant. -/
theorem opacityIsAlwaysFull : Obligations.OpacityIsAlwaysFull := by
  unfold Obligations.OpacityIsAlwaysFull
  exact fun s h => ⟨opacity_of_inv h, fun t hstep => opacity_of_inv (step_keeps_inv h hstep)⟩

/-- Settles O52: read off the flags and the fault record of the invariant, phase by phase. -/
theorem statusCombinationsThatNeverOccur : Obligations.StatusCombinationsThatNeverOccur := by
  unfold Obligations.StatusCombinationsThatNeverOccur
  intro s h
  obtain ⟨-, -, -, ⟨hidle, hbusy, hfault⟩, -, hrec⟩ := h
  have hflags : ¬ (s.flags.busy = true ∧ s.flags.fault = true) ∧ ¬ (s.flags.busy = true ∧ s.flags.done = true) := by
    cases hp : s.seq.phase with
    | idle => simp [(hidle hp).1]
    | map => simp [hbusy (.inl hp)]
    | sprite => simp [hbusy (.inr hp)]
    | fault => simp [hfault hp]
  refine ⟨hflags.1, hflags.2, fun h0 => ?_, fun h1 => ?_⟩
  · rw [FaultRecordMatches, if_neg (by simp [h0])] at hrec; exact hrec
  · rw [FaultRecordMatches, if_pos h1] at hrec; exact hrec

end Sys2Proof.Machine
end

section
/-! PROOFS. The frame step by step and the frame as a function (spec/42_compositor.md R142, R143). The entries of the
display list are numbered through, cells before slots; one step of a quiet frame at entry `j` is the function's entry
`j`, so a run over all entries is the function's fold, and both end alike. -/

namespace Sys2Proof.Machine

/-! ### The entries of a frame, numbered through -/

/-- The number of entries of the display list. -/
def entryCount (c : Config) : Nat := c.cellCount + c.spriteCount

/-- Entry number `j` of the frame function. -/
def frameEntry (s : State) (fb : List Host.Cell) (j : Nat) : Except Raise (List Host.Cell) :=
  if j < s.cfg.cellCount then frameCell s fb j else frameSprite s fb (j - s.cfg.cellCount)

/-- Where the sequencer stands at the start of entry number `j`. -/
def entrySeq (c : Config) (j : Nat) : Seq :=
  if j < c.cellCount then { phase := .map, entry := j, ly := 0, lx := 0 }
  else { phase := .sprite, entry := j - c.cellCount, ly := 0, lx := 0 }

/-- A fold depends on its function at the list's elements alone. -/
theorem foldlM_congr_mem {κ β : Type} {f g : β → κ → Except Raise β} {ks : List κ} (h : ∀ b, ∀ k ∈ ks, f b k = g b k)
    (b : β) : ks.foldlM f b = ks.foldlM g b := by
  induction ks generalizing b with
  | nil => rfl
  | cons k ks ih =>
    rw [List.foldlM_cons, List.foldlM_cons, h b k (by simp)]
    exact bind_congr fun b' => ih (fun b j hj => h b j (by simp [hj])) b'

/-- The frame function is one fold over the numbered entries. -/
theorem renderFrame_eq_foldlM (s : State) (fb : List Host.Cell) :
    renderFrame s fb = (List.range (entryCount s.cfg)).foldlM (frameEntry s) fb := by
  have hcells : (List.range s.cfg.cellCount).foldlM (frameEntry s) fb =
      (List.range s.cfg.cellCount).foldlM (frameCell s) fb :=
    foldlM_congr_mem (fun b k hk => if_pos (List.mem_range.1 hk)) fb
  have hslot (k : Nat) (b : List Host.Cell) : frameEntry s b (s.cfg.cellCount + k) = frameSprite s b k := by
    rw [frameEntry, if_neg (by omega), Nat.add_sub_cancel_left]
  rw [entryCount, List.range_add, List.foldlM_append, hcells, renderFrame]
  simp only [List.foldlM_map, hslot]
  cases (List.range s.cfg.cellCount).foldlM (frameCell s) fb <;> rfl

/-! ### What a sprite word executes -/

theorem decodeSprite_disabled {l : Layout} {w : Word} (h : spriteMode l w = 0b11#2) : decodeSprite l w = .sprDisabled :=
  if_pos h

/-- An enabled sprite word draws under its own layer mode (R90, R139). -/
theorem exec_decodeSprite {l : Layout} {w : Word} (h : spriteMode l w ≠ 0b11#2) (s : State) :
    exec (decodeSprite l w) s = .next (spritePixels (w.extractLsb' l.sprTile 8) (w.extractLsb' l.sprPal 5)
      (spriteMode l w) (w.extractLsb' l.sprX 8) (w.extractLsb' l.sprY 8) s) := by
  rcases mode_cases (spriteMode l w) with hm | hm | hm | hm
  · simp only [decodeSprite, hm]; rfl
  · simp only [decodeSprite, hm]; rfl
  · simp only [decodeSprite, hm]; rfl
  · exact absurd hm h

/-! ### One step of a frame is one entry of the frame function -/

/-- The frame of `s` at the start of entry number `j`. -/
def frameAt (s : State) (j : Nat) (fb : List Host.Cell) (l : Latch) : State :=
  { s with fb := fb, latch := l, seq := entrySeq s.cfg j }

theorem clockReset_of_none_listed {s : State} (h : s.resetIn = []) : clockReset s = s := by
  rw [clockReset, h, List.tail_nil, ← h]

/-- What a fold that stops at the first raise answers. -/
def verdict {κ β : Type} : β × Option (Raise × κ) → Except Raise β
  | (b, none) => .ok b
  | (_, some (r, _)) => .error r

theorem foldlM_eq_verdict {κ β : Type} (f : β → κ → Except Raise β) (ks : List κ) (b : β) :
    ks.foldlM f b = verdict (runList f ks b) := by
  rw [foldlM_eq_runList]
  rcases runList f ks b with ⟨b', _ | ⟨r, k⟩⟩ <;> rfl

theorem foldlM_of_runList {κ β : Type} {f : β → κ → Except Raise β} {ks : List κ} {b b' : β}
    (h : runList f ks b = (b', none)) : ks.foldlM f b = .ok b' :=
  (foldlM_eq_verdict f ks b).trans (congrArg verdict h)

theorem entrySeq_cell {c : Config} {j : Nat} (h : j < c.cellCount) :
    entrySeq c j = { phase := .map, entry := j, ly := 0, lx := 0 } := if_pos h

theorem entrySeq_slot {c : Config} {j : Nat} (h : c.cellCount ≤ j) :
    entrySeq c j = { phase := .sprite, entry := j - c.cellCount, ly := 0, lx := 0 } := if_neg (Nat.not_lt.2 h)

section
variable {s : State} {j : Nat} {fb : List Host.Cell} {l : Latch}

theorem frameEntry_cell (h : j < s.cfg.cellCount) : frameEntry s fb j = frameCell s fb j := if_pos h

theorem frameEntry_slot (h : s.cfg.cellCount ≤ j) : frameEntry s fb j = frameSprite s fb (j - s.cfg.cellCount) :=
  if_neg (Nat.not_lt.2 h)

theorem frameAt_cell (h : j < s.cfg.cellCount) :
    frameAt s j fb l = { s with fb := fb, latch := l, seq := { phase := .map, entry := j, ly := 0, lx := 0 } } := by
  rw [frameAt, entrySeq_cell h]

theorem frameAt_slot (h : s.cfg.cellCount ≤ j) :
    frameAt s j fb l =
      { s with fb := fb, latch := l, seq := { phase := .sprite, entry := j - s.cfg.cellCount, ly := 0, lx := 0 } } := by
  rw [frameAt, entrySeq_slot h]

theorem atPixel_frameAt (fb' : List Host.Cell) : atPixel (frameAt s j fb l) fb' (0, 0) = frameAt s j fb' l := by
  rcases Nat.lt_or_ge j s.cfg.cellCount with hj | hj
  · rw [frameAt_cell hj, frameAt_cell hj]; rfl
  · rw [frameAt_slot hj, frameAt_slot hj]; rfl

/-- After an entry comes the next one, and after the last the frame is complete. -/
theorem advanceEntry_frameAt_next (h : j + 1 < entryCount s.cfg) :
    advanceEntry (frameAt s j fb l) = frameAt s (j + 1) fb l := by
  rw [entryCount] at h
  rcases Nat.lt_or_ge j s.cfg.cellCount with hj | hj
  · rw [frameAt_cell hj, advanceEntry_map rfl]
    rcases Nat.lt_or_ge (j + 1) s.cfg.cellCount with hn | hn
    · rw [frameAt_cell hn, if_pos hn]
    · rw [frameAt_slot hn, if_neg (Nat.not_lt.2 hn), show j + 1 - s.cfg.cellCount = 0 by omega]
  · rw [frameAt_slot hj, frameAt_slot (by omega), advanceEntry_next_slot rfl (by simp only; omega),
      show j + 1 - s.cfg.cellCount = j - s.cfg.cellCount + 1 by omega]

theorem advanceEntry_frameAt_last (hs : 0 < s.cfg.spriteCount) (h : j + 1 = entryCount s.cfg) :
    advanceEntry (frameAt s j fb l) = completeFrame (frameAt s j fb l) := by
  rw [entryCount] at h
  rw [frameAt_slot (by omega), advanceEntry_last_slot rfl (by simp only; omega)]

variable (hr : s.resetIn = []) (hu : s.unitIn = none)
include hr hu

/-- The cell at entry `j`: its step is the run of the function's fold. -/
theorem step_frameAt_cell (hj : j < s.cfg.cellCount) :
    ∃ l' w, step (frameAt s j fb l) = .next (entryEnd (frameAt s j fb l') w) ∧ frameEntry s fb j = verdict w := by
  have hclock : clockReset (frameAt s j fb l) = frameAt s j fb l := clockReset_of_none_listed hr
  have hphase : (frameAt s j fb l).seq.phase = .map := by rw [frameAt_cell hj]
  have hentry : (frameAt s j fb l).seq.entry = j := by rw [frameAt_cell hj]
  have hstep := step_item (by simp only [frameAt, hr, List.headD_nil])
    (fetch_cell (s := clockReset (frameAt s j fb l)) hu hphase (by rw [hclock, hentry]; exact hj)) rfl
  rw [hclock, hentry] at hstep
  refine ⟨_, _, hstep.trans (execMapcell_run _ _ hphase), ?_⟩
  rw [frameEntry_cell hj, frameCell, mapRead_in hj, ← foldlM_eq_verdict, hentry]
  rfl

/-- The slot at entry `j`, disabled or drawing. -/
theorem step_frameAt_slot (hj : s.cfg.cellCount ≤ j) (hk : j - s.cfg.cellCount < s.cfg.spriteCount) :
    ∃ l' w, step (frameAt s j fb l) = .next (entryEnd (frameAt s j fb l') w) ∧ frameEntry s fb j = verdict w := by
  have hclock : clockReset (frameAt s j fb l) = frameAt s j fb l := clockReset_of_none_listed hr
  have hphase : (frameAt s j fb l).seq.phase = .sprite := by rw [frameAt_slot hj]
  have hentry : (frameAt s j fb l).seq.entry = j - s.cfg.cellCount := by rw [frameAt_slot hj]
  have hstep := step_item (by simp only [frameAt, hr, List.headD_nil])
    (fetch_slot (s := clockReset (frameAt s j fb l)) hu hphase (by rw [hclock, hentry]; exact hk)) rfl
  rw [hclock, hentry] at hstep
  have hread : sprRead s (j - s.cfg.cellCount) = .ok (memWord s (s.cfg.sprAddr (j - s.cfg.cellCount))) := sprRead_in hk
  rw [frameEntry_slot hj, frameSprite, hread]
  by_cases hm : spriteMode s.cfg.layout (memWord s (s.cfg.sprAddr (j - s.cfg.cellCount))) = 0b11#2
  · refine ⟨l, (fb, none), (hstep.trans (congrArg (exec · _) (decodeSprite_disabled hm))).trans ?_, if_pos hm⟩
    exact exec_sprDisabled hphase
  · refine ⟨_, _, (hstep.trans (exec_decodeSprite hm _)).trans (congrArg _ (spritePixels_run _ _ _ _ _ hphase)), ?_⟩
    rw [← foldlM_eq_verdict]
    exact if_neg hm

theorem step_frameAt (hj : j < entryCount s.cfg) :
    ∃ l' w, step (frameAt s j fb l) = .next (entryEnd (frameAt s j fb l') w) ∧ frameEntry s fb j = verdict w := by
  rcases Nat.lt_or_ge j s.cfg.cellCount with h | h
  · exact step_frameAt_cell hr hu h
  · exact step_frameAt_slot hr hu h (by rw [entryCount] at hj; omega)

theorem step_frameAt_ok (hj : j < entryCount s.cfg) {fb' : List Host.Cell} (h : frameEntry s fb j = .ok fb') :
    ∃ l', step (frameAt s j fb l) = .next (advanceEntry (frameAt s j fb' l')) := by
  obtain ⟨l', ⟨b, _ | ⟨r, k⟩⟩, hstep, hv⟩ := step_frameAt (fb := fb) (l := l) hr hu hj
  · cases h.symm.trans hv
    exact ⟨l', hstep.trans (by rw [entryEnd, atPixel_frameAt])⟩
  · cases h.symm.trans hv

theorem step_frameAt_error (hj : j < entryCount s.cfg) {r : Raise} (h : frameEntry s fb j = .error r) :
    ∃ l' fb' k, step (frameAt s j fb l) = .next (enterFault (atPixel (frameAt s j fb l') fb' k) r false) := by
  obtain ⟨l', ⟨b, _ | ⟨r, k⟩⟩, hstep, hv⟩ := step_frameAt (fb := fb) (l := l) hr hu hj
  · cases h.symm.trans hv
  · cases h.symm.trans hv
    exact ⟨l', b, k, hstep⟩

end

/-! ### A run over all entries -/

theorem stepN_succ {n : Nat} {s t : State} (h : step s = .next t) : stepN (n + 1) s = stepN n t := by
  simp only [stepN, h]

section
variable {s : State} (hr : s.resetIn = []) (hu : s.unitIn = none)
include hr hu

/-- From entry `j` on, a frame whose function completes completes, with the function's framebuffer. -/
theorem stepN_frameAt_ok (hs : 0 < s.cfg.spriteCount) (n : Nat) {j : Nat} {fb fb' : List Host.Cell} {l : Latch}
    (hj : j + (n + 1) = entryCount s.cfg) (h : (List.range' j (n + 1)).foldlM (frameEntry s) fb = .ok fb') :
    ∃ l', stepN (n + 1) (frameAt s j fb l) = .next (completeFrame (frameAt s (entryCount s.cfg - 1) fb' l')) := by
  induction n generalizing j fb l with
  | zero =>
    obtain ⟨l', hstep⟩ := step_frameAt_ok (l := l) hr hu (by omega) ((bind_pure _).symm.trans h)
    rw [advanceEntry_frameAt_last hs hj] at hstep
    exact ⟨l', by rw [stepN_succ hstep, ← hj]; rfl⟩
  | succ n ih =>
    rw [List.range'_succ, List.foldlM_cons] at h
    cases hentry : frameEntry s fb j with
    | error r => rw [hentry] at h; cases h
    | ok b =>
      rw [hentry] at h
      obtain ⟨l', hstep⟩ := step_frameAt_ok (l := l) hr hu (by omega) hentry
      rw [advanceEntry_frameAt_next (by omega)] at hstep
      rw [stepN_succ hstep]
      exact ih (by omega) h

/-- From entry `j` on, a frame whose function raises faults with the same raise: `u` is the state that raised. -/
theorem stepN_frameAt_error (n : Nat) {j : Nat} {fb : List Host.Cell} {l : Latch} {r : Raise}
    (hj : j + n = entryCount s.cfg) (h : (List.range' j n).foldlM (frameEntry s) fb = .error r) :
    ∃ k u, k ≤ n ∧ stepN k (frameAt s j fb l) = .next (enterFault u r false) ∧
      u = { s with fb := u.fb, latch := u.latch, seq := u.seq } := by
  induction n generalizing j fb l with
  | zero => cases h
  | succ n ih =>
    rw [List.range'_succ, List.foldlM_cons] at h
    cases hentry : frameEntry s fb j with
    | error e =>
      rw [hentry] at h
      cases h
      obtain ⟨l', fb', k, hstep⟩ := step_frameAt_error (l := l) hr hu (by omega) hentry
      exact ⟨1, _, by omega, by rw [stepN_succ hstep]; rfl, rfl⟩
    | ok b =>
      rw [hentry] at h
      obtain ⟨l', hstep⟩ := step_frameAt_ok (l := l) hr hu (by omega) hentry
      rcases Nat.eq_zero_or_pos n with rfl | hn
      · cases h
      rw [advanceEntry_frameAt_next (by omega)] at hstep
      obtain ⟨k, u, hk, hrun, heq⟩ := ih (l := l') (by omega) h
      exact ⟨k + 1, u, by omega, by rw [stepN_succ hstep, hrun], heq⟩

end

/-! ### The frame that `RENDER_FRAME` starts -/

/-- The state after a frame of `s` that completes with framebuffer `fb`. -/
def frameDone (s : State) (fb : List Host.Cell) (l : Latch) : State :=
  setResets (s.resetIn.drop (entryCount s.cfg))
    (completeFrame (frameAt (startFrame s) (entryCount s.cfg - 1) fb l))

/-- A started frame is at entry 0, and its function is the idle state's. -/
theorem startFrame_eq_frameAt {s : State} (hc : 0 < s.cfg.cellCount) :
    startFrame s = frameAt (startFrame s) 0 s.fb s.latch := by
  rw [frameAt_cell (show 0 < (startFrame s).cfg.cellCount from hc)]; rfl

theorem renderFrame_startFrame (s : State) (fb : List Host.Cell) :
    (List.range' 0 (entryCount s.cfg)).foldlM (frameEntry (startFrame s)) fb = renderFrame s fb := by
  rw [← List.range_eq_range']
  exact (renderFrame_eq_foldlM (startFrame s) fb).symm.trans (congrFun (renderFrame_congr rfl rfl) fb)

section
variable {s : State} (hw : s.cfg.WellFormed = true) (hq : Quiet s)
include hw hq

theorem stepN_startFrame_ok {fb : List Host.Cell} (h : renderFrame s s.fb = .ok fb) :
    ∃ l, stepN (entryCount s.cfg) (startFrame s) = .next (frameDone s fb l) := by
  obtain ⟨hlow, hu⟩ := hq
  obtain ⟨hc, hs⟩ := config_counts_pos hw
  obtain ⟨n, hn⟩ : ∃ n, entryCount s.cfg = n + 1 := ⟨entryCount s.cfg - 1, by rw [entryCount]; omega⟩
  have hfold := renderFrame_startFrame (setResets [] s) s.fb
  rw [show entryCount (setResets [] s).cfg = n + 1 from hn] at hfold
  obtain ⟨l, hrun⟩ := stepN_frameAt_ok (s := startFrame (setResets [] s)) (l := s.latch) rfl hu hs n
    (show 0 + (n + 1) = entryCount s.cfg by omega) (hfold.trans h)
  have hlisted := stepN_setResets (r := s.resetIn) rfl hlow hrun
  rw [startFrame_eq_frameAt hc, hn]
  refine ⟨l, hlisted.trans ?_⟩
  rw [← hn]; rfl

theorem stepN_startFrame_error {r : Raise} (h : renderFrame s s.fb = .error r) :
    ∃ k u, k ≤ entryCount s.cfg ∧ stepN k (startFrame s) = .next (enterFault u r false) ∧
      u = { startFrame s with fb := u.fb, latch := u.latch, seq := u.seq, resetIn := s.resetIn.drop k } := by
  obtain ⟨hlow, hu⟩ := hq
  obtain ⟨hc, -⟩ := config_counts_pos hw
  obtain ⟨k, u, hk, hrun, heq⟩ := stepN_frameAt_error (s := startFrame (setResets [] s)) (l := s.latch) rfl hu
    (entryCount s.cfg) (Nat.zero_add _) ((renderFrame_startFrame (setResets [] s) s.fb).trans h)
  have hlisted := stepN_setResets (r := s.resetIn) rfl hlow hrun
  rw [startFrame_eq_frameAt hc]
  exact ⟨k, setResets (s.resetIn.drop k) u, hk, hlisted, by rw [heq]; rfl⟩

end

/-- A completed frame leaves the flags of completion: there was no fault when it started. -/
theorem frameDone_flags {s : State} (h : s.flags.fault = false) (fb : List Host.Cell) (l : Latch) :
    (frameDone s fb l).flags = { busy := false, done := true, fault := false } := by
  show ({ busy := false, done := true, fault := s.flags.fault } : Flags) = _
  rw [h]

/-- Settles O53: the run over all entries and the function's fold end alike. -/
theorem frameStepsComputeTheFrameFunction : Obligations.FrameStepsComputeTheFrameFunction := by
  unfold Obligations.FrameStepsComputeTheFrameFunction
  intro s a hinv hq hidle ha
  obtain ⟨hw, -, -, hflags, -, -⟩ := hinv
  cases (exec_renderFrame_idle hidle).symm.trans ha
  refine ⟨fun fb h => ?_, fun r h => ?_⟩
  · obtain ⟨l, hrun⟩ := stepN_startFrame_ok hw hq h
    exact ⟨_, hrun, rfl, rfl, frameDone_flags (hflags.1 hidle).2 fb l, rfl, rfl, rfl⟩
  · obtain ⟨k, u, hk, hrun, heq⟩ := stepN_startFrame_error hw hq h
    exact ⟨k, _, hk, hrun, rfl, rfl, rfl, by rw [heq]; rfl, rfl, by rw [heq]; rfl⟩

/-! ### Every name existing, the frame function completes -/

/-- A fold whose function never raises answers. -/
theorem foldlM_ok_of_ok {κ β : Type} {f : β → κ → Except Raise β} {ks : List κ}
    (h : ∀ b, ∀ k ∈ ks, ∃ b', f b k = .ok b') (b : β) : ∃ b', ks.foldlM f b = .ok b' := by
  induction ks generalizing b with
  | nil => exact ⟨b, rfl⟩
  | cons k ks ih =>
    obtain ⟨b', hb⟩ := h b k (by simp)
    rw [List.foldlM_cons, hb]
    exact ih (fun b j hj => h b j (by simp [hj])) b'

theorem frameCell_ok {s : State} {e : Nat} (he : e < s.cfg.cellCount) (ht : (cellTile s e).toNat < s.cfg.tileCount)
    (hp : (cellPal s e).toNat < s.cfg.paletteCount) (fb : List Host.Cell) : ∃ fb', frameCell s fb e = .ok fb' := by
  have ht8 : ((cellTile s e).setWidth 8).toNat < s.cfg.tileCount := by
    rwa [BitVec.toNat_setWidth_of_le (by decide)]
  have hp5 : ((cellPal s e).setWidth 5).toNat < s.cfg.paletteCount := by
    rwa [BitVec.toNat_setWidth_of_le (by decide)]
  rw [frameCell, mapRead_in he]
  exact ⟨_, foldlM_of_runList (runList_cell_ok ht8 hp5 e fb)⟩

theorem frameSprite_ok {s : State} {k : Nat} (hk : k < s.cfg.spriteCount)
    (h : spriteMode s.cfg.layout (slotWord s k) = 0b11#2 ∨
      (((slotWord s k).extractLsb' s.cfg.layout.sprTile 8).toNat < s.cfg.tileCount ∧
        ((slotWord s k).extractLsb' s.cfg.layout.sprPal 5).toNat < s.cfg.paletteCount)) (fb : List Host.Cell) :
    ∃ fb', frameSprite s fb k = .ok fb' := by
  rw [frameSprite, sprRead_in hk]
  by_cases hm : spriteMode s.cfg.layout (slotWord s k) = 0b11#2
  · exact ⟨fb, if_pos hm⟩
  · obtain ⟨ht, hp⟩ := h.resolve_left hm
    exact ⟨_, (if_neg hm).trans (foldlM_of_runList (runList_sprite_ok ht (fun _ _ => hp) fb))⟩

theorem renderFrame_ok_of_namesExist {s : State} (h : NamesExist s) (fb : List Host.Cell) :
    ∃ fb', renderFrame s fb = .ok fb' := by
  obtain ⟨hcells, hslots⟩ := h
  rw [renderFrame_eq_foldlM]
  refine foldlM_ok_of_ok (fun b j hj => ?_) fb
  have hj : j < s.cfg.cellCount + s.cfg.spriteCount := List.mem_range.1 hj
  rcases Nat.lt_or_ge j s.cfg.cellCount with hc | hc
  · rw [frameEntry_cell hc]
    exact frameCell_ok hc (hcells j hc).1 (hcells j hc).2 b
  · rw [frameEntry_slot hc]
    exact frameSprite_ok (by omega) (hslots (j - s.cfg.cellCount) (by omega)) b

/-- Settles O38: every name existing, the frame function completes, and so does the run. -/
theorem renderFrameCompletesWhenNamesExist : Obligations.RenderFrameCompletesWhenNamesExist := by
  unfold Obligations.RenderFrameCompletesWhenNamesExist
  intro s hinv hq hidle hn
  obtain ⟨hw, -, -, hflags, -, -⟩ := hinv
  obtain ⟨fb, hfb⟩ := renderFrame_ok_of_namesExist hn s.fb
  obtain ⟨l, hrun⟩ := stepN_startFrame_ok hw hq hfb
  have hfault : s.flags.fault = false := (hflags.1 hidle).2
  have hstart : startFrame s = { s with
      flags := { busy := true, done := false, fault := false }
      seq := { phase := .map, entry := 0, ly := 0, lx := 0 }, resp := .none } := by
    simp only [startFrame, hfault]
  exact ⟨_, _, exec_renderFrame_idle hidle, hstart, hrun, rfl, frameDone_flags hfault fb l, rfl, rfl, rfl,
    rfl, rfl, rfl, rfl, rfl⟩

/-! ### What a frame asks for -/

/-- What a list of parts asks for, one part after another. -/
def joinPlans {κ : Type} (plan : κ → Except Raise (List PixelWrite)) (ks : List κ) : Except Raise (List PixelWrite) :=
  (ks.mapM plan).map List.flatten

/-- What map cell `e` asks for (R132). -/
def cellPlan (s : State) (e : Nat) : Except Raise (List PixelWrite) :=
  (mapRead s e).bind fun b =>
    joinPlans (cellPixelPlan s e ((b.extractLsb' s.cfg.layout.mapTile 6).setWidth 8)
      ((b.extractLsb' s.cfg.layout.mapPal 2).setWidth 5)) blockPixels

/-- What slot `k` asks for (R134, R139). -/
def slotPlan (s : State) (k : Nat) : Except Raise (List PixelWrite) :=
  (sprRead s k).bind fun w =>
    if spriteMode s.cfg.layout w = 0b11#2 then .ok []
    else joinPlans (spritePixelPlan s (w.extractLsb' s.cfg.layout.sprTile 8) (w.extractLsb' s.cfg.layout.sprPal 5)
      (spriteMode s.cfg.layout w) (w.extractLsb' s.cfg.layout.sprX 8) (w.extractLsb' s.cfg.layout.sprY 8)) blockPixels

/-- What entry number `j` asks for. -/
def entryPlan (s : State) (j : Nat) : Except Raise (List PixelWrite) :=
  if j < s.cfg.cellCount then cellPlan s j else slotPlan s (j - s.cfg.cellCount)

/-- What a frame asks for: it depends on the configuration and `MEM` alone (R144). -/
def framePlan (s : State) : Except Raise (List PixelWrite) := joinPlans (entryPlan s) (List.range (entryCount s.cfg))

theorem foldlM_joinPlans {κ : Type} {cfg : Config} {f : List Host.Cell → κ → Except Raise (List Host.Cell)}
    {plan : κ → Except Raise (List PixelWrite)} (h : Planned cfg f plan) (ks : List κ) (fb : List Host.Cell) :
    ks.foldlM f fb = (joinPlans plan ks).map (applyWrites cfg fb) := by
  rw [foldlM_planned h, joinPlans]
  cases ks.mapM plan <;> rfl

theorem frameCell_planned (s : State) : Planned s.cfg (frameCell s) (cellPlan s) := by
  intro fb e
  rw [frameCell, cellPlan]
  cases mapRead s e with
  | error r => rfl
  | ok b => exact foldlM_joinPlans (cellPixel_planned s e _ _) blockPixels fb

theorem frameSprite_planned (s : State) : Planned s.cfg (frameSprite s) (slotPlan s) := by
  intro fb k
  rw [frameSprite, slotPlan]
  cases sprRead s k with
  | error r => rfl
  | ok w =>
    simp only [Except.bind]
    split_ifs
    · rfl
    · exact foldlM_joinPlans (spritePixel_planned s _ _ _ _ _) blockPixels fb

theorem frameEntry_planned (s : State) : Planned s.cfg (frameEntry s) (entryPlan s) := by
  intro fb j
  rw [frameEntry, entryPlan]
  split_ifs
  · exact frameCell_planned s fb j
  · exact frameSprite_planned s fb (j - s.cfg.cellCount)

theorem renderFrame_eq_framePlan (s : State) (fb : List Host.Cell) :
    renderFrame s fb = (framePlan s).map (applyWrites s.cfg fb) := by
  rw [renderFrame_eq_foldlM, foldlM_joinPlans (frameEntry_planned s), framePlan]

/-- A frame that completes has written its plan. -/
theorem framePlan_of_renderFrame {s : State} {f f' : List Host.Cell} (h : renderFrame s f = .ok f') :
    ∃ ws, framePlan s = .ok ws ∧ f' = applyWrites s.cfg f ws := by
  rw [renderFrame_eq_framePlan] at h
  cases hp : framePlan s with
  | error r => rw [hp] at h; cases h
  | ok ws => rw [hp] at h; cases h; exact ⟨ws, rfl, rfl⟩

/-! ### Every colour byte is written -/

/-- What a part of a completed plan asks for is in the plan. -/
theorem mem_joinPlans {κ : Type} {plan : κ → Except Raise (List PixelWrite)} {ks : List κ} {ws : List PixelWrite}
    (h : joinPlans plan ks = .ok ws) {k : κ} (hk : k ∈ ks) : ∃ us, plan k = .ok us ∧ us ⊆ ws := by
  induction ks generalizing ws with
  | nil => simp at hk
  | cons j ks ih =>
    have hcons : joinPlans plan (j :: ks) =
        (plan j).bind fun us => (joinPlans plan ks).map (us ++ ·) := by
      simp only [joinPlans, List.mapM_cons]
      cases plan j with
      | error r => rfl
      | ok us => cases ks.mapM plan <;> rfl
    rw [hcons] at h
    cases hj : plan j with
    | error r => rw [hj] at h; cases h
    | ok us =>
      rw [hj] at h
      cases hks : joinPlans plan ks with
      | error r => rw [hks] at h; cases h
      | ok vs =>
        rw [hks] at h
        cases h
        rcases List.mem_cons.1 hk with rfl | hk
        · exact ⟨us, hj, List.subset_append_left us vs⟩
        · obtain ⟨us', hp, hsub⟩ := ih hks hk
          exact ⟨us', hp, List.Subset.trans hsub (List.subset_append_right us vs)⟩

/-- Where a pixel of a map cell does not raise, it asks for a write to its own place. -/
theorem cellPixelPlan_place {s : State} {e : Nat} {t : BitVec 8} {p : BitVec 5} {k : BitVec 3 × BitVec 3}
    {us : List PixelWrite} (h : cellPixelPlan s e t p k = .ok us) :
    ∃ w ∈ us, w.px = 8 * cellCol s e + k.2.toNat ∧ w.py = 8 * cellRow s e + k.1.toNat := by
  rw [cellPixelPlan] at h
  split at h
  · cases h
  · split at h
    · cases h
    · cases h; exact ⟨_, List.mem_singleton_self _, rfl, rfl⟩

/-- A write on the surface touches its three colour bytes. -/
theorem touch_colour_isSome {cfg : Config} {w : PixelWrite} (hx : w.px < cfg.width) (hy : w.py < cfg.height) {b : Nat}
    (hlo : cfg.pixelAddr w.px w.py ≤ b) (hhi : b < cfg.pixelAddr w.px w.py + 3) : (touch cfg w b).isSome = true := by
  obtain ⟨hr, hg, hb, -⟩ := touch_pixel cfg w hx hy
  obtain h | h | h : b = cfg.pixelAddr w.px w.py ∨ b = cfg.pixelAddr w.px w.py + 1 ∨
      b = cfg.pixelAddr w.px w.py + 2 := by omega
  · rw [h, hr]; rfl
  · rw [h, hg]; rfl
  · rw [h, hb]; rfl

/-- Every pixel of the surface is a pixel of a map cell (R25, R132). -/
theorem pixel_in_cell {s : State} {px py : Nat} (hx : px < s.cfg.width) (hy : py < s.cfg.height) :
    ∃ e < s.cfg.cellCount, ∃ k : BitVec 3 × BitVec 3,
      8 * cellCol s e + k.2.toNat = px ∧ 8 * cellRow s e + k.1.toNat = py := by
  simp only [Config.width, Config.height] at hx hy
  have hcol : px / 8 < s.cfg.cols := by omega
  have hrow : py / 8 < s.cfg.rows := by omega
  have hlx : (BitVec.ofNat 3 (px % 8)).toNat = px % 8 := by simp
  have hly : (BitVec.ofNat 3 (py % 8)).toNat = py % 8 := by simp
  refine ⟨py / 8 * s.cfg.cols + px / 8, ?_, (BitVec.ofNat 3 (py % 8), BitVec.ofNat 3 (px % 8)), ?_, ?_⟩
  · calc py / 8 * s.cfg.cols + px / 8 < (py / 8 + 1) * s.cfg.cols := by rw [Nat.add_one_mul]; omega
      _ ≤ s.cfg.rows * s.cfg.cols := Nat.mul_le_mul_right _ hrow
  · rw [hlx, cellCol, Nat.mul_add_mod_self_right, Nat.mod_eq_of_lt hcol]; omega
  · rw [hly, cellRow, Nat.mul_comm (py / 8), Nat.mul_add_div (by omega), Nat.div_eq_of_lt hcol]; omega

/-- Every colour byte of the framebuffer belongs to a pixel of the surface (R26). -/
theorem colour_byte_pixel {c : Config} {b : Nat} (hb : b < c.fbSize) (hcolour : b % 4 ≠ 3) :
    ∃ px < c.width, ∃ py < c.height, c.pixelAddr px py ≤ b ∧ b < c.pixelAddr px py + 3 := by
  have hpixel : b / 4 < c.width * c.height := by rw [Config.fbSize] at hb; omega
  have hw : 0 < c.width := Nat.pos_of_ne_zero fun h => by simp [h] at hpixel
  refine ⟨b / 4 % c.width, Nat.mod_lt _ hw, b / 4 / c.width, Nat.div_lt_of_lt_mul hpixel, ?_⟩
  have hsplit : b / 4 / c.width * c.width + b / 4 % c.width = b / 4 := Nat.div_add_mod' _ _
  rw [Config.pixelAddr, hsplit]
  omega

theorem framePlan_covers {s : State} {ws : List PixelWrite} (h : framePlan s = .ok ws) {b : Nat} (hb : b < s.cfg.fbSize)
    (hcolour : b % 4 ≠ 3) : (written s.cfg ws b).isSome = true := by
  obtain ⟨px, hx, py, hy, hlo, hhi⟩ := colour_byte_pixel hb hcolour
  obtain ⟨e, he, k, rfl, rfl⟩ := pixel_in_cell hx hy
  obtain ⟨us, hus, hsub⟩ := mem_joinPlans h (List.mem_range.2 (show e < entryCount s.cfg by rw [entryCount]; omega))
  rw [entryPlan, if_pos he, cellPlan, mapRead_in he] at hus
  obtain ⟨vs, hvs, hsub'⟩ := mem_joinPlans hus (mem_blockPixels k)
  obtain ⟨w, hw, hwx, hwy⟩ := cellPixelPlan_place hvs
  rw [← hwx, ← hwy] at hlo hhi
  rw [← hwx] at hx
  rw [← hwy] at hy
  exact written_isSome (hsub (hsub' hw)) (touch_colour_isSome hx hy hlo hhi)

/-- Settles O54: both framebuffers are the one plan written over what was there, and the plan writes every colour
byte. -/
theorem completedFrameRepaintsEveryColourByte : Obligations.CompletedFrameRepaintsEveryColourByte := by
  unfold Obligations.CompletedFrameRepaintsEveryColourByte
  intro s f g f' g' hf hg b hb hcolour
  obtain ⟨ws, hws, rfl⟩ := framePlan_of_renderFrame hf
  obtain ⟨vs, hvs, rfl⟩ := framePlan_of_renderFrame hg
  cases hws.symm.trans hvs
  obtain ⟨o, ho⟩ := Option.isSome_iff_exists.1 (framePlan_covers hws hb hcolour)
  obtain ⟨v, rfl⟩ : ∃ v, o = some v :=
    Option.ne_none_iff_exists'.1 fun hnone => written_colour hcolour (hnone ▸ ho)
  rw [applyWrites_lookup, applyWrites_lookup, ho]
  exact ⟨rfl, rfl⟩

/-! ### A frame issued twice -/

/-- Writing a list of pixels again changes nothing. -/
theorem applyWrites_twice {cfg : Config} {fb : List Host.Cell} (h : FrameBuffer.wf cfg fb) (ws : List PixelWrite) :
    applyWrites cfg (applyWrites cfg fb ws) ws = applyWrites cfg fb ws := by
  have honce := applyWrites_wf h ws
  refine cells_ext (applyWrites_wf honce ws).1 honce.1 fun b => ?_
  rw [applyWrites_lookup, applyWrites_lookup]
  cases written cfg ws b <;> rfl

theorem renderFrame_again {s : State} {f f' : List Host.Cell} (hwf : FrameBuffer.wf s.cfg f)
    (h : renderFrame s f = .ok f') : renderFrame s f' = .ok f' := by
  obtain ⟨ws, hws, rfl⟩ := framePlan_of_renderFrame h
  rw [renderFrame_eq_framePlan, hws]
  exact congrArg Except.ok (applyWrites_twice hwf ws)

/-- With no command waiting and no reset, a block in `FAULT` stays as it is. -/
theorem stepN_fault_waits {s : State} (hq : Quiet s) (hport : s.port = []) (hp : s.seq.phase = .fault) (n : Nat) :
    stepN n s = .next (setResets (s.resetIn.drop n) s) := by
  obtain ⟨hlow, hu⟩ := hq
  have hrun : stepN n (setResets [] s) = .next (setResets [] s) := by
    induction n with
    | zero => rfl
    | succ n ih =>
      have hstep : step (setResets [] s) = .next (setResets [] s) :=
        step_nothing rfl (fetch_nothing (s := clockReset (setResets [] s)) hu (.inr hp) hport)
      rw [stepN_succ hstep, ih]
  exact stepN_setResets (s := setResets [] s) (t := setResets [] s) rfl hlow hrun

/-- Settles O55: a run that ends with `DONE` is not one that raised, so the frame function completed; completing again
from its own framebuffer it leaves that framebuffer. -/
theorem renderingTwiceIsBitIdentical : Obligations.RenderingTwiceIsBitIdentical := by
  unfold Obligations.RenderingTwiceIsBitIdentical
  intro s a t b hinv hq hport hidle ha ht hdone hb
  obtain ⟨hw, -, hwf, -, -, -⟩ := hinv
  cases (exec_renderFrame_idle hidle).symm.trans ha
  cases hframe : renderFrame s s.fb with
  | error r =>
    obtain ⟨k, u, hk, hrun, heq⟩ := stepN_startFrame_error hw hq hframe
    have hwait := stepN_fault_waits (s := enterFault u r false)
      (by rw [heq]; exact ⟨fun c hc => hq.1 c (List.mem_of_mem_drop hc), hq.2⟩) (by rw [heq]; exact hport) rfl
      (entryCount s.cfg - k)
    rw [← stepN_add hrun, Nat.add_sub_cancel' hk] at hwait
    cases hwait.symm.trans ht
    cases hdone
  | ok fb =>
    obtain ⟨l, hrun⟩ := stepN_startFrame_ok hw hq hframe
    cases hrun.symm.trans ht
    cases (exec_renderFrame_idle rfl).symm.trans hb
    have hq' : Quiet (frameDone s fb l) := ⟨fun c hc => hq.1 c (List.mem_of_mem_drop hc), hq.2⟩
    have hagain : renderFrame (frameDone s fb l) (frameDone s fb l).fb = .ok fb :=
      (congrFun (renderFrame_congr rfl rfl) fb).trans (renderFrame_again hwf hframe)
    obtain ⟨l', hrun'⟩ := stepN_startFrame_ok (s := frameDone s fb l) hw hq' hagain
    exact ⟨_, hrun', rfl, rfl, rfl⟩

end Sys2Proof.Machine
end
